-- ==== Sys2Proof/Word.lean ====
section
/-! DEFINITION. The word types of the EISA core: spec/10_state.md R20 (a Word is 32 bits) and the field widths of
spec/30_encoding.md R107 to R112. Nothing here but names for widths. -/

namespace Sys2Proof

/-- A Word, "fixed-width unsigned bit pattern": 32 bits (R20). The one storage and transfer unit: there are no bytes (R51). -/
abbrev Word := BitVec 32

/-- A 4-bit register field; all sixteen values name a register (R112 (c)). -/
abbrev RegNum := BitVec 4

/-- The 6-bit opcode field (R107). -/
abbrev Opcode := BitVec 6

/-- The 18-bit immediate field of format RI, as read, before sign extension (R109, R112 (a)). -/
abbrev Imm18 := BitVec 18

/-- The 26-bit target field of format J (R111, R112 (b)). -/
abbrev Target := BitVec 26

end Sys2Proof
end

