-- ==== Sys2Proof/Machine/Codec.lean ====
section
/-! DEFINITION. The word codec of spec/30_encoding.md R100 to R105: field descriptors, layouts, `add_field`, `derive_layout`,
`get`, `set`, with their three errors (spec/60_exceptions.md R236), and the constant layouts of the core (R107 to R111, and
`FLAGS` of spec/10_state.md R24). A word of a layout is the natural number of its bits, because layouts have any size (R103). -/

namespace Sys2Proof

/-- The failure results of the codec operations (R236). None can arise while the core runs. -/
inductive CodecError where
  /-- a bad or overlapping field definition (R102), or a narrowing that cuts a field (R103) -/
  | layoutError
  /-- a field value that exceeds the field's width (R105) -/
  | rangeError
  /-- an undefined field name (R104) -/
  | unknownFieldError
  deriving DecidableEq, Repr

/-- R100; `stop_bit` and `mask` are computed from the two numbers, as R100 defines them. -/
structure FieldDescriptor where
  name : String
  startBit : Nat
  widthBits : Nat
  deriving DecidableEq, Repr

/-- `stop_bit = start_bit + width_bits` (R100). -/
def FieldDescriptor.stopBit (f : FieldDescriptor) : Nat := f.startBit + f.widthBits

/-- `mask = 2^width_bits - 1` (R100). -/
def FieldDescriptor.mask (f : FieldDescriptor) : Nat := 2 ^ f.widthBits - 1

/-- R101: fields over a word of `size` bits, with the complementary list of unallocated ranges, each `[lo, hi)`. -/
structure WordLayout where
  name : String
  size : Nat
  fields : List FieldDescriptor
  free : List (Nat × Nat)
  deriving DecidableEq, Repr

/-- Whether the range `[lo, hi)` and the field have a bit in common. -/
def FieldDescriptor.meets (f : FieldDescriptor) (lo hi : Nat) : Bool :=
  decide (max f.startBit lo < min f.stopBit hi)

/-- What is left of the range `r` when `[lo, hi)` is taken out of it: no, one or two ranges ("splitting into 0-2 residual
free ranges", R102). -/
def carveRange (lo hi : Nat) (r : Nat × Nat) : List (Nat × Nat) :=
  [(r.1, min r.2 lo), (max r.1 hi, r.2)].filter (fun q => q.1 < q.2)

/-- `add_field(layout, name, start, width)` (R102). -/
def WordLayout.addField (l : WordLayout) (name : String) (start : Int) (width : Nat) :
    Except CodecError WordLayout :=
  if start < 0 ∨ (l.size : Int) < start + width then .error .layoutError
  else if l.fields.any (fun f => f.meets start.toNat (start.toNat + width) || f.name == name) then
    .error .layoutError
  else .ok { l with
    fields := l.fields ++ [{ name := name, startBit := start.toNat, widthBits := width }]
    free := l.free.flatMap (carveRange start.toNat (start.toNat + width)) }

/-- `derive_layout(base, name, width?)` (R103). The result is a value of its own: no later `add_field` on it can change the
base. -/
def WordLayout.derive (base : WordLayout) (name : String) (width : Option Nat) :
    Except CodecError WordLayout :=
  match width with
  | none => .ok { base with name := name }
  | some w =>
    if base.fields.any (fun f => decide (w < f.stopBit)) then .error .layoutError
    else if base.size < w then
      .ok { base with name := name, size := w, free := base.free ++ [(base.size, w)] }
    else .ok { base with
      name := name
      size := w
      free := (base.free.map (fun r => (r.1, min r.2 w))).filter (fun q => q.1 < q.2) }

/-- The field of that name, if the layout has one. -/
def WordLayout.find (l : WordLayout) (name : String) : Option FieldDescriptor :=
  l.fields.find? (fun f => f.name == name)

/-- `get(instance, field) = (bits >> start_bit) & mask` (R104). -/
def WordLayout.get (l : WordLayout) (bits : Nat) (name : String) : Except CodecError Nat :=
  match l.find name with
  | none => .error .unknownFieldError
  | some f => .ok ((bits >>> f.startBit) &&& f.mask)

/-- `set(instance, field, value)`: `bits <- (bits & ~(mask << start_bit)) | (value << start_bit)`, the complement taken within
the layout's word (R105). -/
def WordLayout.set (l : WordLayout) (bits : Nat) (name : String) (value : Int) : Except CodecError Nat :=
  match l.find name with
  | none => .error .unknownFieldError
  | some f =>
    if value < 0 ∨ (f.mask : Int) < value then .error .rangeError
    else .ok ((bits &&& ((2 ^ l.size - 1) ^^^ (f.mask <<< f.startBit))) ||| (value.toNat <<< f.startBit))

/-- Sets several fields one after the other; the first failure is the result. -/
def WordLayout.setAll (l : WordLayout) (bits : Nat) : List (String × Int) → Except CodecError Nat
  | [] => .ok bits
  | (n, v) :: rest =>
    match l.set bits n v with
    | .error e => .error e
    | .ok b => l.setAll b rest

/-- How many of the fields and unallocated ranges hold bit `b`. -/
def WordLayout.holders (l : WordLayout) (b : Nat) : Nat :=
  l.fields.countP (fun f => decide (f.startBit ≤ b) && decide (b < f.stopBit)) +
    l.free.countP (fun r => decide (r.1 ≤ b) && decide (b < r.2))

/-- The invariant of R101: names are distinct, every field lies within `[0, size)`, and every bit of the word is in exactly one
field or unallocated range, no bit beyond it in any (so fields never overlap and the two lists partition the word). -/
abbrev WordLayout.wf (l : WordLayout) : Prop :=
  (l.fields.map (·.name)).Nodup ∧ (∀ f ∈ l.fields, f.stopBit ≤ l.size) ∧ (∀ r ∈ l.free, r.2 ≤ l.size) ∧
    ∀ b < l.size, l.holders b = 1

/-- The empty layout of a size: nothing allocated. -/
def WordLayout.empty (name : String) (size : Nat) : WordLayout :=
  { name := name, size := size, fields := [], free := [(0, size)] }

/-- `BASE`: only the opcode field, bits 31..26 (R103, R107). -/
def layoutBase : WordLayout :=
  { name := "BASE", size := 32, fields := [⟨"opcode", 26, 6⟩], free := [(0, 26)] }

/-- Format `N` (R108). -/
def layoutN : WordLayout :=
  { name := "N", size := 32, fields := [⟨"opcode", 26, 6⟩], free := [(0, 26)] }

/-- Format `RI` (R109). -/
def layoutRI : WordLayout :=
  { name := "RI", size := 32
    fields := [⟨"opcode", 26, 6⟩, ⟨"rd", 22, 4⟩, ⟨"rn", 18, 4⟩, ⟨"imm18", 0, 18⟩], free := [] }

/-- Format `R` (R110). -/
def layoutR : WordLayout :=
  { name := "R", size := 32
    fields := [⟨"opcode", 26, 6⟩, ⟨"rd", 22, 4⟩, ⟨"rn", 18, 4⟩, ⟨"rm", 14, 4⟩], free := [(0, 14)] }

/-- Format `J` (R111). -/
def layoutJ : WordLayout :=
  { name := "J", size := 32, fields := [⟨"opcode", 26, 6⟩, ⟨"target", 0, 26⟩], free := [] }

/-- `FLAGS`, the layout of the flags Word (spec/10_state.md R24). -/
def layoutFlags : WordLayout :=
  { name := "FLAGS", size := 32, fields := [⟨"Z", 0, 1⟩, ⟨"N", 1, 1⟩], free := [(2, 32)] }

end Sys2Proof
end

