-- ==== Sys2Proof/Syntax.lean ====
section
/-! DEFINITION. The ten instructions of EISA-D: one constructor for each row of spec/opcode_table.json (spec/30_encoding.md
R113), with the operand fields of its format (R108 to R111) as they stand in the Word, not yet extended. -/

namespace Sys2Proof

/-- The closed opcode enumeration of R113. -/
inductive Instr where
  /-- `NOP`, opcode 0, format N (R170) -/
  | nop
  /-- `LDR rd, [rn + simm]`, opcode 1, format RI (R181) -/
  | ldr (rd rn : RegNum) (imm : Imm18)
  /-- `STR rd, [rn + simm]`, opcode 2, format RI (R182); `rd` is the register stored -/
  | str (rd rn : RegNum) (imm : Imm18)
  /-- `ADDI rd, rn, simm`, opcode 3, format RI (R191) -/
  | addi (rd rn : RegNum) (imm : Imm18)
  /-- `ADD rd, rn, rm`, opcode 4, format R (R192) -/
  | add (rd rn rm : RegNum)
  /-- `SUB rd, rn, rm`, opcode 5, format R (R193) -/
  | sub (rd rn rm : RegNum)
  /-- `B target`, opcode 6, format J (R201) -/
  | b (target : Target)
  /-- `BEQ target`, opcode 7, format J (R202) -/
  | beq (target : Target)
  /-- `BNE target`, opcode 8, format J (R203) -/
  | bne (target : Target)
  /-- `HALT`, opcode 63, format N (R171) -/
  | halt
  deriving DecidableEq, Repr

end Sys2Proof
end

