-- ==== Sys2Proof/WellFormed.lean ====
section
/-! DEFINITION. Which operands an instruction may be written with. The assembly notation of spec/30_encoding.md R119 has integer
operands with ranges; `Asm` is that notation as data and `Asm.wellFormed` its range checks, each of which refuses some term. An
`Instr` carries its fields at their exact widths, so every value of the type satisfies its own check: `Instr.wellFormed` says
so field by field, in the terms of the codec's masks (R100, R105). -/

namespace Sys2Proof

/-- A line of the assembly notation of R119, its operands as written. -/
inductive Asm where
  | nop
  | ldr (rd rn : Nat) (simm : Int)
  | str (rd rn : Nat) (simm : Int)
  | addi (rd rn : Nat) (simm : Int)
  | add (rd rn rm : Nat)
  | sub (rd rn rm : Nat)
  | b (target : Nat)
  | beq (target : Nat)
  | bne (target : Nat)
  | halt
  deriving DecidableEq, Repr

/-- Registers are written `r0` to `r15` (R119). -/
abbrev Asm.regOk (r : Nat) : Bool := decide (r < 16)

/-- `-131072 <= simm <= 131071` (R119). -/
abbrev Asm.simmOk (simm : Int) : Bool := decide (-131072 ≤ simm) && decide (simm ≤ 131071)

/-- `0 <= target < 2^26` (R119). -/
abbrev Asm.targetOk (target : Nat) : Bool := decide (target < 67108864)

/-- The operand ranges of R119. -/
def Asm.wellFormed : Asm → Bool
  | .nop => true
  | .ldr rd rn simm => Asm.regOk rd && Asm.regOk rn && Asm.simmOk simm
  | .str rd rn simm => Asm.regOk rd && Asm.regOk rn && Asm.simmOk simm
  | .addi rd rn simm => Asm.regOk rd && Asm.regOk rn && Asm.simmOk simm
  | .add rd rn rm => Asm.regOk rd && Asm.regOk rn && Asm.regOk rm
  | .sub rd rn rm => Asm.regOk rd && Asm.regOk rn && Asm.regOk rm
  | .b target => Asm.targetOk target
  | .beq target => Asm.targetOk target
  | .bne target => Asm.targetOk target
  | .halt => true

/-- Each field of an instruction is at most its mask: register fields at most 15, `imm18` at most 262143, `target` below
`2^26` (R109 to R112). True of every value of the type, whose fields have these widths. -/
def Instr.wellFormed : Instr → Bool
  | .nop => true
  | .ldr rd rn imm => decide (rd.toNat ≤ 15) && decide (rn.toNat ≤ 15) && decide (imm.toNat ≤ 262143)
  | .str rd rn imm => decide (rd.toNat ≤ 15) && decide (rn.toNat ≤ 15) && decide (imm.toNat ≤ 262143)
  | .addi rd rn imm => decide (rd.toNat ≤ 15) && decide (rn.toNat ≤ 15) && decide (imm.toNat ≤ 262143)
  | .add rd rn rm => decide (rd.toNat ≤ 15) && decide (rn.toNat ≤ 15) && decide (rm.toNat ≤ 15)
  | .sub rd rn rm => decide (rd.toNat ≤ 15) && decide (rn.toNat ≤ 15) && decide (rm.toNat ≤ 15)
  | .b target => decide (target.toNat ≤ 67108863)
  | .beq target => decide (target.toNat ≤ 67108863)
  | .bne target => decide (target.toNat ≤ 67108863)
  | .halt => true

end Sys2Proof
end

