-- ==== Sys2Proof/Decode.lean ====
section
/-! DEFINITION. Decoding a Word to an instruction (spec/30_encoding.md R107, R113 to R117), total and rejecting by name, and the
encoder (R120) with its assembler front (R119). -/

namespace Sys2Proof

/-- Why a Word decodes to no instruction (R114, R116, spec/60_exceptions.md R234): the one cause there is. -/
inductive DecodeError where
  /-- the opcode field holds a value with no row in R113, 9 to 62 -/
  | unallocatedOpcode (op : Opcode)
  deriving DecidableEq, Repr

/-- `opcode(w) = w[31:26]` (R107). -/
def opcodeOf (w : Word) : Opcode := w.extractLsb' 26 6

/-- Field `rd`, bits 25..22 of formats RI and R (R109, R110). -/
def rdOf (w : Word) : RegNum := w.extractLsb' 22 4

/-- Field `rn`, bits 21..18 of formats RI and R (R109, R110). -/
def rnOf (w : Word) : RegNum := w.extractLsb' 18 4

/-- Field `rm`, bits 17..14 of format R (R110). -/
def rmOf (w : Word) : RegNum := w.extractLsb' 14 4

/-- Field `imm18`, bits 17..0 of format RI (R109). -/
def immOf (w : Word) : Imm18 := w.extractLsb' 0 18

/-- Field `target`, bits 25..0 of format J (R111). -/
def targetOf (w : Word) : Target := w.extractLsb' 0 26

/-- Decode (R114): the opcode selects the format; unallocated bits are not looked at (R115); an opcode with no row of R113 is the
one mismatch. -/
def decode (w : Word) : Except DecodeError Instr :=
  match (opcodeOf w).toNat with
  | 0 => .ok .nop
  | 1 => .ok (.ldr (rdOf w) (rnOf w) (immOf w))
  | 2 => .ok (.str (rdOf w) (rnOf w) (immOf w))
  | 3 => .ok (.addi (rdOf w) (rnOf w) (immOf w))
  | 4 => .ok (.add (rdOf w) (rnOf w) (rmOf w))
  | 5 => .ok (.sub (rdOf w) (rnOf w) (rmOf w))
  | 6 => .ok (.b (targetOf w))
  | 7 => .ok (.beq (targetOf w))
  | 8 => .ok (.bne (targetOf w))
  | 63 => .ok .halt
  | _ => .error (.unallocatedOpcode (opcodeOf w))

/-- The layout an opcode selects (R113, R114), none for a reserved opcode. -/
def layoutOf (op : Opcode) : Option WordLayout :=
  match op.toNat with
  | 0 => some layoutN
  | 1 => some layoutRI
  | 2 => some layoutRI
  | 3 => some layoutRI
  | 4 => some layoutR
  | 5 => some layoutR
  | 6 => some layoutJ
  | 7 => some layoutJ
  | 8 => some layoutJ
  | 63 => some layoutN
  | _ => none

/-- The opcode of an instruction (R113). -/
def Instr.opcode : Instr → Opcode
  | .nop => 0
  | .ldr _ _ _ => 1
  | .str _ _ _ => 2
  | .addi _ _ _ => 3
  | .add _ _ _ => 4
  | .sub _ _ _ => 5
  | .b _ => 6
  | .beq _ => 7
  | .bne _ => 8
  | .halt => 63

/-- The field values of a decoded instruction under its layout, in the layout's order: what the host reads of `decoded` (R114,
spec/45_host_operations.md R215). -/
def Instr.fieldValues (i : Instr) : List (String × Nat) :=
  ("opcode", i.opcode.toNat) ::
    match i with
    | .nop => []
    | .ldr rd rn imm => [("rd", rd.toNat), ("rn", rn.toNat), ("imm18", imm.toNat)]
    | .str rd rn imm => [("rd", rd.toNat), ("rn", rn.toNat), ("imm18", imm.toNat)]
    | .addi rd rn imm => [("rd", rd.toNat), ("rn", rn.toNat), ("imm18", imm.toNat)]
    | .add rd rn rm => [("rd", rd.toNat), ("rn", rn.toNat), ("rm", rm.toNat)]
    | .sub rd rn rm => [("rd", rd.toNat), ("rn", rn.toNat), ("rm", rm.toNat)]
    | .b target => [("target", target.toNat)]
    | .beq target => [("target", target.toNat)]
    | .bne target => [("target", target.toNat)]
    | .halt => []

/-- A Word of format N: unallocated bits zero (R108, R120). -/
def encodeN (op : Opcode) : Word := op ++ 0#26

/-- A Word of format RI (R109, R120). -/
def encodeRI (op : Opcode) (rd rn : RegNum) (imm : Imm18) : Word := op ++ (rd ++ (rn ++ imm))

/-- A Word of format R: unallocated bits zero (R110, R120). -/
def encodeR (op : Opcode) (rd rn rm : RegNum) : Word := op ++ (rd ++ (rn ++ (rm ++ 0#14)))

/-- A Word of format J (R111, R120). -/
def encodeJ (op : Opcode) (target : Target) : Word := op ++ target

/-- The Word of an instruction (R120). -/
def encode (i : Instr) : Word :=
  match i with
  | .nop => encodeN i.opcode
  | .ldr rd rn imm => encodeRI i.opcode rd rn imm
  | .str rd rn imm => encodeRI i.opcode rd rn imm
  | .addi rd rn imm => encodeRI i.opcode rd rn imm
  | .add rd rn rm => encodeR i.opcode rd rn rm
  | .sub rd rn rm => encodeR i.opcode rd rn rm
  | .b target => encodeJ i.opcode target
  | .beq target => encodeJ i.opcode target
  | .bne target => encodeJ i.opcode target
  | .halt => encodeN i.opcode

/-- `imm18 = simm mod 2^18` (R119); a displacement outside the range of R119 is a `RangeError`. -/
def Asm.imm18 (simm : Int) : Except CodecError Int :=
  if Asm.simmOk simm then .ok (simm % 262144) else .error .rangeError

/-- The fields to set for a format RI line. -/
def Asm.fieldsRI (op : Int) (rd rn : Nat) (simm : Int) : Except CodecError (List (String × Int)) :=
  match Asm.imm18 simm with
  | .error e => .error e
  | .ok v => .ok [("opcode", op), ("rd", rd), ("rn", rn), ("imm18", v)]

/-- The layout and the field values of an assembly line (the "fields set" column of R119). -/
def Asm.fields : Asm → Except CodecError (WordLayout × List (String × Int))
  | .nop => .ok (layoutN, [("opcode", 0)])
  | .ldr rd rn simm => (Asm.fieldsRI 1 rd rn simm).map (layoutRI, ·)
  | .str rd rn simm => (Asm.fieldsRI 2 rd rn simm).map (layoutRI, ·)
  | .addi rd rn simm => (Asm.fieldsRI 3 rd rn simm).map (layoutRI, ·)
  | .add rd rn rm => .ok (layoutR, [("opcode", 4), ("rd", rd), ("rn", rn), ("rm", rm)])
  | .sub rd rn rm => .ok (layoutR, [("opcode", 5), ("rd", rd), ("rn", rn), ("rm", rm)])
  | .b target => .ok (layoutJ, [("opcode", 6), ("target", target)])
  | .beq target => .ok (layoutJ, [("opcode", 7), ("target", target)])
  | .bne target => .ok (layoutJ, [("opcode", 8), ("target", target)])
  | .halt => .ok (layoutN, [("opcode", 63)])

/-- Encoding a line through the codec: "Start from the zero Word; `set` the `opcode` field ... and each field of the format to its
operand" (R120). An operand out of range fails with `RangeError`. -/
def assemble (a : Asm) : Except CodecError Word :=
  match a.fields with
  | .error e => .error e
  | .ok (l, fs) =>
    match l.setAll 0 fs with
    | .error e => .error e
    | .ok bits => .ok (BitVec.ofNat 32 bits)

/-- The instruction an assembly line stands for, its operands cut to their fields (R119). -/
def Asm.toInstr : Asm → Instr
  | .nop => .nop
  | .ldr rd rn simm => .ldr (BitVec.ofNat 4 rd) (BitVec.ofNat 4 rn) (BitVec.ofInt 18 simm)
  | .str rd rn simm => .str (BitVec.ofNat 4 rd) (BitVec.ofNat 4 rn) (BitVec.ofInt 18 simm)
  | .addi rd rn simm => .addi (BitVec.ofNat 4 rd) (BitVec.ofNat 4 rn) (BitVec.ofInt 18 simm)
  | .add rd rn rm => .add (BitVec.ofNat 4 rd) (BitVec.ofNat 4 rn) (BitVec.ofNat 4 rm)
  | .sub rd rn rm => .sub (BitVec.ofNat 4 rd) (BitVec.ofNat 4 rn) (BitVec.ofNat 4 rm)
  | .b target => .b (BitVec.ofNat 26 target)
  | .beq target => .beq (BitVec.ofNat 26 target)
  | .bne target => .bne (BitVec.ofNat 26 target)
  | .halt => .halt

/-- The instruction the decoder reads from an instruction whose bits are `w`, as spec/opcode_table.json numbers them; bits at
`nbits` and above are 0. Every instruction is one Word (R106). -/
def decodeTableWord (nbits w : Nat) : Option Instr :=
  match decode (BitVec.ofNat 32 (w % 2 ^ nbits)) with
  | .ok i => some i
  | .error _ => none

end Sys2Proof
end

