-- ==== Sys2Proof/Config.lean ====
section
/-! DEFINITION. The implementation parameters of spec/00_scope.md R6 and the constraints of R7. An instance of the core holds
its parameter values beside its state, "fixed at construction" (R219): they are the field `params` of State (assumption 1). -/

namespace Sys2Proof

/-- `RAW_POLICY` (R6, R264): what a read of a register with a pending in-flight write does. -/
inductive RawPolicy where
  /-- the read gets the old value (the default) -/
  | stale
  /-- the read stops the core with `HazardViolation` -/
  | fault
  deriving DecidableEq, Repr

/-- The open parameters of the table of R6, under the table's names. `W` and `NREGS` are fixed by the spec at 32 and 16 and
stand in the types. -/
structure Params where
  /-- `RAM_CAPACITY`: number of Words in RAM -/
  ramCapacity : Nat
  /-- `NSETS`: set count of the configured cache geometry -/
  nsets : Nat
  /-- `NWAYS`: lines per set -/
  nways : Nat
  /-- `LINE_WORDS`: Words of data per cache line -/
  lineWords : Nat
  /-- `READ_LATENCY`: latency of a read hit -/
  readLatency : Nat
  /-- `WRITE_LATENCY`: latency of a write hit -/
  writeLatency : Nat
  /-- `MISS_PENALTY`: added to the hit latency on a miss -/
  missPenalty : Nat
  /-- `RAM_LATENCY`: latency of a direct backing-store access -/
  ramLatency : Nat
  /-- `CACHE_ENABLED_AT_RESET` -/
  cacheEnabledAtReset : Bool
  /-- `OVERLAPPED_AT_RESET`: execution mode after reset, true for pipelined -/
  overlappedAtReset : Bool
  /-- `WRITE_MISS_RAM_UPDATE`: whether a write miss also writes the Word to RAM (R66) -/
  writeMissRamUpdate : Bool
  /-- `RAW_POLICY` (R264) -/
  rawPolicy : RawPolicy
  deriving DecidableEq, Repr

/-- The default column of R6. -/
def Params.defaults : Params where
  ramCapacity := 65536
  nsets := 4
  nways := 2
  lineWords := 4
  readLatency := 1
  writeLatency := 1
  missPenalty := 3
  ramLatency := 3
  cacheEnabledAtReset := true
  overlappedAtReset := true
  writeMissRamUpdate := false
  rawPolicy := .stale

/-- The legal values of R6 with the constraint of R7: RAM_CAPACITY is a multiple of LINE_WORDS. Values outside are refused at
construction (93 I23). -/
abbrev Params.legal (p : Params) : Prop :=
  1 ≤ p.ramCapacity ∧ p.ramCapacity ≤ 4294967296 ∧ p.ramCapacity % p.lineWords = 0 ∧
    1 ≤ p.nsets ∧ 1 ≤ p.nways ∧ 1 ≤ p.lineWords

end Sys2Proof
end

