-- ==== Sys2Proof/Machine/State.lean ====
section
/-! DEFINITION. The state of the EISA core as plain data: every piece of spec/10_state.md R20 to R37, and `State.reset`, the table
of R39. Names follow the spec. -/

namespace Sys2Proof.Machine

/-- The kinds of error that stop the core (spec/60_exceptions.md R230, R233). A step LATCHES one in `State.fault` and answers a next
state, because the spec gives the state after the error exactly (R148); no step answers `Host.Outcome.fault` (assumption 3).
Safe: nothing the spec lets the core do after the error is left out, since it does nothing. -/
inductive Fault where
  /-- Raised by the Fetch step and by `LDR` and `STR` in the Memory step, when an address is at or beyond RAM_CAPACITY (R56,
  R231, R232). Safe. -/
  | addressOutOfRange
  /-- Raised by the Execute step when RAW_POLICY = fault and the instruction reads the destination of the one directly before it
  (spec/70_reset_and_hazards.md R264). Safe. -/
  | hazardViolation
  deriving DecidableEq, Repr

/-- The five pipeline stages (R31). -/
inductive Stage where
  | F | D | E | M | W
  deriving DecidableEq, Repr

/-- The record `(kind, addr, stage)` of the fault latch (R30). -/
structure FaultRecord where
  kind : Fault
  addr : Word
  stage : Stage
  deriving DecidableEq, Repr

/-- Why an operation is turned away with the state unchanged. No step answers a refusal; the host operations of
Machine/HostOps.lean do, where the spec refuses the call (spec/93_implementation_defined.md I20 to I23). All safe: the spec
itself refuses. -/
inductive Refusal where
  /-- an instruction with no meaning in this model; every instruction has one, so nothing raises it -/
  | notModelled (mnemonic : String)
  /-- `set_mode` while an instruction is in flight or a stall flag is set (R213) -/
  | notDrained
  /-- `ram_write` or `load_program` after the first `advance()` (R216) -/
  | notBeforeFirstAdvance
  /-- `load_program` with more Words than RAM has (R216) -/
  | programTooLong
  /-- an address or index outside the operation's domain (R215, R216, I22) -/
  | outOfDomain
  /-- program text that is not lines of binary literals (spec/30_encoding.md R121) -/
  | malformedText
  /-- parameters outside their legal values, at construction (spec/00_scope.md R6, R7, I23) -/
  | illegalParameters
  deriving DecidableEq, Repr

/-- The general register file `x[0]` .. `x[15]` (R21). -/
abbrev RegFile := Vector Word 16

/-- RAM (R33) in canonical form: (address, Word) pairs, addresses strictly rising, no Word equal to what an unlisted address
reads as. The cells are Words because the machine has no bytes (spec/20_memory.md R51; assumption 2). -/
abbrev Memory := List (Nat × Word)

/-- What an unlisted RAM address reads as: RAM is all zero after reset (R39). -/
def Memory.unlisted : Word := 0

/-- The canonical form of RAM. -/
abbrev Memory.wf (m : Memory) : Prop :=
  m.Pairwise (fun c d => c.1 < d.1) ∧ ∀ c ∈ m, c.2 ≠ Memory.unlisted

/-- A cache line (R34). While `valid` is false the other three fields have no meaning and nothing may depend on them. -/
structure Line where
  valid : Bool
  dirty : Bool
  tag : Nat
  data : List Word
  deriving DecidableEq, Repr

/-- A line of a cold cache: invalid (R39). The values of the meaningless fields are assumption 6. -/
def Line.cold (p : Params) : Line :=
  { valid := false, dirty := false, tag := 0, data := List.replicate p.lineWords 0 }

/-- One set of the cache: its lines by way number, and `order`, the way numbers from least to most recently used (R34, R35). -/
structure CacheSet where
  lines : List Line
  order : List Nat
  deriving DecidableEq, Repr

/-- A set of a cold cache (R39): every line invalid, `order = [0, 1, ..., NWAYS-1]`. -/
def CacheSet.cold (p : Params) : CacheSet :=
  { lines := List.replicate p.nways (Line.cold p), order := List.range p.nways }

/-- What the memory subsystem owns (R40): RAM, the cache enable, the sets of the active cache (none when it is disabled, R36)
and the eviction log (R37). -/
structure MemSys where
  ram : Memory
  cacheEnabled : Bool
  sets : List CacheSet
  evictions : List (Word × List Word)
  deriving DecidableEq, Repr

/-- The instruction record (R32). `decoded` holds the field values under the opcode's layout as an `Instr` (assumption 8). -/
structure InstrRecord where
  raw : Word
  opcode : Opcode
  decoded : Option Instr
  computed : Option Word
  decodeError : Bool
  ea : Option Word
  memIssued : Bool
  memRemaining : Nat
  origin : Word
  deriving DecidableEq, Repr

/-- The content of a pipeline slot (R31): "a distinct explicit variant, not an overloaded opcode value". -/
inductive Slot where
  | bubble
  | instr (i : InstrRecord)
  deriving DecidableEq, Repr

/-- The whole state of one instance (R20 to R37), with its parameter values (spec/45_host_operations.md R219). -/
structure State where
  params : Params
  x : RegFile
  pc : Word
  sp : Word
  flags : Word
  slotF : Slot
  slotD : Slot
  slotE : Slot
  slotM : Slot
  slotW : Slot
  stalledFetch : Bool
  stalledMemory : Bool
  cycles : Nat
  overlapped : Bool
  halted : Bool
  fault : Option FaultRecord
  mem : MemSys
  deriving DecidableEq, Repr

/-- The state of R39 for an instance constructed with parameters `p`. -/
def State.resetWith (p : Params) : State where
  params := p
  x := Vector.replicate 16 0
  pc := 0
  sp := 0
  flags := 0
  slotF := .bubble
  slotD := .bubble
  slotE := .bubble
  slotM := .bubble
  slotW := .bubble
  stalledFetch := false
  stalledMemory := false
  cycles := 0
  overlapped := p.overlappedAtReset
  halted := false
  fault := none
  mem :=
    { ram := []
      cacheEnabled := p.cacheEnabledAtReset
      sets := if p.cacheEnabledAtReset then List.replicate p.nsets (CacheSet.cold p) else []
      evictions := [] }

/-- The machine right after reset, with the default parameters of R6. -/
def State.reset : State := State.resetWith Params.defaults

end Sys2Proof.Machine
end

