-- ==== Sys2Proof/Machine/Memory.lean ====
section
/-! DEFINITION. RAM as a list in canonical form (spec/10_state.md R33): reading and writing one Word, and runs of Words. -/

namespace Sys2Proof.Machine

/-- `RAM[a]`. -/
def Memory.read : Memory → Nat → Word
  | [], _ => Memory.unlisted
  | (k, v) :: rest, a => if a = k then v else Memory.read rest a

/-- `RAM[a] <- v`, keeping the canonical form: writing the Word an unlisted address reads as removes the entry. -/
def Memory.write : Memory → Nat → Word → Memory
  | [], a, v => if v = Memory.unlisted then [] else [(a, v)]
  | (k, u) :: rest, a, v =>
    if a < k then (if v = Memory.unlisted then (k, u) :: rest else (a, v) :: (k, u) :: rest)
    else if a = k then (if v = Memory.unlisted then rest else (a, v) :: rest)
    else (k, u) :: Memory.write rest a v

/-- `RAM[a + k] <- data[k]` for every Word of `data` (the loop of spec/20_memory.md R63, and `load_program`). -/
def Memory.writeAll : Memory → Nat → List Word → Memory
  | m, _, [] => m
  | m, a, v :: rest => Memory.writeAll (Memory.write m a v) (a + 1) rest

/-- The `n` Words from `a` on (the loop of a line fill, R62). -/
def Memory.readAll (m : Memory) (a n : Nat) : List Word :=
  (List.range n).map (fun k => m.read (a + k))

end Sys2Proof.Machine
end

