-- ==== Sys2Proof/Machine/Cache.lean ====
section
/-! DEFINITION. The set-associative cache of spec/20_memory.md R57 to R69. A set that is not there, in a state whose cache has
another shape than its parameters (no run reaches one), is read as empty and not written (assumption 10). -/

namespace Sys2Proof.Machine

/-- `offset(a) = a mod LINE_WORDS` (R58). -/
def offsetOf (p : Params) (a : Nat) : Nat := a % p.lineWords

/-- `block(a) = a div LINE_WORDS` (R58). -/
def blockOf (p : Params) (a : Nat) : Nat := a / p.lineWords

/-- `index(a) = block(a) mod NSETS` (R58). -/
def indexOf (p : Params) (a : Nat) : Nat := blockOf p a % p.nsets

/-- `tag(a) = block(a) div NSETS` (R58). -/
def tagOf (p : Params) (a : Nat) : Nat := blockOf p a / p.nsets

/-- `base(a) = a - offset(a)`, the address of the line's first Word (R58). -/
def baseOf (p : Params) (a : Nat) : Nat := a - offsetOf p a

/-- `lineaddr(t, s) = (t * NSETS + s) * LINE_WORDS` (R58). -/
def lineAddr (p : Params) (t s : Nat) : Nat := (t * p.nsets + s) * p.lineWords

/-- The set an index names. -/
def MemSys.cacheSet (m : MemSys) (s : Nat) : CacheSet := m.sets.getD s { lines := [], order := [] }

/-- The line of a way. -/
def CacheSet.line (c : CacheSet) (w : Nat) : Line :=
  c.lines.getD w { valid := false, dirty := false, tag := 0, data := [] }

/-- `hitway`: the way whose line is valid with that tag, if any (R59). By R68 there is at most one. -/
def CacheSet.hitWay (c : CacheSet) (tag : Nat) : Option Nat :=
  c.lines.findIdx? (fun l => l.valid && l.tag == tag)

/-- `touch(s, w)`: remove `w` from the order and append it at the end (R60). -/
def CacheSet.touch (c : CacheSet) (w : Nat) : CacheSet :=
  { c with order := c.order.filter (· != w) ++ [w] }

/-- `victim(s) = order[s][0]`, the least recently used way (R61). -/
def CacheSet.victim (c : CacheSet) : Nat := c.order.headD 0

/-- The set with the line of way `w` replaced. -/
def CacheSet.setLine (c : CacheSet) (w : Nat) (l : Line) : CacheSet :=
  { c with lines := c.lines.set w l }

/-- The memory subsystem with set `s` replaced. -/
def MemSys.setSet (m : MemSys) (s : Nat) (c : CacheSet) : MemSys :=
  { m with sets := m.sets.set s c }

/-- `writeback(addr, data)`, the eviction callback: log the call, then write the Words to RAM (R63). -/
def MemSys.writeback (m : MemSys) (addr : Nat) (data : List Word) : MemSys :=
  { m with
    evictions := m.evictions ++ [(BitVec.ofNat 32 addr, data)]
    ram := m.ram.writeAll addr data }

/-- The write-back of a victim `l` of set `s`, if it is valid and dirty (first lines of `install`, R62). -/
def MemSys.evict (m : MemSys) (p : Params) (s : Nat) (l : Line) : MemSys :=
  if l.valid && l.dirty then m.writeback (lineAddr p l.tag s) l.data else m

/-- The line that holds address `a`, loaded from RAM: valid and clean (R62). -/
def MemSys.fill (m : MemSys) (p : Params) (a : Nat) : Line :=
  { valid := true, dirty := false, tag := tagOf p a, data := m.ram.readAll (baseOf p a) p.lineWords }

/-- `install(a)` (R62): write the victim back if valid and dirty, load the line, mark it valid and clean, touch it. Answers the
way. -/
def MemSys.install (m : MemSys) (p : Params) (a : Nat) : MemSys × Nat :=
  let s := indexOf p a
  let c := m.cacheSet s
  let w := c.victim
  let m1 := m.evict p s (c.line w)
  (m1.setSet s ((c.setLine w (m1.fill p a)).touch w), w)

/-- What a read answers: the Word, the latency, and the memory subsystem after it. -/
structure ReadResult where
  word : Word
  latency : Nat
  mem : MemSys
  deriving DecidableEq, Repr

/-- What a write answers: the latency, and the memory subsystem after it. -/
structure WriteResult where
  latency : Nat
  mem : MemSys
  deriving DecidableEq, Repr

/-- The Word at offset `off` of the line of way `w` in set `s`. -/
def MemSys.lineWord (m : MemSys) (s w off : Nat) : Word := ((m.cacheSet s).line w).data.getD off 0

/-- `CacheRead(a)` (R57 for the disabled cache, R64). -/
def MemSys.cacheRead (m : MemSys) (p : Params) (a : Nat) : ReadResult :=
  if m.cacheEnabled then
    let s := indexOf p a
    match (m.cacheSet s).hitWay (tagOf p a) with
    | some w =>
      { word := m.lineWord s w (offsetOf p a)
        latency := p.readLatency
        mem := m.setSet s ((m.cacheSet s).touch w) }
    | none =>
      let r := m.install p a
      { word := r.1.lineWord s r.2 (offsetOf p a)
        latency := p.readLatency + p.missPenalty
        mem := r.1 }
  else { word := m.ram.read a, latency := p.ramLatency, mem := m }

/-- A store into a line: the Word written, the line marked dirty (R65). -/
def Line.store (l : Line) (off : Nat) (v : Word) : Line :=
  { l with data := l.data.set off v, dirty := true }

/-- The memory subsystem with the Word `v` stored into way `w` of set `s` at offset `off` (R65). -/
def MemSys.storeLine (m : MemSys) (s w off : Nat) (v : Word) : MemSys :=
  m.setSet s ((m.cacheSet s).setLine w (((m.cacheSet s).line w).store off v))

/-- `if WRITE_MISS_RAM_UPDATE: RAM[a] <- v` (R65, R66). -/
def MemSys.writeMissUpdate (m : MemSys) (p : Params) (a : Nat) (v : Word) : MemSys :=
  if p.writeMissRamUpdate then { m with ram := m.ram.write a v } else m

/-- `CacheWrite(a, v)` (R57 for the disabled cache, R65). -/
def MemSys.cacheWrite (m : MemSys) (p : Params) (a : Nat) (v : Word) : WriteResult :=
  if m.cacheEnabled then
    let s := indexOf p a
    match (m.cacheSet s).hitWay (tagOf p a) with
    | some w =>
      { latency := p.writeLatency
        mem := (m.setSet s ((m.cacheSet s).touch w)).storeLine s w (offsetOf p a) v }
    | none =>
      let r := m.install p a
      { latency := p.writeLatency + p.missPenalty
        mem := (r.1.storeLine s r.2 (offsetOf p a) v).writeMissUpdate p a v }
  else { latency := p.ramLatency, mem := { m with ram := m.ram.write a v } }

/-- `MemView(a)` (R70): the Word a load of `a` would return now. -/
def MemSys.view (m : MemSys) (p : Params) (a : Nat) : Word :=
  if m.cacheEnabled then
    match (m.cacheSet (indexOf p a)).hitWay (tagOf p a) with
    | some w => m.lineWord (indexOf p a) w (offsetOf p a)
    | none => m.ram.read a
  else m.ram.read a

/-- `disable_cache()`: the zero-set cache; all lines dropped, nothing written back (R69). -/
def MemSys.disableCache (m : MemSys) : MemSys := { m with cacheEnabled := false, sets := [] }

/-- `enable_cache()`: a cold cache of the configured geometry, also when one was enabled; nothing written back (R69). -/
def MemSys.enableCache (m : MemSys) (p : Params) : MemSys :=
  { m with cacheEnabled := true, sets := List.replicate p.nsets (CacheSet.cold p) }

end Sys2Proof.Machine
end

