-- ==== Sys2Proof/Machine/Flags.lean ====
section
/-! DEFINITION. The condition flags as one Word under the layout `FLAGS` (spec/10_state.md R24): `Z` at bit 0, `N` at bit 1, bits 31
to 2 zero. -/

namespace Sys2Proof.Machine

/-- `FLAGS.get(flags, Z)` (R24). -/
def flagZ (flags : Word) : Bool := flags.getLsbD 0

/-- `FLAGS.get(flags, N)` (R24). -/
def flagN (flags : Word) : Bool := flags.getLsbD 1

/-- `FLAGS.set(FLAGS.set(0, Z, z), N, n)`: the flags Word with these two flags and zeros above (spec/43_arithmetic.md R190). -/
def flagsWord (z n : Bool) : Word := 0#30 ++ (BitVec.ofBool n ++ BitVec.ofBool z)

/-- The flags Word of `NZ(r) = (Z: r = 0, N: r[31])` (R190). No carry, no overflow. -/
def nzFlags (r : Word) : Word := flagsWord (r == 0) (r.getLsbD 31)

/-- Bits 31 to 2 of the flags Word are zero (R24). -/
def flagsReservedZero (flags : Word) : Bool := flags >>> 2 == 0#32

end Sys2Proof.Machine
end

