-- ==== Sys2Proof/Machine/Operands.lean ====
section
/-! DEFINITION. The operand forms of spec/30_encoding.md R112 and the effective address of spec/42_load_store.md R180. There is no
other operand form (R112). -/

namespace Sys2Proof.Machine

/-- `x[i]` (spec/00_scope.md R10, spec/10_state.md R21): sixteen ordinary registers, none hardwired. -/
def RegFile.read (x : RegFile) (r : RegNum) : Word :=
  x[r.toNat]'(by have := r.isLt; omega)

/-- `x[i] <- v` (R10, R21). -/
def RegFile.write (x : RegFile) (r : RegNum) (v : Word) : RegFile :=
  x.set r.toNat v (by have := r.isLt; omega)

/-- `simm = sext_32(imm18)` (R112 (a), spec/00_scope.md R9): two's complement, not scaled. -/
def signedImm (imm : Imm18) : Word := imm.signExtend 32

/-- `zext_32(target)`: an absolute word address (R112 (b)). -/
def branchTarget (t : Target) : Word := t.setWidth 32

/-- `ea = (x[rn] + sext_32(imm18)) mod 2^32` (R180). -/
def effectiveAddress (x : RegFile) (rn : RegNum) (imm : Imm18) : Word :=
  RegFile.read x rn + signedImm imm

end Sys2Proof.Machine
end

