-- ==== Sys2Proof/Machine/Ops.lean ====
section
/-! DEFINITION. The shared operations: `MemRead` and `MemWrite` (spec/20_memory.md R56), taking an error (spec/60_exceptions.md
R233), the template of an instruction (spec/00_scope.md R11, spec/40_pipeline_engine.md R154), and the whole of an instruction
run at once (R149). -/

namespace Sys2Proof.Machine

/-- `MemRead(addr)` (R56): the range check first, before any cache action. -/
def memRead (p : Params) (m : MemSys) (addr : Word) : Except Fault ReadResult :=
  if p.ramCapacity ≤ addr.toNat then .error .addressOutOfRange else .ok (m.cacheRead p addr.toNat)

/-- `MemWrite(addr, v)` (R56): the range check first, before any cache action. -/
def memWrite (p : Params) (m : MemSys) (addr v : Word) : Except Fault WriteResult :=
  if p.ramCapacity ≤ addr.toNat then .error .addressOutOfRange else .ok (m.cacheWrite p addr.toNat v)

/-- TAKING AN ERROR (R148, R233): the one effect is that the latch `fault` gets the record `(kind, addr, stage)`. There is no
handler, no saved pc, no mode change (R239). There is no return either: only reset clears the latch (R240, R30). -/
def State.raise (s : State) (f : FaultRecord) : State := { s with fault := some f }

/-- What `Exec(i)` writes (R154): `computed`, `ea`, the flags, and the redirection it returns; `none` where it writes nothing. By
its type `Exec` changes no other state (R135). -/
structure ExecOut where
  computed : Option Word
  ea : Option Word
  flags : Option Word
  redirect : Option Word
  deriving DecidableEq, Repr

/-- `Exec` that does nothing and returns `none` (R154, rows NOP, HALT, inert). -/
def ExecOut.nothing : ExecOut := { computed := none, ea := none, flags := none, redirect := none }

/-- What `MemOp(i)` answers (R154): `computed` after it, the latency (0 with no memory operation), the memory subsystem. -/
structure MemOut where
  computed : Option Word
  latency : Nat
  mem : MemSys
  deriving DecidableEq, Repr

/-- What `Retire(i)` does (R132): "The only state `Retire` can change is one general register or the `halted` latch". -/
structure RetireOut where
  write : Option (RegNum × Word)
  halts : Bool
  deriving DecidableEq, Repr

/-- `Retire` that does nothing. -/
def RetireOut.nothing : RetireOut := { write := none, halts := false }

/-- The template every instruction rule follows (R11, R154): `Src`, `Dest`, and the three functions `Exec` (of the registers and
the flags Word), `MemOp` (of the memory subsystem, `ea` and `computed`) and `Retire` (of `computed`). -/
structure InstrStages where
  src : List RegNum
  dest : Option RegNum
  exec : RegFile → Word → ExecOut
  memOp : Params → MemSys → Option Word → Option Word → Except FaultRecord MemOut
  retire : Option Word → RetireOut

/-- `MemOp` of an instruction with no memory operation: latency 0, nothing changed (R154). -/
def noMemOp (_ : Params) (m : MemSys) (_ computed : Option Word) : Except FaultRecord MemOut :=
  .ok { computed := computed, latency := 0, mem := m }

/-- `Retire` of an instruction with destination `rd`: `x[rd] <- computed`, "commit computed value to its destination register if
any" (R132). -/
def retireTo (rd : RegNum) (computed : Option Word) : RetireOut :=
  { write := computed.map (fun v => (rd, v)), halts := false }

/-- `Retire` that does nothing (R154). -/
def noRetire (_ : Option Word) : RetireOut := RetireOut.nothing

/-- An inert instruction, one whose decode failed (R143; the last row of R154). -/
def inertStages : InstrStages where
  src := []
  dest := none
  exec := fun _ _ => ExecOut.nothing
  memOp := noMemOp
  retire := noRetire

/-- What `Exec` wrote, applied to the flags and the pc: the flags if it wrote them, `pc <- t` on `redirect(t)` (R135). -/
def State.applyExec (s : State) (e : ExecOut) : State :=
  { s with flags := e.flags.getD s.flags, pc := e.redirect.getD s.pc }

/-- What `Retire` does, applied: the register write, and `halted <- true` (R132, R171). -/
def State.applyRetire (s : State) (r : RetireOut) : State :=
  { s with
    x := match r.write with
      | some (rd, v) => RegFile.write s.x rd v
      | none => s.x
    halted := s.halted || r.halts }

/-- The whole of an instruction at once, from its Execute on (the lines of `advance_sequential` after Decode, R149): `Exec`,
redirect, `MemOp`, `Retire`, and `cycles <- cycles + 5 + L` (R150). If `MemOp` raises, pc and flags stay as written, nothing
retires and `cycles` does not count. -/
def runWhole (f : InstrStages) (s : State) : Host.Outcome State Fault Refusal :=
  let e := f.exec s.x s.flags
  let s1 := s.applyExec e
  match f.memOp s.params s.mem e.ea e.computed with
  | .error r => .next (s1.raise r)
  | .ok m =>
    let s2 := { s1 with mem := m.mem }.applyRetire (f.retire m.computed)
    .next { s2 with cycles := s2.cycles + 5 + m.latency }

/-- An inert instruction at once (R143, R149): it costs five cycle units (R234). -/
def execInert (s : State) : Host.Outcome State Fault Refusal := runWhole inertStages s

end Sys2Proof.Machine
end

