-- ==== Sys2Proof/Machine/Arithmetic.lean ====
section
/-! DEFINITION. ADDI, ADD and SUB (spec/43_arithmetic.md): arithmetic modulo 2^32, flags from the result, nothing raised. -/

namespace Sys2Proof.Machine

/-- What `Exec` of an arithmetic instruction writes for the result `r`: `computed <- r`, `flags <- NZ(r)` (R190). -/
def ExecOut.result (r : Word) : ExecOut :=
  { computed := some r, ea := none, flags := some (nzFlags r), redirect := none }

/-- `ADDI rd, rn, imm` (R191). -/
def addiStages (rd rn : RegNum) (imm : Imm18) : InstrStages where
  src := [rn]
  dest := some rd
  exec := fun x _ => ExecOut.result (RegFile.read x rn + signedImm imm)
  memOp := noMemOp
  retire := retireTo rd

/-- `ADD rd, rn, rm` (R192). -/
def addStages (rd rn rm : RegNum) : InstrStages where
  src := [rn, rm]
  dest := some rd
  exec := fun x _ => ExecOut.result (RegFile.read x rn + RegFile.read x rm)
  memOp := noMemOp
  retire := retireTo rd

/-- `SUB rd, rn, rm`: `rn` minus `rm` (R193). -/
def subStages (rd rn rm : RegNum) : InstrStages where
  src := [rn, rm]
  dest := some rd
  exec := fun x _ => ExecOut.result (RegFile.read x rn - RegFile.read x rm)
  memOp := noMemOp
  retire := retireTo rd

/-- `ADDI` run whole (R191, R149). -/
def execAddi (rd rn : RegNum) (imm : Imm18) (s : State) : Host.Outcome State Fault Refusal :=
  runWhole (addiStages rd rn imm) s

/-- `ADD` run whole (R192, R149). -/
def execAdd (rd rn rm : RegNum) (s : State) : Host.Outcome State Fault Refusal :=
  runWhole (addStages rd rn rm) s

/-- `SUB` run whole (R193, R149). -/
def execSub (rd rn rm : RegNum) (s : State) : Host.Outcome State Fault Refusal :=
  runWhole (subStages rd rn rm) s

end Sys2Proof.Machine
end

