-- ==== Sys2Proof/Machine/Branch.lean ====
section
/-! DEFINITION. B, BEQ and BNE (spec/44_branch.md): absolute targets, resolved in Execute; the engine writes pc and squashes (R200). -/

namespace Sys2Proof.Machine

/-- What `Exec` of a branch returns: `redirect(zext_32(target))` when taken, else `none` (R200). -/
def ExecOut.branch (taken : Bool) (t : Target) : ExecOut :=
  { computed := none
    ea := none
    flags := none
    redirect := if taken then some (branchTarget t) else none }

/-- `B target` (R201). -/
def bStages (t : Target) : InstrStages where
  src := []
  dest := none
  exec := fun _ _ => ExecOut.branch true t
  memOp := noMemOp
  retire := noRetire

/-- `BEQ target`: taken when `Z = 1` (R202). -/
def beqStages (t : Target) : InstrStages where
  src := []
  dest := none
  exec := fun _ flags => ExecOut.branch (flagZ flags) t
  memOp := noMemOp
  retire := noRetire

/-- `BNE target`: taken when `Z = 0` (R203). -/
def bneStages (t : Target) : InstrStages where
  src := []
  dest := none
  exec := fun _ flags => ExecOut.branch (!flagZ flags) t
  memOp := noMemOp
  retire := noRetire

/-- `B` run whole (R201, R149). -/
def execB (t : Target) (s : State) : Host.Outcome State Fault Refusal := runWhole (bStages t) s

/-- `BEQ` run whole (R202, R149). -/
def execBeq (t : Target) (s : State) : Host.Outcome State Fault Refusal := runWhole (beqStages t) s

/-- `BNE` run whole (R203, R149). -/
def execBne (t : Target) (s : State) : Host.Outcome State Fault Refusal := runWhole (bneStages t) s

end Sys2Proof.Machine
end

