-- ==== Sys2Proof/Machine/LoadStore.lean ====
section
/-! DEFINITION. LDR and STR (spec/42_load_store.md). The address is computed in Execute and checked only when the access is issued
(R180). An address or store datum that a record lacks (no run reaches one) means no memory operation (assumption 9). -/

namespace Sys2Proof.Machine

/-- `MemOp` of `LDR`: `(v, L) <- MemRead(ea)`, `computed <- v`, return `L` (R181); out of range it raises
`AddressOutOfRange(ea)` in stage M (spec/60_exceptions.md R232). -/
def loadMemOp (p : Params) (m : MemSys) (ea computed : Option Word) : Except FaultRecord MemOut :=
  match ea with
  | none => noMemOp p m ea computed
  | some a =>
    match memRead p m a with
    | .error k => .error { kind := k, addr := a, stage := .M }
    | .ok r => .ok { computed := some r.word, latency := r.latency, mem := r.mem }

/-- `MemOp` of `STR`: `MemWrite(ea, computed)` (R182); out of range it raises `AddressOutOfRange(ea)` in stage M (R232). -/
def storeMemOp (p : Params) (m : MemSys) (ea computed : Option Word) : Except FaultRecord MemOut :=
  match ea, computed with
  | some a, some v =>
    match memWrite p m a v with
    | .error k => .error { kind := k, addr := a, stage := .M }
    | .ok r => .ok { computed := some v, latency := r.latency, mem := r.mem }
  | _, _ => noMemOp p m ea computed

/-- `LDR rd, [rn + imm]` (R181). -/
def ldrStages (rd rn : RegNum) (imm : Imm18) : InstrStages where
  src := [rn]
  dest := some rd
  exec := fun x _ =>
    { computed := none, ea := some (effectiveAddress x rn imm), flags := none, redirect := none }
  memOp := loadMemOp
  retire := retireTo rd

/-- `STR rd, [rn + imm]` (R182): the store datum is captured in Execute. -/
def strStages (rd rn : RegNum) (imm : Imm18) : InstrStages where
  src := [rn, rd]
  dest := none
  exec := fun x _ =>
    { computed := some (RegFile.read x rd)
      ea := some (effectiveAddress x rn imm)
      flags := none
      redirect := none }
  memOp := storeMemOp
  retire := noRetire

/-- `LDR` run whole (R181, R149). -/
def execLdr (rd rn : RegNum) (imm : Imm18) (s : State) : Host.Outcome State Fault Refusal :=
  runWhole (ldrStages rd rn imm) s

/-- `STR` run whole (R182, R149). -/
def execStr (rd rn : RegNum) (imm : Imm18) (s : State) : Host.Outcome State Fault Refusal :=
  runWhole (strStages rd rn imm) s

end Sys2Proof.Machine
end

