-- ==== Sys2Proof/Machine/System.lean ====
section
/-! DEFINITION. NOP and HALT (spec/41_system.md). -/

namespace Sys2Proof.Machine

/-- `NOP` (R170): nothing in any stage. -/
def nopStages : InstrStages where
  src := []
  dest := none
  exec := fun _ _ => ExecOut.nothing
  memOp := noMemOp
  retire := noRetire

/-- `HALT` (R171): no effect before Writeback; `Retire` sets `halted`. -/
def haltStages : InstrStages where
  src := []
  dest := none
  exec := fun _ _ => ExecOut.nothing
  memOp := noMemOp
  retire := fun _ => { write := none, halts := true }

/-- `NOP` run whole (R170, R149). -/
def execNop (s : State) : Host.Outcome State Fault Refusal := runWhole nopStages s

/-- `HALT` run whole (R171, R149). -/
def execHalt (s : State) : Host.Outcome State Fault Refusal := runWhole haltStages s

end Sys2Proof.Machine
end

