-- ==== Sys2Proof/Machine/Dispatch.lean ====
section
/-! DEFINITION. The meaning of an instruction run whole, from its Execute on, with pc already past it: what sequential mode does with
a decoded instruction (spec/40_pipeline_engine.md R149, "direct interpretation" R151). -/

namespace Sys2Proof.Machine

def exec (i : Instr) (s : State) : Host.Outcome State Fault Refusal :=
  match i with
  | .nop => Sys2Proof.Machine.execNop s
  | .ldr rd rn imm => Sys2Proof.Machine.execLdr rd rn imm s
  | .str rd rn imm => Sys2Proof.Machine.execStr rd rn imm s
  | .addi rd rn imm => Sys2Proof.Machine.execAddi rd rn imm s
  | .add rd rn rm => Sys2Proof.Machine.execAdd rd rn rm s
  | .sub rd rn rm => Sys2Proof.Machine.execSub rd rn rm s
  | .b target => Sys2Proof.Machine.execB target s
  | .beq target => Sys2Proof.Machine.execBeq target s
  | .bne target => Sys2Proof.Machine.execBne target s
  | .halt => Sys2Proof.Machine.execHalt s

end Sys2Proof.Machine
end

