-- ==== Sys2Proof/Machine/Engine.lean ====
section
/-! DEFINITION. The pipeline engine of spec/40_pipeline_engine.md: the five steps of an advance in pipelined mode, the advance in
sequential mode, and `advance()` itself. -/

namespace Sys2Proof.Machine

/-- The row of R154 of each instruction. -/
def stagesOf : Instr → InstrStages
  | .nop => nopStages
  | .ldr rd rn imm => ldrStages rd rn imm
  | .str rd rn imm => strStages rd rn imm
  | .addi rd rn imm => addiStages rd rn imm
  | .add rd rn rm => addStages rd rn rm
  | .sub rd rn rm => subStages rd rn rm
  | .b t => bStages t
  | .beq t => beqStages t
  | .bne t => bneStages t
  | .halt => haltStages

/-- The decoded instruction of an effective record, none for an inert one (R143). -/
def InstrRecord.effective (r : InstrRecord) : Option Instr := if r.decodeError then none else r.decoded

/-- The stage functions a record is processed with: its instruction's, or those of an inert instruction (R143). -/
def InstrRecord.stages (r : InstrRecord) : InstrStages :=
  match r.effective with
  | some i => stagesOf i
  | none => inertStages

/-- `NewInstruction(w, a)` (R142). -/
def newInstruction (w a : Word) : InstrRecord where
  raw := w
  opcode := opcodeOf w
  decoded := none
  computed := none
  decodeError := false
  ea := none
  memIssued := false
  memRemaining := 0
  origin := a

/-- `Decode(i)` (spec/30_encoding.md R114): the field values under the opcode's layout, or `decode_error <- 1`. -/
def InstrRecord.decodeStep (r : InstrRecord) : InstrRecord :=
  match decode r.raw with
  | .ok i => { r with decoded := some i }
  | .error _ => { r with decodeError := true }

/-- Step 1, Writeback (R132): retire the occupying instruction; the slot empties. -/
def step1Writeback (s : State) : State :=
  match s.slotW with
  | .bubble => s
  | .instr r => { s.applyRetire (r.stages.retire r.computed) with slotW := .bubble }

/-- The issue of the memory operation, the first time the Memory step processes the instruction (first three lines of R133): the
record with `mem_remaining` and `mem_issued` set, and the memory subsystem after the access. -/
def issueMem (p : Params) (m : MemSys) (r : InstrRecord) : Except FaultRecord (InstrRecord × MemSys) :=
  if r.memIssued then .ok (r, m)
  else
    match r.stages.memOp p m r.ea r.computed with
    | .error f => .error f
    | .ok o =>
      .ok ({ r with computed := o.computed, memIssued := true, memRemaining := o.latency }, o.mem)

/-- Both stall flags, always written together (R133, R141). -/
def State.setStall (s : State) (b : Bool) : State := { s with stalledMemory := b, stalledFetch := b }

/-- Step 2, Memory (R133): issue the access once, hold the instruction while latency remains, else move it to Writeback. -/
def step2Memory (s : State) : Except FaultRecord State :=
  match s.slotM with
  | .bubble => .ok { s.setStall false with slotW := .bubble, slotM := .bubble }
  | .instr r =>
    match issueMem s.params s.mem r with
    | .error f => .error f
    | .ok (r1, m) =>
      if 1 < r1.memRemaining then
        .ok { s.setStall true with
          mem := m
          slotM := .instr { r1 with memRemaining := r1.memRemaining - 1 } }
      else
        .ok { s.setStall false with
          mem := m
          slotW := .instr { r1 with memRemaining := 0 }
          slotM := .bubble }

/-- The test of R264: RAW_POLICY is `fault`, and `slot[W]`, as step 2 left it, holds an effective instruction whose `Dest` is in
`Src(i)`. -/
def rawHazard (s : State) (r : InstrRecord) : Bool :=
  s.params.rawPolicy == .fault &&
    match s.slotW with
    | .bubble => false
    | .instr p =>
      match p.stages.dest with
      | none => false
      | some d => r.stages.src.contains d

/-- The record after `Exec`: the fields it wrote (R154). -/
def InstrRecord.afterExec (r : InstrRecord) (e : ExecOut) : InstrRecord :=
  { r with computed := e.computed.or r.computed, ea := e.ea.or r.ea }

/-- Step 3, Execute (R135): held while Memory stalls; otherwise `Exec`, the redirect with its squash of `slot[D]` (R146), and the
move to `slot[M]`. -/
def step3Execute (s : State) : Except FaultRecord State :=
  if s.stalledMemory then .ok s
  else
    match s.slotE with
    | .bubble => .ok { s with slotM := .bubble, slotE := .bubble }
    | .instr r =>
      if rawHazard s r then .error { kind := .hazardViolation, addr := r.origin, stage := .E }
      else
        let e := r.stages.exec s.x s.flags
        .ok { s.applyExec e with
          slotD := if e.redirect.isSome then .bubble else s.slotD
          slotM := .instr (r.afterExec e)
          slotE := .bubble }

/-- Step 4, Decode (R136). -/
def step4Decode (s : State) : State :=
  if s.stalledMemory then s
  else
    { s with
      slotE := match s.slotD with
        | .bubble => .bubble
        | .instr r => .instr r.decodeStep
      slotD := .bubble }

/-- The fetch of the Word at pc, common to both modes: `MemRead(pc)`, the latency discarded, and `pc <- (pc + 1) mod 2^32` (R137,
R149). Out of range it raises `AddressOutOfRange(pc)` in stage F (spec/60_exceptions.md R231). -/
def fetchWord (s : State) : Except FaultRecord (Word × State) :=
  match memRead s.params s.mem s.pc with
  | .error k => .error { kind := k, addr := s.pc, stage := .F }
  | .ok r => .ok (r.word, { s with mem := r.mem, pc := s.pc + 1 })

/-- Step 5, Fetch (R137): the fetched instruction moves straight into `slot[D]` (R139). -/
def step5Fetch (s : State) : Except FaultRecord State :=
  if s.stalledFetch then .ok { s with slotF := .bubble }
  else
    match fetchWord s with
    | .error f => .error f
    | .ok (w, s1) => .ok { s1 with slotD := .instr (newInstruction w s.pc), slotF := .bubble }

/-- One advance in pipelined mode (R131): the five steps, oldest instruction first, then the cycle count (R140). A step that raises
ends the advance: what the earlier steps did stays, the later steps are not performed, `cycles` does not count (R148). -/
def advancePipelined (s : State) : State :=
  let s1 := step1Writeback s
  match step2Memory s1 with
  | .error f => s1.raise f
  | .ok s2 =>
    match step3Execute s2 with
    | .error f => s2.raise f
    | .ok s3 =>
      let s4 := step4Decode s3
      match step5Fetch s4 with
      | .error f => s4.raise f
      | .ok s5 => { s5 with cycles := s5.cycles + 1 }

/-- One advance in sequential mode (R149): one whole instruction. -/
def advanceSequential (s : State) : Host.Outcome State Fault Refusal :=
  match fetchWord s with
  | .error f => .next (s.raise f)
  | .ok (w, s1) =>
    match decode w with
    | .ok i => exec i s1
    | .error _ => execInert s1

/-- Whether the core has stopped: `halted` or `fault != none` (R130). -/
def State.stopped (s : State) : Bool := s.halted || s.fault.isSome

/-- `advance()` (R130): nothing at all once the core has stopped. -/
def advance (s : State) : Host.Outcome State Fault Refusal :=
  if s.stopped then .next s
  else if s.overlapped then .next (advancePipelined s)
  else advanceSequential s

/-- RAM and any cached copy of address `a` made to hold `v`, so that the next fetch from `a` reads it whatever the cache holds. -/
def MemSys.place (m : MemSys) (p : Params) (a : Nat) (v : Word) : MemSys :=
  let m1 := { m with ram := m.ram.write a v }
  match (m1.cacheSet (indexOf p a)).hitWay (tagOf p a) with
  | none => m1
  | some w =>
    let c := m1.cacheSet (indexOf p a)
    m1.setSet (indexOf p a)
      (c.setLine w { c.line w with data := (c.line w).data.set (offsetOf p a) v })

/-- The Word `v` placed where the next fetch reads, in an instance that the next advance runs it in: sequential mode (in which one
advance is one whole instruction), the pipeline drained and the core not stopped (assumption 5). A pc at or beyond RAM_CAPACITY
has no Word to place: memory is then left as it is. -/
def State.placeForFetch (s : State) (v : Word) : State :=
  { s with
    overlapped := false
    slotF := .bubble
    slotD := .bubble
    slotE := .bubble
    slotM := .bubble
    slotW := .bubble
    stalledFetch := false
    stalledMemory := false
    halted := false
    fault := none
    mem := if s.pc.toNat < s.params.ramCapacity then s.mem.place s.params s.pc.toNat v else s.mem }

end Sys2Proof.Machine
end

