-- ==== Sys2Proof/Machine/Step.lean ====
section
/-! DEFINITION. One step of the machine is one `advance()` (spec/00_scope.md R5), and the placing of an instruction for the host's
questions. -/

namespace Sys2Proof.Machine

/-- One step: one call of `advance()` (spec/40_pipeline_engine.md R130). -/
def step (s : State) : Host.Outcome State Fault Refusal := advance s

/-- `s` with the Word `w` (its bits at `nbits` and above zero) stored where the next step fetches and runs it (assumption 5). -/
def State.withFetchWord (s : State) (nbits w : Nat) : State :=
  s.placeForFetch (BitVec.ofNat 32 (w % 2 ^ nbits))

end Sys2Proof.Machine
end

