-- ==== Sys2Proof/Machine/HostOps.lean ====
section
/-! DEFINITION. What the host may do between two advances (spec/45_host_operations.md R210 to R219), with the status of `advance()`
(spec/40_pipeline_engine.md R152) and the program text format (spec/30_encoding.md R121). An operation the spec refuses answers
a refusal, and the state is then unchanged because there is no next state. -/

namespace Sys2Proof.Machine

/-- The state after one `advance()`. A step always answers a next state. -/
def State.advanced (s : State) : State :=
  match step s with
  | .next t => t
  | .fault _ => s
  | .refused _ => s

/-- `reset()`, and construction with the same parameters (R218, spec/70_reset_and_hazards.md R260): nothing survives but the
parameter values (R219). -/
def State.doReset (s : State) : State := State.resetWith s.params

/-- Construction of an instance: illegal parameter values are refused (spec/93_implementation_defined.md I23). -/
def construct (p : Params) : Host.Outcome State Fault Refusal :=
  if p.legal then .next (State.resetWith p) else .refused .illegalParameters

/-! ### The status of an advance -/

/-- The record `advance()` returns (R152). -/
structure Status where
  performed : Bool
  retired : Option InstrRecord
  decodeErrors : List InstrRecord
  error : Option FaultRecord
  halted : Bool
  deriving DecidableEq, Repr

/-- The instruction record of a slot, if it holds one. -/
def Slot.record : Slot → Option InstrRecord
  | .bubble => none
  | .instr r => some r

/-- The records on which step 4 of a pipelined advance from `s` records a `DecodeError`: at most one, and none when the advance ends
before step 4 or Memory stalls (R136, R148, R152). -/
def pipelinedDecodeErrors (s : State) : List InstrRecord :=
  match step2Memory (step1Writeback s) with
  | .error _ => []
  | .ok s2 =>
    match step3Execute s2 with
    | .error _ => []
    | .ok s3 =>
      if s3.stalledMemory then []
      else
        match s3.slotD with
        | .bubble => []
        | .instr r => if r.decodeStep.decodeError then [r.decodeStep] else []

/-- The record an advance in sequential mode forms and decodes, if its fetch does not raise (R149). -/
def sequentialDecoded (s : State) : Option InstrRecord :=
  match fetchWord s with
  | .error _ => none
  | .ok (w, _) => some (newInstruction w s.pc).decodeStep

/-- The record an advance in sequential mode retires, with what `Exec` and `MemOp` wrote on it; none when the fetch or `MemOp`
raises (R149). -/
def sequentialRetired (s : State) : Option InstrRecord :=
  match fetchWord s, sequentialDecoded s with
  | .ok (_, s1), some r =>
    let r1 := r.afterExec (r.stages.exec s1.x s1.flags)
    match r1.stages.memOp s1.params s1.mem r1.ea r1.computed with
    | .error _ => none
    | .ok o => some { r1 with computed := o.computed }
  | _, _ => none

/-- The status `advance()` returns when called in state `s` (R152), as a function of the states before and after. -/
def State.advanceStatus (s : State) : Status :=
  if s.stopped then
    { performed := false, retired := none, decodeErrors := [], error := none, halted := s.halted }
  else
    { performed := true
      retired := if s.overlapped then s.slotW.record else sequentialRetired s
      decodeErrors :=
        if s.overlapped then pipelinedDecodeErrors s
        else (sequentialDecoded s).toList.filter (·.decodeError)
      error := s.advanced.fault
      halted := s.advanced.halted }

/-! ### Driving the core -/

/-- `cycle(n)`: `advance()` called `n` times, with the list of the `n` statuses (R211). -/
def cycle : Nat → State → List Status × State
  | 0, s => ([], s)
  | n + 1, s =>
    let r := cycle n s.advanced
    (s.advanceStatus :: r.1, r.2)

/-- What `run_to_completion` returns (R212). -/
inductive RunResult where
  | completed
  | faulted (f : FaultRecord)
  | cycleLimitExceeded
  deriving DecidableEq, Repr

/-- The loop of R212: the three tests before each `advance()`, in that order. `fuel` bounds the number of advances. -/
def runLoop (c0 K : Nat) (fuel : Nat) (s : State) : RunResult × State :=
  match s.fault with
  | some f => (.faulted f, s)
  | none =>
    if s.halted then (.completed, s)
    else if K ≤ s.cycles - c0 then (.cycleLimitExceeded, s)
    else
      match fuel with
      | 0 => (.cycleLimitExceeded, s)
      | n + 1 => runLoop c0 K n s.advanced

/-- `run_to_completion(K)` (R212). Every advance that does not stop the core adds at least 1 to `cycles` (R140, R150), so `K`
advances are enough and the fuel never ends the loop. -/
def runToCompletion (K : Nat) (s : State) : RunResult × State := runLoop s.cycles K K s

/-! ### Toggles -/

/-- The pipeline is drained: all five slots are bubbles and both stall flags are false (R213). -/
def State.drained (s : State) : Bool :=
  s.slotF == .bubble && s.slotD == .bubble && s.slotE == .bubble && s.slotM == .bubble &&
    s.slotW == .bubble && !s.stalledFetch && !s.stalledMemory

/-- `set_mode(b)` (R213). -/
def State.setMode (s : State) (b : Bool) : Host.Outcome State Fault Refusal :=
  if s.drained then .next { s with overlapped := b } else .refused .notDrained

/-- `enable_cache()` (R214, spec/20_memory.md R69). -/
def State.enableCache (s : State) : State := { s with mem := s.mem.enableCache s.params }

/-- `disable_cache()` (R214, R69). -/
def State.disableCache (s : State) : State := { s with mem := s.mem.disableCache }

/-! ### Loading a program -/

/-- "the cache holds nothing": no line is valid (R216). -/
def MemSys.cold (m : MemSys) : Bool := m.sets.all (fun c => c.lines.all (fun l => !l.valid))

/-- Before the first `advance()` after reset: `cycles = 0`, all slots bubbles, cache empty (R216), and no fault latched: an
advance that an error stops does not count in `cycles` (R148), so a first advance can leave the other three as they were
(assumption 16). -/
def State.beforeFirstAdvance (s : State) : Bool :=
  s.cycles == 0 && s.fault.isNone && s.slotF == .bubble && s.slotD == .bubble && s.slotE == .bubble &&
    s.slotM == .bubble && s.slotW == .bubble && s.mem.cold

/-- `ram_write(a, v)` (R216). -/
def State.ramWrite (s : State) (a : Nat) (v : Word) : Host.Outcome State Fault Refusal :=
  if !s.beforeFirstAdvance then .refused .notBeforeFirstAdvance
  else if s.params.ramCapacity ≤ a then .refused .outOfDomain
  else .next { s with mem := { s.mem with ram := s.mem.ram.write a v } }

/-- `load_program(ws)`: the program written into RAM from address 0; a list longer than RAM is refused whole (R216). -/
def State.loadProgram (s : State) (ws : List Word) : Host.Outcome State Fault Refusal :=
  if !s.beforeFirstAdvance then .refused .notBeforeFirstAdvance
  else if s.params.ramCapacity < ws.length then .refused .programTooLong
  else .next { s with mem := { s.mem with ram := s.mem.ram.writeAll 0 ws } }

/-- Leading and trailing whitespace of a line of program text: space, tab, carriage return, form feed, vertical tab (assumption 12). -/
def isBlank (c : Char) : Bool :=
  c.toNat == 32 || c.toNat == 9 || c.toNat == 13 || c.toNat == 12 || c.toNat == 11

/-- A line with its leading and trailing whitespace taken off. -/
def trimLine (l : List Char) : List Char :=
  ((l.dropWhile isBlank).reverse.dropWhile isBlank).reverse

/-- The number a list of binary digits denotes, most significant first, on top of `acc`; none at any other character. -/
def binaryValue : List Char → Nat → Option Nat
  | [], acc => some acc
  | c :: rest, acc =>
    if c == '0' then binaryValue rest (2 * acc)
    else if c == '1' then binaryValue rest (2 * acc + 1)
    else none

/-- The Word of one line of program text: after trimming, 1 to 32 binary digits (R121). -/
def parseLine (l : List Char) : Option Word :=
  let t := trimLine l
  if 1 ≤ t.length ∧ t.length ≤ 32 then (binaryValue t 0).map (BitVec.ofNat 32) else none

/-- The Words of program text, one instruction per line; any other line makes the text refused (R121). -/
def parseProgram (lines : List (List Char)) : Option (List Word) := lines.mapM parseLine

/-- Loading program text: parse it, then `load_program` (R121, R216). -/
def State.loadText (s : State) (lines : List (List Char)) : Host.Outcome State Fault Refusal :=
  match parseProgram lines with
  | none => .refused .malformedText
  | some ws => s.loadProgram ws

/-! ### Read-only accessors (R215); an argument outside the domain is refused (I22) -/

/-- `ram(a)`: the raw backing-store Word. -/
def State.hostRam (s : State) (a : Nat) : Except Refusal Word :=
  if a < s.params.ramCapacity then .ok (s.mem.ram.read a) else .error .outOfDomain

/-- `cache_line(s, w)`; with the cache disabled there are no lines. -/
def State.hostCacheLine (s : State) (set way : Nat) : Except Refusal Line :=
  match s.mem.sets[set]? with
  | none => .error .outOfDomain
  | some c =>
    match c.lines[way]? with
    | none => .error .outOfDomain
    | some l => .ok l

/-- `cache_order(s)`. -/
def State.hostCacheOrder (s : State) (set : Nat) : Except Refusal (List Nat) :=
  match s.mem.sets[set]? with
  | none => .error .outOfDomain
  | some c => .ok c.order

/-- `cache_enabled()`. -/
def State.hostCacheEnabled (s : State) : Bool := s.mem.cacheEnabled

/-- `mem_view(a)`: what a load would return. -/
def State.hostMemView (s : State) (a : Nat) : Except Refusal Word :=
  if a < s.params.ramCapacity then .ok (s.mem.view s.params a) else .error .outOfDomain

/-- `reg(k)`. -/
def State.hostReg (s : State) (k : Nat) : Except Refusal Word :=
  if h : k < 16 then .ok (s.x[k]) else .error .outOfDomain

/-- `pc()`. -/
def State.hostPc (s : State) : Word := s.pc

/-- `sp()`. -/
def State.hostSp (s : State) : Word := s.sp

/-- `flags()`. -/
def State.hostFlags (s : State) : Word := s.flags

/-- `slot(st)`. -/
def State.hostSlot (s : State) : Stage → Slot
  | .F => s.slotF
  | .D => s.slotD
  | .E => s.slotE
  | .M => s.slotM
  | .W => s.slotW

/-- What a host that asks a slot for its opcode gets: 0 for a bubble (spec/10_state.md R31). -/
def Slot.hostOpcode : Slot → Opcode
  | .bubble => 0
  | .instr r => r.opcode

/-- What a host that asks a slot for `computed` gets: none for a bubble. -/
def Slot.hostComputed : Slot → Option Word
  | .bubble => none
  | .instr r => r.computed

/-- What a host that asks a slot for `decoded` gets: the field values under the opcode's layout, none for a bubble. -/
def Slot.hostDecoded : Slot → Option (List (String × Nat))
  | .bubble => none
  | .instr r => r.decoded.map Instr.fieldValues

/-- `stalled_fetch()`. -/
def State.hostStalledFetch (s : State) : Bool := s.stalledFetch

/-- `stalled_memory()`. -/
def State.hostStalledMemory (s : State) : Bool := s.stalledMemory

/-- `cycles()`. -/
def State.hostCycles (s : State) : Nat := s.cycles

/-- `overlapped()`. -/
def State.hostOverlapped (s : State) : Bool := s.overlapped

/-- `halted()`. -/
def State.hostHalted (s : State) : Bool := s.halted

/-- `fault()`. -/
def State.hostFault (s : State) : Option FaultRecord := s.fault

/-- `evictions()`: the calls of the eviction callback so far, oldest first. -/
def State.hostEvictions (s : State) : List (Word × List Word) := s.mem.evictions

end Sys2Proof.Machine
end

