-- ==== Sys2Proof/Safety.lean ====
section
/-! DEFINITION. What a sound state of the core is: the invariants of spec/10_state.md R41 with those the rules of the pipeline and the
cache imply, each a decidable proposition. Statements that could fail only in states no run reaches take `State.Inv` as a
premise; that every step and host operation keeps it is stated on its own. -/

namespace Sys2Proof.Machine

/-- The core can advance in pipelined mode: not stopped, `overlapped` (spec/40_pipeline_engine.md R130). -/
abbrev State.pipelining (s : State) : Prop := s.stopped = false ∧ s.overlapped = true

/-- The core can advance in sequential mode (R130). -/
abbrev State.sequencing (s : State) : Prop := s.stopped = false ∧ s.overlapped = false

/-- A set of the cache is sound, given its index and RAM: as many lines as ways, each of a line's length; `order` is a permutation
of the ways with every invalid way before every valid one (R41 (d)); a dirty line is valid (R41 (g)); a valid line lies inside
RAM; a valid clean line holds what RAM holds (spec/20_memory.md R62, R65); at most one valid line per tag (R41 (c), R68). -/
abbrev CacheSet.Inv (p : Params) (ram : Memory) (s : Nat) (c : CacheSet) : Prop :=
  c.lines.length = p.nways ∧
  (∀ l ∈ c.lines, l.data.length = p.lineWords) ∧
  c.order.Perm (List.range p.nways) ∧
  (c.order.map (fun w => (c.line w).valid)).Pairwise (fun a b => a = true → b = true) ∧
  (∀ l ∈ c.lines, l.dirty = true → l.valid = true) ∧
  (∀ l ∈ c.lines, l.valid = true → lineAddr p l.tag s + p.lineWords ≤ p.ramCapacity) ∧
  (∀ l ∈ c.lines, l.valid = true → l.dirty = false →
    l.data = ram.readAll (lineAddr p l.tag s) p.lineWords) ∧
  (∀ i < p.nways, ∀ j < p.nways, (c.line i).valid = true → (c.line j).valid = true →
    (c.line i).tag = (c.line j).tag → i = j)

/-- The memory subsystem is sound: RAM in canonical form and inside its capacity; as many sets as the active geometry has (R36);
every set sound; every logged eviction one line long (R37). -/
abbrev MemSys.Inv (p : Params) (m : MemSys) : Prop :=
  m.ram.wf ∧
  (∀ c ∈ m.ram, c.1 < p.ramCapacity) ∧
  m.sets.length = (if m.cacheEnabled then p.nsets else 0) ∧
  (∀ s < m.sets.length, (m.cacheSet s).Inv p m.ram s) ∧
  (∀ e ∈ m.evictions, e.2.length = p.lineWords)

/-- A record that has been through Decode: its opcode, `decoded` and `decode_error` are what its raw Word gives (R32, R114). -/
def InstrRecord.sound (r : InstrRecord) : Bool :=
  r.opcode == opcodeOf r.raw &&
    match decode r.raw with
    | .ok i => r.decoded == some i && !r.decodeError
    | .error _ => r.decoded == none && r.decodeError

/-- What `computed` and `ea` hold after Execute, and after the access when `issued` (R32, R154). -/
def InstrRecord.executed (r : InstrRecord) (issued : Bool) : Bool :=
  match r.effective with
  | some (.ldr _ _ _) => r.ea.isSome && r.computed.isSome == issued
  | some (.str _ _ _) => r.ea.isSome && r.computed.isSome
  | some (.addi _ _ _) => r.ea.isNone && r.computed.isSome
  | some (.add _ _ _) => r.ea.isNone && r.computed.isSome
  | some (.sub _ _ _) => r.ea.isNone && r.computed.isSome
  | some .nop => r.ea.isNone && r.computed.isNone
  | some .halt => r.ea.isNone && r.computed.isNone
  | some (.b _) => r.ea.isNone && r.computed.isNone
  | some (.beq _) => r.ea.isNone && r.computed.isNone
  | some (.bne _) => r.ea.isNone && r.computed.isNone
  | none => r.ea.isNone && r.computed.isNone

/-- Whether the record is an effective load or store, the instructions with a memory operation (R154). -/
def InstrRecord.isAccess (r : InstrRecord) : Bool :=
  match r.effective with
  | some (.ldr _ _ _) => true
  | some (.str _ _ _) => true
  | some (.addi _ _ _) => false
  | some (.add _ _ _) => false
  | some (.sub _ _ _) => false
  | some .nop => false
  | some .halt => false
  | some (.b _) => false
  | some (.beq _) => false
  | some (.bne _) => false
  | none => false

/-- `slot[D]` holds a bubble or a new record (R142). -/
def Slot.fetchedOk : Slot → Bool
  | .bubble => true
  | .instr r => r == newInstruction r.raw r.origin

/-- `slot[E]` holds a bubble or a new record that Decode has processed (R136). -/
def Slot.decodedOk : Slot → Bool
  | .bubble => true
  | .instr r => r == (newInstruction r.raw r.origin).decodeStep

/-- `slot[M]` holds a bubble, or a record that has executed; its access has been issued exactly when the core is stalled, and then
it is a load or store with latency remaining (R41 (f), R133). -/
def Slot.executedOk (stalled : Bool) : Slot → Bool
  | .bubble => !stalled
  | .instr r =>
    r.sound && r.executed stalled && r.memIssued == stalled &&
      (if stalled then r.isAccess && decide (1 ≤ r.memRemaining) else r.memRemaining == 0)

/-- `slot[W]` holds a bubble, or a record that has finished Memory (R133). -/
def Slot.finishedOk : Slot → Bool
  | .bubble => true
  | .instr r => r.sound && r.executed true && r.memIssued && r.memRemaining == 0

/-- A sound state (R41): legal parameters; memory sound; (a) the stall flags equal; (b) `slot[F]` a bubble; (e) in sequential mode
nothing in flight; (f) and the rest of what each slot may hold; nothing finished behind a stall; bits 31 to 2 of the flags Word
zero (R24). -/
abbrev State.Inv (s : State) : Prop :=
  s.params.legal ∧
  s.mem.Inv s.params ∧
  s.stalledFetch = s.stalledMemory ∧
  s.slotF = .bubble ∧
  (s.overlapped = false →
    s.slotD = .bubble ∧ s.slotE = .bubble ∧ s.slotM = .bubble ∧ s.slotW = .bubble ∧
      s.stalledMemory = false) ∧
  s.slotD.fetchedOk = true ∧
  s.slotE.decodedOk = true ∧
  s.slotM.executedOk s.stalledMemory = true ∧
  s.slotW.finishedOk = true ∧
  (s.stalledMemory = true → s.slotW = .bubble) ∧
  flagsReservedZero s.flags = true

/-! ### The terms of the statements -/

/-- What `Retire` does for the content of `slot[W]`: nothing for a bubble (R132). -/
def Slot.retireOut : Slot → RetireOut
  | .bubble => RetireOut.nothing
  | .instr r => r.stages.retire r.computed

/-- What `Exec` writes for the content of `slot[E]`: nothing for a bubble (R135). -/
def Slot.execOut (x : RegFile) (flags : Word) : Slot → ExecOut
  | .bubble => ExecOut.nothing
  | .instr r => r.stages.exec x flags

/-- The content of `slot[D]` after Decode has processed it (R136). -/
def Slot.afterDecode : Slot → Slot
  | .bubble => .bubble
  | .instr r => .instr r.decodeStep

/-- The registers that Execute reads in an advance from `s`: with the write Writeback makes in the same advance (R131, R135). -/
def State.executeRegs (s : State) : RegFile := (s.applyRetire s.slotW.retireOut).x

/-- The redirection that Execute returns in an advance from `s` in which it runs (R146). -/
def State.executeOut (s : State) : ExecOut := s.slotE.execOut s.executeRegs s.flags

/-- The fetched Word and the fetch address of the instruction in a slot, none for a bubble. -/
def Slot.ids : Slot → List (Word × Word)
  | .bubble => []
  | .instr r => [(r.raw, r.origin)]

/-- The store a step from `s` issues, its address and datum, when it issues one in range: in pipelined mode that of the `STR` in
`slot[M]` not yet issued (R133), in sequential mode that of the `STR` at pc (R149). -/
def State.storeIssued (s : State) : Option (Word × Word) :=
  if s.stopped then none
  else if s.overlapped then
    match s.slotM with
    | .bubble => none
    | .instr r =>
      match r.effective, r.memIssued, r.ea, r.computed with
      | some (.str _ _ _), false, some a, some v => if a.toNat < s.params.ramCapacity then some (a, v) else none
      | _, _, _, _ => none
  else if s.pc.toNat < s.params.ramCapacity then
    match decode (s.mem.view s.params s.pc.toNat) with
    | .ok (.str rd rn imm) =>
      let a := effectiveAddress s.x rn imm
      if a.toNat < s.params.ramCapacity then some (a, RegFile.read s.x rd) else none
    | _ => none
  else none

/-- Two lines that differ at most where they have no meaning: in the content of an invalid line (R34). -/
abbrev Line.agrees (l k : Line) : Prop := l.valid = k.valid ∧ (l.valid = true → l = k)

/-- Two sets with the same order whose lines agree. -/
abbrev CacheSet.agrees (c d : CacheSet) : Prop := c.order = d.order ∧ List.Forall₂ Line.agrees c.lines d.lines

/-- Two memory subsystems that differ at most in the content of invalid lines. -/
abbrev MemSys.agrees (m n : MemSys) : Prop :=
  m.ram = n.ram ∧ m.cacheEnabled = n.cacheEnabled ∧ m.evictions = n.evictions ∧
    List.Forall₂ CacheSet.agrees m.sets n.sets

end Sys2Proof.Machine
end

