-- ==== Sys2Proof/Certificates/Slice0/Obligations.lean ====
section
/-! DEFINITION. The statements about the model, for the provers. Each docstring names the rule of spec/ it formalises; "the model's"
marks a clause that rests on a log entry. -/

open Sys2Proof Sys2Proof.Machine

/-! ### Encoding -/

/-- Decode and encode agree: decoding the Word of any instruction, with every operand at every value, gives the instruction back
(spec/30_encoding.md sections 3 and 4, R114, R120). -/
def Obligations.DecodeEncode : Prop := ∀ i : Instr, decode (encode i) = .ok i

/-- Encoding (spec/30_encoding.md section 4, which marks its sentence "derived" from R105 and R107 to R112): setting the opcode
and the operands field by field from the zero Word, through the codec, gives the Word of the formulas, for every assembly line
whose operands are in range; any other line fails with `RangeError`; and the worked examples. -/
def Obligations.AssembleBuildsTheWord : Prop :=
  (∀ a : Asm, a.wellFormed = true →
    assemble a = .ok (BitVec.ofNat 32 (match a with
      | .nop => 0 <<< 26
      | .ldr rd rn simm => 1 <<< 26 ||| rd <<< 22 ||| rn <<< 18 ||| (simm % 2 ^ 18).toNat
      | .str rd rn simm => 2 <<< 26 ||| rd <<< 22 ||| rn <<< 18 ||| (simm % 2 ^ 18).toNat
      | .addi rd rn simm => 3 <<< 26 ||| rd <<< 22 ||| rn <<< 18 ||| (simm % 2 ^ 18).toNat
      | .add rd rn rm => 4 <<< 26 ||| rd <<< 22 ||| rn <<< 18 ||| rm <<< 14
      | .sub rd rn rm => 5 <<< 26 ||| rd <<< 22 ||| rn <<< 18 ||| rm <<< 14
      | .b target => 6 <<< 26 ||| target
      | .beq target => 7 <<< 26 ||| target
      | .bne target => 8 <<< 26 ||| target
      | .halt => 63 <<< 26)) ∧
    assemble a = .ok (encode a.toInstr)) ∧
  (∀ a : Asm, a.wellFormed = false → assemble a = .error .rangeError) ∧
  assemble (.ldr 1 0 8) = .ok 0x04400008 ∧ assemble (.str 1 2 16) = .ok 0x08480010 ∧
  assemble (.addi 2 1 5) = .ok 0x0C840005 ∧ assemble (.addi 1 0 (-1)) = .ok 0x0C43FFFF ∧
  assemble (.add 2 2 1) = .ok 0x10884000 ∧ assemble (.sub 1 1 3) = .ok 0x1444C000 ∧
  assemble (.b 0) = .ok 0x18000000 ∧ assemble (.beq 7) = .ok 0x1C000007 ∧
  assemble (.bne 2) = .ok 0x20000002 ∧ assemble .nop = .ok 0x00000000 ∧
  assemble .halt = .ok 0xFC000000 ∧ assemble (.b (2 ^ 26)) = .error .rangeError

/-- R113, the opcode map, row by row: a Word decodes to the row's instruction exactly when its top six bits are the row's opcode
(`match` under `mask`), each row's format, and opcodes 9 to 62 have none. -/
def Obligations.OpcodeMapRows : Prop :=
  (∀ w : Word,
    (w &&& 0xFC000000 = 0x00000000 ↔ decode w = .ok .nop) ∧
    (w &&& 0xFC000000 = 0x04000000 ↔ ∃ rd rn imm, decode w = .ok (.ldr rd rn imm)) ∧
    (w &&& 0xFC000000 = 0x08000000 ↔ ∃ rd rn imm, decode w = .ok (.str rd rn imm)) ∧
    (w &&& 0xFC000000 = 0x0C000000 ↔ ∃ rd rn imm, decode w = .ok (.addi rd rn imm)) ∧
    (w &&& 0xFC000000 = 0x10000000 ↔ ∃ rd rn rm, decode w = .ok (.add rd rn rm)) ∧
    (w &&& 0xFC000000 = 0x14000000 ↔ ∃ rd rn rm, decode w = .ok (.sub rd rn rm)) ∧
    (w &&& 0xFC000000 = 0x18000000 ↔ ∃ t, decode w = .ok (.b t)) ∧
    (w &&& 0xFC000000 = 0x1C000000 ↔ ∃ t, decode w = .ok (.beq t)) ∧
    (w &&& 0xFC000000 = 0x20000000 ↔ ∃ t, decode w = .ok (.bne t)) ∧
    (w &&& 0xFC000000 = 0xFC000000 ↔ decode w = .ok .halt) ∧
    (9 ≤ (opcodeOf w).toNat ∧ (opcodeOf w).toNat ≤ 62 ↔
      decode w = .error (.unallocatedOpcode (opcodeOf w)))) ∧
  layoutOf 0 = some layoutN ∧ layoutOf 1 = some layoutRI ∧ layoutOf 2 = some layoutRI ∧
  layoutOf 3 = some layoutRI ∧ layoutOf 4 = some layoutR ∧ layoutOf 5 = some layoutR ∧
  layoutOf 6 = some layoutJ ∧ layoutOf 7 = some layoutJ ∧ layoutOf 8 = some layoutJ ∧
  layoutOf 63 = some layoutN ∧
  ∀ op : Opcode, 9 ≤ op.toNat → op.toNat ≤ 62 → layoutOf op = none

/-- R115: unallocated bits are ignored by Decode (25 to 0 of an N-format Word, 13 to 0 of an R-format Word), and the encoder writes
them as zero. -/
def Obligations.UnallocatedBitsIgnored : Prop :=
  (∀ w v : Word, opcodeOf w = opcodeOf v →
    (layoutOf (opcodeOf w) = some layoutN → decode w = decode v) ∧
    (layoutOf (opcodeOf w) = some layoutR → w.extractLsb' 14 12 = v.extractLsb' 14 12 →
      decode w = decode v)) ∧
  (∀ i : Instr,
    (layoutOf i.opcode = some layoutN → (encode i).extractLsb' 0 26 = 0) ∧
    (layoutOf i.opcode = some layoutR → (encode i).extractLsb' 0 14 = 0))

/-- Every Word below `0x04000000` is a `NOP` and every Word at or above `0xFC000000` a `HALT` (spec/30_encoding.md section 3, R117). -/
def Obligations.NopAndHaltAliases : Prop :=
  ∀ w : Word,
    (w.toNat < 0x04000000 → decode w = .ok .nop) ∧ (0xFC000000 ≤ w.toNat → decode w = .ok .halt)

/-- A few Words written out from the encodings decode to the instructions they stand for, one for each format and the first and
last reserved opcode (spec/30_encoding.md sections 2 and 3). -/
def Obligations.SampleWordsDecode : Prop :=
  decode 0b000000_00000000000000000000000000 = .ok .nop ∧
  decode 0b000001_0001_0000_000000000000001000 = .ok (.ldr 1 0 8) ∧
  decode 0b000010_0001_0010_000000000000010000 = .ok (.str 1 2 16) ∧
  decode 0b000011_0001_0000_111111111111111111 = .ok (.addi 1 0 0x3FFFF) ∧
  decode 0b000100_0010_0010_0001_00000000000000 = .ok (.add 2 2 1) ∧
  decode 0b000101_0001_0001_0011_00000000000000 = .ok (.sub 1 1 3) ∧
  decode 0b000110_00000000000000000000000000 = .ok (.b 0) ∧
  decode 0b000111_00000000000000000000000111 = .ok (.beq 7) ∧
  decode 0b001000_00000000000000000000000010 = .ok (.bne 2) ∧
  decode 0b111111_00000000000000000000000000 = .ok .halt ∧
  decode 0b001001_00000000000000000000000000 = .error (.unallocatedOpcode 9) ∧
  decode 0b111110_00000000000000000000000000 = .error (.unallocatedOpcode 62)

/-- Decode reads the fields of the opcode-selected layout with the codec's `get`, all of them and no others (spec/30_encoding.md
section 3, R114). -/
def Obligations.DecodeReadsLayoutFields : Prop :=
  ∀ (w : Word) (i : Instr), decode w = .ok i →
    i.opcode = opcodeOf w ∧
    ∃ l, layoutOf (opcodeOf w) = some l ∧
      i.fieldValues.map Prod.fst = l.fields.map (·.name) ∧
      ∀ f ∈ i.fieldValues, l.get w.toNat f.1 = .ok f.2

/-! ### The codec -/

/-- R105: in a well-formed layout, `set` of a value in `[0, mask]` succeeds, `get` then gives the value, and the bits of the word
outside the field are untouched; a value outside fails with `RangeError`. -/
def Obligations.SetThenGet : Prop :=
  ∀ l : WordLayout, l.wf → ∀ f ∈ l.fields, ∀ (bits : Nat) (v : Int),
    (0 ≤ v → v ≤ (f.mask : Int) →
      ∃ b, l.set bits f.name v = .ok b ∧ l.get b f.name = .ok v.toNat ∧
        ∀ k < l.size, k < f.startBit ∨ f.stopBit ≤ k → b.testBit k = bits.testBit k) ∧
    (v < 0 ∨ (f.mask : Int) < v → l.set bits f.name v = .error .rangeError)

/-- `add_field` (spec/30_encoding.md section 1, R102): it fails with `LayoutError` exactly when the start is negative, the field reaches beyond the word, its range
meets an allocated one, or the name exists; on success the field is added, the range is carved from the unallocated list, each range
leaving at most two, and the fields and ranges still partition the word; and each constant layout is what successful `add_field`
calls build from `BASE` (`FLAGS` from the empty word), and is well formed. That a width of 0 is accepted and that the list of ranges
is exactly the carved one, adjacent ranges not joined, is the model's choice (log entry 15). -/
def Obligations.AddFieldPartitions : Prop :=
  (∀ l : WordLayout, l.wf → ∀ (name : String) (start : Int) (width : Nat),
    ((start < 0 ∨ (l.size : Int) < start + width ∨
        (∃ f ∈ l.fields, ∃ b : Nat, start ≤ (b : Int) ∧ (b : Int) < start + width ∧
          f.startBit ≤ b ∧ b < f.stopBit) ∨
        (∃ f ∈ l.fields, f.name = name)) →
      l.addField name start width = .error .layoutError) ∧
    (¬ (start < 0 ∨ (l.size : Int) < start + width ∨
        (∃ f ∈ l.fields, ∃ b : Nat, start ≤ (b : Int) ∧ (b : Int) < start + width ∧
          f.startBit ≤ b ∧ b < f.stopBit) ∨
        (∃ f ∈ l.fields, f.name = name)) →
      ∃ k, l.addField name start width = .ok k ∧ k.wf ∧ k.size = l.size ∧
        k.fields = l.fields ++ [{ name := name, startBit := start.toNat, widthBits := width }] ∧
        (∀ b : Nat, (∃ r ∈ k.free, r.1 ≤ b ∧ b < r.2) ↔
          (∃ r ∈ l.free, r.1 ≤ b ∧ b < r.2) ∧ ¬ (start ≤ (b : Int) ∧ (b : Int) < start + width)) ∧
        k.free = l.free.flatMap (carveRange start.toNat (start.toNat + width)) ∧
        ∀ r, (carveRange start.toNat (start.toNat + width) r).length ≤ 2)) ∧
  layoutBase.wf ∧ layoutN.wf ∧ layoutRI.wf ∧ layoutR.wf ∧ layoutJ.wf ∧ layoutFlags.wf ∧
  (WordLayout.empty "BASE" 32).addField "opcode" 26 6 = .ok layoutBase ∧
  layoutBase.derive "N" none = .ok layoutN ∧
  ((layoutBase.derive "RI" none).bind fun l => (l.addField "rd" 22 4).bind fun l =>
    (l.addField "rn" 18 4).bind fun l => l.addField "imm18" 0 18) = .ok layoutRI ∧
  ((layoutBase.derive "R" none).bind fun l => (l.addField "rd" 22 4).bind fun l =>
    (l.addField "rn" 18 4).bind fun l => l.addField "rm" 14 4) = .ok layoutR ∧
  ((layoutBase.derive "J" none).bind fun l => l.addField "target" 0 26) = .ok layoutJ ∧
  ((WordLayout.empty "FLAGS" 32).addField "Z" 0 1).bind (fun l => l.addField "N" 1 1) = .ok layoutFlags

/-- `derive_layout`: a copy with the same fields; with a width, it fails exactly when a field would be cut, and otherwise the fields
and unallocated ranges partition the word of the new width (spec/30_encoding.md section 1, R103). -/
def Obligations.DeriveKeepsPartition : Prop :=
  ∀ l : WordLayout, l.wf → ∀ name : String,
    l.derive name none = .ok { l with name := name } ∧
    ∀ w : Nat,
      ((∃ f ∈ l.fields, w < f.stopBit) → l.derive name (some w) = .error .layoutError) ∧
      ((∀ f ∈ l.fields, f.stopBit ≤ w) →
        ∃ k, l.derive name (some w) = .ok k ∧ k.wf ∧ k.size = w ∧ k.fields = l.fields ∧ k.name = name)

/-! ### Reset and the invariant -/

/-- R39, the reset table, for every choice of parameters, and that `State.reset` is the one with the default parameters. -/
def Obligations.ResetState : Prop :=
  State.reset = State.resetWith Params.defaults ∧
  Params.defaults.overlappedAtReset = true ∧ Params.defaults.cacheEnabledAtReset = true ∧
  ∀ p : Params,
    (∀ r : RegNum, RegFile.read (State.resetWith p).x r = 0) ∧
    (State.resetWith p).pc = 0 ∧ (State.resetWith p).sp = 0 ∧
    flagZ (State.resetWith p).flags = false ∧ flagN (State.resetWith p).flags = false ∧
    (State.resetWith p).slotF = .bubble ∧ (State.resetWith p).slotD = .bubble ∧
    (State.resetWith p).slotE = .bubble ∧ (State.resetWith p).slotM = .bubble ∧
    (State.resetWith p).slotW = .bubble ∧
    (State.resetWith p).stalledFetch = false ∧ (State.resetWith p).stalledMemory = false ∧
    (State.resetWith p).cycles = 0 ∧ (State.resetWith p).overlapped = p.overlappedAtReset ∧
    (State.resetWith p).halted = false ∧ (State.resetWith p).fault = none ∧
    (∀ a, (State.resetWith p).mem.ram.read a = 0) ∧
    (State.resetWith p).mem.cacheEnabled = p.cacheEnabledAtReset ∧
    (State.resetWith p).mem.sets.length = (if p.cacheEnabledAtReset then p.nsets else 0) ∧
    (∀ c ∈ (State.resetWith p).mem.sets, c.lines.length = p.nways ∧
      (∀ l ∈ c.lines, l.valid = false) ∧ c.order = List.range p.nways) ∧
    (State.resetWith p).mem.evictions = []

/-- The invariant holds right after reset, for all legal parameters (spec/10_state.md section 5). -/
def Obligations.InvariantAtReset : Prop := ∀ p : Params, p.legal → (State.resetWith p).Inv

/-- Every step keeps the invariant: stall flags equal, `slot[F]` a bubble, at most one valid line per tag, recency orders
permutations with invalid ways first, nothing in flight in sequential mode, a stall only behind an issued load or store, dirty lines
valid, clean lines equal to RAM, RAM in canonical form and inside its capacity, each slot's record as its stage leaves it, reserved
flag bits zero (spec/10_state.md section 5). -/
def Obligations.StepKeepsInvariant : Prop :=
  ∀ s t : State, s.Inv → step s = .next t → t.Inv

/-- Every host operation keeps the invariant (spec/10_state.md section 5, spec/45_host_operations.md). -/
def Obligations.HostOperationsKeepInvariant : Prop :=
  ∀ s : State, s.Inv →
    s.enableCache.Inv ∧ s.disableCache.Inv ∧ s.doReset.Inv ∧
    (∀ b t, s.setMode b = .next t → t.Inv) ∧
    (∀ a v t, s.ramWrite a v = .next t → t.Inv) ∧
    (∀ ws t, s.loadProgram ws = .next t → t.Inv)

/-! ### Memory and the cache -/

/-- R56: the range check comes first; beyond it the access is the cache's. A failing access answers no memory, so it changes
none. -/
def Obligations.RangeCheckComesFirst : Prop :=
  ∀ (p : Params) (m : MemSys) (a v : Word),
    (p.ramCapacity ≤ a.toNat →
      memRead p m a = .error .addressOutOfRange ∧ memWrite p m a v = .error .addressOutOfRange) ∧
    (a.toNat < p.ramCapacity →
      memRead p m a = .ok (m.cacheRead p a.toNat) ∧ memWrite p m a v = .ok (m.cacheWrite p a.toNat v))

/-- R57: with the cache disabled every access goes straight to RAM at `RAM_LATENCY`. -/
def Obligations.DisabledCachePassesThrough : Prop :=
  ∀ (p : Params) (m : MemSys) (a : Nat) (v : Word), m.cacheEnabled = false →
    m.cacheRead p a = { word := m.ram.read a, latency := p.ramLatency, mem := m } ∧
    m.cacheWrite p a v = { latency := p.ramLatency, mem := { m with ram := m.ram.write a v } }

/-- The latency table (spec/20_memory.md section 3, "derived: from rules R57, R64, R65"), with the default numbers and where the
miss penalty comes from. -/
def Obligations.LatencyTable : Prop :=
  (∀ (p : Params) (m : MemSys) (a : Nat) (v : Word),
    (m.cacheEnabled = false →
      (m.cacheRead p a).latency = p.ramLatency ∧ (m.cacheWrite p a v).latency = p.ramLatency) ∧
    (m.cacheEnabled = true →
      ((m.cacheSet (indexOf p a)).hitWay (tagOf p a)).isSome = true →
      (m.cacheRead p a).latency = p.readLatency ∧ (m.cacheWrite p a v).latency = p.writeLatency) ∧
    (m.cacheEnabled = true →
      ((m.cacheSet (indexOf p a)).hitWay (tagOf p a)).isSome = false →
      (m.cacheRead p a).latency = p.readLatency + p.missPenalty ∧
        (m.cacheWrite p a v).latency = p.writeLatency + p.missPenalty)) ∧
  Params.defaults.ramLatency = 3 ∧ Params.defaults.readLatency = 1 ∧
  Params.defaults.writeLatency = 1 ∧
  Params.defaults.readLatency + Params.defaults.missPenalty = 4 ∧
  Params.defaults.writeLatency + Params.defaults.missPenalty = 4 ∧
  Params.defaults.missPenalty = Params.defaults.ramLatency

/-- A read in range answers `MemView` of its address and leaves `MemView` unchanged at every address (spec/20_memory.md section 3,
R70). -/
def Obligations.MemReadAnswersAndKeepsView : Prop :=
  ∀ (p : Params) (m : MemSys) (a : Word), p.legal → m.Inv p → a.toNat < p.ramCapacity →
    ∃ r, memRead p m a = .ok r ∧ r.word = m.view p a.toNat ∧
      ∀ b < p.ramCapacity, r.mem.view p b = m.view p b

/-- A write in range makes `MemView` of its address the Word written and leaves it unchanged elsewhere (spec/20_memory.md section 3,
R70), under either value of `WRITE_MISS_RAM_UPDATE`. -/
def Obligations.MemWriteSetsView : Prop :=
  ∀ (p : Params) (m : MemSys) (a v : Word), p.legal → m.Inv p → a.toNat < p.ramCapacity →
    ∃ r, memWrite p m a v = .ok r ∧ r.mem.view p a.toNat = v ∧
      ∀ b < p.ramCapacity, b ≠ a.toNat → r.mem.view p b = m.view p b

/-- R69: a toggle of either kind discards every line without write-back and leaves RAM, the log and everything outside the memory
subsystem; afterwards no line is valid, `MemView` is RAM at every address, and enabling an enabled cache does the same. -/
def Obligations.TogglesDiscard : Prop :=
  ∀ s : State,
    s.disableCache.mem.cacheEnabled = false ∧ s.disableCache.mem.sets = [] ∧
    s.disableCache.mem.ram = s.mem.ram ∧ s.disableCache.mem.evictions = s.mem.evictions ∧
    (∀ b, s.disableCache.mem.view s.params b = s.mem.ram.read b) ∧
    s.enableCache.mem.cacheEnabled = true ∧ s.enableCache.mem.sets.length = s.params.nsets ∧
    (∀ c ∈ s.enableCache.mem.sets, c.order = List.range s.params.nways ∧
      c.lines.length = s.params.nways ∧ ∀ l ∈ c.lines, l.valid = false) ∧
    s.enableCache.mem.ram = s.mem.ram ∧ s.enableCache.mem.evictions = s.mem.evictions ∧
    (∀ b, s.enableCache.mem.view s.params b = s.mem.ram.read b) ∧
    s.disableCache = { s with mem := s.disableCache.mem } ∧ s.enableCache = { s with mem := s.enableCache.mem }

/-- Every access keeps the memory invariant: one valid line per tag, recency orders, dirty lines valid, clean lines equal to RAM, RAM
canonical and in range (spec/20_memory.md section 3). -/
def Obligations.AccessesKeepMemoryInvariant : Prop :=
  ∀ (p : Params) (m : MemSys) (a v : Word), p.legal → m.Inv p →
    (∀ r, memRead p m a = .ok r → r.mem.Inv p) ∧ (∀ r, memWrite p m a v = .ok r → r.mem.Inv p)

/-- A miss replaces the least recently used way of its set and nothing else: the victim is written back, and logged once with its base
address and data, exactly when it is valid and dirty; the line loaded is valid, clean and holds RAM's Words; the way becomes the
most recently used. A write does the same and then stores the Word into the line just loaded and marks it dirty; RAM at the address
keeps the old Word, unless `WRITE_MISS_RAM_UPDATE` is true: then it holds the new one at once (spec/20_memory.md section 3, R60 to
R63, R65, R66, R77). -/
def Obligations.MissReplacesLeastRecent : Prop :=
  ∀ (p : Params) (m : MemSys) (a : Nat) (v : Word), p.legal → m.Inv p → m.cacheEnabled = true →
    a < p.ramCapacity → (m.cacheSet (indexOf p a)).hitWay (tagOf p a) = none →
    ∃ w, (m.cacheSet (indexOf p a)).order.head? = some w ∧
      (let c := m.cacheSet (indexOf p a)
       let l := c.line w
       let base := lineAddr p l.tag (indexOf p a)
       let n := (m.cacheRead p a).mem
       let k := (m.cacheWrite p a v).mem
       let out := if l.valid && l.dirty then [(BitVec.ofNat 32 base, l.data)] else []
       n.evictions = m.evictions ++ out ∧
       ((l.valid && l.dirty) = true → ∀ k < p.lineWords, n.ram.read (base + k) = l.data.getD k 0) ∧
       (∀ b, (l.valid && l.dirty) = false ∨ b < base ∨ base + p.lineWords ≤ b →
         n.ram.read b = m.ram.read b) ∧
       (n.cacheSet (indexOf p a)).order = c.order.tail ++ [w] ∧
       (n.cacheSet (indexOf p a)).line w =
         { valid := true, dirty := false, tag := tagOf p a
           data := n.ram.readAll (baseOf p a) p.lineWords } ∧
       (∀ u, u ≠ w → (n.cacheSet (indexOf p a)).line u = c.line u) ∧
       (∀ j, j ≠ indexOf p a → n.cacheSet j = m.cacheSet j) ∧
       k.evictions = m.evictions ++ out ∧
       (∀ b, b ≠ a → k.ram.read b = n.ram.read b) ∧
       (p.writeMissRamUpdate = false → k.ram.read a = m.ram.read a) ∧
       (p.writeMissRamUpdate = true → k.ram.read a = v) ∧
       (k.cacheSet (indexOf p a)).order = c.order.tail ++ [w] ∧
       (k.cacheSet (indexOf p a)).line w =
         { valid := true, dirty := true, tag := tagOf p a
           data := (n.ram.readAll (baseOf p a) p.lineWords).set (offsetOf p a) v } ∧
       (∀ u, u ≠ w → (k.cacheSet (indexOf p a)).line u = c.line u) ∧
       ∀ j, j ≠ indexOf p a → k.cacheSet j = m.cacheSet j)

/-- With the cache enabled, an access that follows an access to the same address hits: it has the hit latency, and a read returns the
latest Word (R76). A hit, of a read or a write, moves the hit way to the end of the recency order of its set; a read hit changes
nothing else, a write hit stores the Word into the hit line and marks it dirty and changes nothing else: no other line or set, no
Word of RAM, not the log (spec/20_memory.md sections 3 and 4, R60, R64, R65). -/
def Obligations.RepeatedAccessHits : Prop :=
  (∀ (p : Params) (m : MemSys) (a v u : Word), p.legal → m.Inv p → m.cacheEnabled = true →
    a.toNat < p.ramCapacity →
    ∃ r w, memRead p m a = .ok r ∧ memWrite p m a v = .ok w ∧
      (∃ q, memRead p r.mem a = .ok q ∧ q.word = r.word ∧ q.latency = p.readLatency) ∧
      (∃ q, memRead p w.mem a = .ok q ∧ q.word = v ∧ q.latency = p.readLatency) ∧
      (∃ q, memWrite p r.mem a u = .ok q ∧ q.latency = p.writeLatency) ∧
      (∃ q, memWrite p w.mem a u = .ok q ∧ q.latency = p.writeLatency)) ∧
  (∀ (p : Params) (m : MemSys) (a : Nat) (v : Word) (w : Nat), p.legal → m.Inv p →
    m.cacheEnabled = true → a < p.ramCapacity →
    (m.cacheSet (indexOf p a)).hitWay (tagOf p a) = some w →
    let c := m.cacheSet (indexOf p a)
    let n := (m.cacheRead p a).mem
    let k := (m.cacheWrite p a v).mem
    (m.cacheRead p a).word = (c.line w).data.getD (offsetOf p a) 0 ∧
    (n.cacheSet (indexOf p a)).order = c.order.erase w ++ [w] ∧
    (n.cacheSet (indexOf p a)).lines = c.lines ∧
    (∀ j, j ≠ indexOf p a → n.cacheSet j = m.cacheSet j) ∧
    n.ram = m.ram ∧ n.evictions = m.evictions ∧ n.cacheEnabled = true ∧
    (k.cacheSet (indexOf p a)).order = c.order.erase w ++ [w] ∧
    (k.cacheSet (indexOf p a)).line w =
      { c.line w with data := (c.line w).data.set (offsetOf p a) v, dirty := true } ∧
    (∀ u, u ≠ w → (k.cacheSet (indexOf p a)).line u = c.line u) ∧
    (∀ j, j ≠ indexOf p a → k.cacheSet j = m.cacheSet j) ∧
    k.ram = m.ram ∧ k.evictions = m.evictions ∧ k.cacheEnabled = true)

/-- The `dirty`, `tag` and `data` of an invalid line never matter: from memories that differ only there, a read and a write give the
same Word, the same latency or the same error, and memories that again differ only there (spec/10_state.md section 3, R34). -/
def Obligations.InvalidLineContentIrrelevant : Prop :=
  ∀ (p : Params) (m n : MemSys) (a v : Word), m.agrees n →
    (p.ramCapacity ≤ a.toNat → memRead p m a = memRead p n a ∧ memWrite p m a v = memWrite p n a v) ∧
    (a.toNat < p.ramCapacity →
      ∃ r q w z, memRead p m a = .ok r ∧ memRead p n a = .ok q ∧
        memWrite p m a v = .ok w ∧ memWrite p n a v = .ok z ∧
        r.word = q.word ∧ r.latency = q.latency ∧ r.mem.agrees q.mem ∧
        w.latency = z.latency ∧ w.mem.agrees z.mem)

/-! ### The instructions: encoding, the row of the interface table, and the whole instruction (sequential mode), each from its rule -/

/-- R170, `NOP`: nothing in any stage, five cycle units in sequential mode, counted in `status.retired`; every Word below
`0x04000000` is one. -/
def Obligations.NopRule : Prop :=
  encode .nop = encodeN 0 ∧ (encode .nop) &&& 0xFC000000 = 0x00000000 ∧
  (stagesOf .nop).src = [] ∧ (stagesOf .nop).dest = none ∧
  (∀ x flags, (stagesOf .nop).exec x flags = ExecOut.nothing) ∧
  (∀ p m ea c, (stagesOf .nop).memOp p m ea c = .ok { computed := c, latency := 0, mem := m }) ∧
  (∀ c, (stagesOf .nop).retire c = RetireOut.nothing) ∧
  (∀ s : State, exec .nop s = .next { s with cycles := s.cycles + 5 }) ∧
  (∀ w : Word, w.toNat < 0x04000000 → decode w = .ok .nop) ∧
  ∀ (s : State) (r : InstrRecord), s.pipelining → s.slotW = .instr r → r.effective = some .nop →
    s.slotW.retireOut = RetireOut.nothing ∧ s.advanceStatus.retired = some r

/-- R171, `HALT`: no effect before Writeback; it takes effect in step 1 of the advance in which it is in `slot[W]`, or at the end
of its own advance in sequential mode, and after that the core does nothing more; every Word at or above `0xFC000000` is one. -/
def Obligations.HaltRule : Prop :=
  encode .halt = encodeN 63 ∧ (encode .halt) &&& 0xFC000000 = 0xFC000000 ∧
  (stagesOf .halt).src = [] ∧ (stagesOf .halt).dest = none ∧
  (∀ x flags, (stagesOf .halt).exec x flags = ExecOut.nothing) ∧
  (∀ p m ea c, (stagesOf .halt).memOp p m ea c = .ok { computed := c, latency := 0, mem := m }) ∧
  (∀ c, (stagesOf .halt).retire c = { write := none, halts := true }) ∧
  (∀ s : State, exec .halt s = .next { s with halted := true, cycles := s.cycles + 5 }) ∧
  (∀ w : Word, 0xFC000000 ≤ w.toNat → decode w = .ok .halt) ∧
  (∀ (s : State) (r : InstrRecord), s.pipelining → s.slotW = .instr r → r.effective = some .halt →
    ∃ t, step s = .next t ∧ t.halted = true) ∧
  ∀ s t : State, s.halted = true → step s = .next t → t = s

/-- R181, `LDR rd, [rn + imm]`: in range it loads what `MemRead` answers, out of range it raises `AddressOutOfRange(ea)` and nothing
else changes. -/
def Obligations.LdrRule : Prop :=
  ∀ (rd rn : RegNum) (imm : Imm18),
    encode (.ldr rd rn imm) = encodeRI 1 rd rn imm ∧
    (encode (.ldr rd rn imm)) &&& 0xFC000000 = 0x04000000 ∧
    (stagesOf (.ldr rd rn imm)).src = [rn] ∧ (stagesOf (.ldr rd rn imm)).dest = some rd ∧
    (∀ x flags, (stagesOf (.ldr rd rn imm)).exec x flags =
      { computed := none, ea := some (RegFile.read x rn + imm.signExtend 32)
        flags := none, redirect := none }) ∧
    (∀ (p : Params) (m : MemSys) (a : Word) (c : Option Word),
      (a.toNat < p.ramCapacity → ∃ r, memRead p m a = .ok r ∧
        (stagesOf (.ldr rd rn imm)).memOp p m (some a) c =
          .ok { computed := some r.word, latency := r.latency, mem := r.mem }) ∧
      (p.ramCapacity ≤ a.toNat → (stagesOf (.ldr rd rn imm)).memOp p m (some a) c =
        .error { kind := .addressOutOfRange, addr := a, stage := .M })) ∧
    (∀ v, (stagesOf (.ldr rd rn imm)).retire (some v) = { write := some (rd, v), halts := false }) ∧
    ∀ s : State,
      ((RegFile.read s.x rn + imm.signExtend 32).toNat < s.params.ramCapacity →
        ∃ r, memRead s.params s.mem (RegFile.read s.x rn + imm.signExtend 32) = .ok r ∧
          exec (.ldr rd rn imm) s = .next { s with
            x := RegFile.write s.x rd r.word, mem := r.mem, cycles := s.cycles + 5 + r.latency }) ∧
      (s.params.ramCapacity ≤ (RegFile.read s.x rn + imm.signExtend 32).toNat →
        exec (.ldr rd rn imm) s = .next { s with
          fault := some { kind := .addressOutOfRange
                          addr := RegFile.read s.x rn + imm.signExtend 32
                          stage := .M } }) ∧
      encode (.ldr 1 0 8) = 0x04400008

/-- R182, `STR rd, [rn + imm]`: in range it stores `x[rd]` by `MemWrite`, out of range it raises `AddressOutOfRange(ea)` and nothing
else changes. -/
def Obligations.StrRule : Prop :=
  ∀ (rd rn : RegNum) (imm : Imm18),
    encode (.str rd rn imm) = encodeRI 2 rd rn imm ∧
    (encode (.str rd rn imm)) &&& 0xFC000000 = 0x08000000 ∧
    (stagesOf (.str rd rn imm)).src = [rn, rd] ∧ (stagesOf (.str rd rn imm)).dest = none ∧
    (∀ x flags, (stagesOf (.str rd rn imm)).exec x flags =
      { computed := some (RegFile.read x rd), ea := some (RegFile.read x rn + imm.signExtend 32)
        flags := none, redirect := none }) ∧
    (∀ (p : Params) (m : MemSys) (a v : Word),
      (a.toNat < p.ramCapacity → ∃ r, memWrite p m a v = .ok r ∧
        (stagesOf (.str rd rn imm)).memOp p m (some a) (some v) =
          .ok { computed := some v, latency := r.latency, mem := r.mem }) ∧
      (p.ramCapacity ≤ a.toNat → (stagesOf (.str rd rn imm)).memOp p m (some a) (some v) =
        .error { kind := .addressOutOfRange, addr := a, stage := .M })) ∧
    (∀ c, (stagesOf (.str rd rn imm)).retire c = RetireOut.nothing) ∧
    ∀ s : State,
      ((RegFile.read s.x rn + imm.signExtend 32).toNat < s.params.ramCapacity →
        ∃ r, memWrite s.params s.mem (RegFile.read s.x rn + imm.signExtend 32)
            (RegFile.read s.x rd) = .ok r ∧
          exec (.str rd rn imm) s = .next { s with
            mem := r.mem, cycles := s.cycles + 5 + r.latency }) ∧
      (s.params.ramCapacity ≤ (RegFile.read s.x rn + imm.signExtend 32).toNat →
        exec (.str rd rn imm) s = .next { s with
          fault := some { kind := .addressOutOfRange
                          addr := RegFile.read s.x rn + imm.signExtend 32
                          stage := .M } }) ∧
      encode (.str 1 2 16) = 0x08480010

/-- R191, `ADDI rd, rn, imm`. -/
def Obligations.AddiRule : Prop :=
  ∀ (rd rn : RegNum) (imm : Imm18),
    encode (.addi rd rn imm) = encodeRI 3 rd rn imm ∧
    (encode (.addi rd rn imm)) &&& 0xFC000000 = 0x0C000000 ∧
    (stagesOf (.addi rd rn imm)).src = [rn] ∧ (stagesOf (.addi rd rn imm)).dest = some rd ∧
    (∀ x flags, (stagesOf (.addi rd rn imm)).exec x flags =
      { computed := some (RegFile.read x rn + imm.signExtend 32), ea := none
        flags := some (nzFlags (RegFile.read x rn + imm.signExtend 32)), redirect := none }) ∧
    (∀ p m ea c, (stagesOf (.addi rd rn imm)).memOp p m ea c =
      .ok { computed := c, latency := 0, mem := m }) ∧
    (∀ v, (stagesOf (.addi rd rn imm)).retire (some v) = { write := some (rd, v), halts := false }) ∧
    (∀ s : State, exec (.addi rd rn imm) s = .next { s with
      x := RegFile.write s.x rd (RegFile.read s.x rn + imm.signExtend 32)
      flags := nzFlags (RegFile.read s.x rn + imm.signExtend 32)
      cycles := s.cycles + 5 }) ∧
    encode (.addi 2 1 5) = 0x0C840005 ∧ encode (.addi 1 0 0x3FFFF) = 0x0C43FFFF

/-- R192, `ADD rd, rn, rm`; bits 13 to 0 of the Word are ignored. -/
def Obligations.AddRule : Prop :=
  ∀ rd rn rm : RegNum,
    encode (.add rd rn rm) = encodeR 4 rd rn rm ∧
    (encode (.add rd rn rm)) &&& 0xFC000000 = 0x10000000 ∧
    (stagesOf (.add rd rn rm)).src = [rn, rm] ∧ (stagesOf (.add rd rn rm)).dest = some rd ∧
    (∀ x flags, (stagesOf (.add rd rn rm)).exec x flags =
      { computed := some (RegFile.read x rn + RegFile.read x rm), ea := none
        flags := some (nzFlags (RegFile.read x rn + RegFile.read x rm)), redirect := none }) ∧
    (∀ p m ea c, (stagesOf (.add rd rn rm)).memOp p m ea c =
      .ok { computed := c, latency := 0, mem := m }) ∧
    (∀ v, (stagesOf (.add rd rn rm)).retire (some v) = { write := some (rd, v), halts := false }) ∧
    (∀ s : State, exec (.add rd rn rm) s = .next { s with
      x := RegFile.write s.x rd (RegFile.read s.x rn + RegFile.read s.x rm)
      flags := nzFlags (RegFile.read s.x rn + RegFile.read s.x rm)
      cycles := s.cycles + 5 }) ∧
    (∀ low : BitVec 14, decode (encode (.add rd rn rm) ||| low.setWidth 32) = .ok (.add rd rn rm)) ∧
    encode (.add 2 2 1) = 0x10884000

/-- R193, `SUB rd, rn, rm`: `rn` minus `rm`; bits 13 to 0 of the Word are ignored; a register minus itself gives 0 with `Z = 1`,
`N = 0`. -/
def Obligations.SubRule : Prop :=
  ∀ rd rn rm : RegNum,
    encode (.sub rd rn rm) = encodeR 5 rd rn rm ∧
    (encode (.sub rd rn rm)) &&& 0xFC000000 = 0x14000000 ∧
    (stagesOf (.sub rd rn rm)).src = [rn, rm] ∧ (stagesOf (.sub rd rn rm)).dest = some rd ∧
    (∀ x flags, (stagesOf (.sub rd rn rm)).exec x flags =
      { computed := some (RegFile.read x rn - RegFile.read x rm), ea := none
        flags := some (nzFlags (RegFile.read x rn - RegFile.read x rm)), redirect := none }) ∧
    (∀ p m ea c, (stagesOf (.sub rd rn rm)).memOp p m ea c =
      .ok { computed := c, latency := 0, mem := m }) ∧
    (∀ v, (stagesOf (.sub rd rn rm)).retire (some v) = { write := some (rd, v), halts := false }) ∧
    (∀ s : State, exec (.sub rd rn rm) s = .next { s with
      x := RegFile.write s.x rd (RegFile.read s.x rn - RegFile.read s.x rm)
      flags := nzFlags (RegFile.read s.x rn - RegFile.read s.x rm)
      cycles := s.cycles + 5 }) ∧
    (∀ low : BitVec 14, decode (encode (.sub rd rn rm) ||| low.setWidth 32) = .ok (.sub rd rn rm)) ∧
    (∀ a : Word, a - a = 0 ∧ flagZ (nzFlags (a - a)) = true ∧ flagN (nzFlags (a - a)) = false) ∧
    encode (.sub 1 1 3) = 0x1444C000

/-- R201, `B target`: always redirects; in pipelined mode it costs one bubble, the advance in which it executes leaves `slot[E]`
empty and fetches at the target. -/
def Obligations.BRule : Prop :=
  ∀ t : Target,
    encode (.b t) = encodeJ 6 t ∧ (encode (.b t)) &&& 0xFC000000 = 0x18000000 ∧
    (stagesOf (.b t)).src = [] ∧ (stagesOf (.b t)).dest = none ∧
    (∀ x flags, (stagesOf (.b t)).exec x flags =
      { computed := none, ea := none, flags := none, redirect := some (t.setWidth 32) }) ∧
    (∀ p m ea c, (stagesOf (.b t)).memOp p m ea c = .ok { computed := c, latency := 0, mem := m }) ∧
    (∀ c, (stagesOf (.b t)).retire c = RetireOut.nothing) ∧
    (∀ s : State, exec (.b t) s = .next { s with pc := t.setWidth 32, cycles := s.cycles + 5 }) ∧
    (∀ (s u : State) (r : InstrRecord), s.pipelining → s.slotE = .instr r → r.effective = some (.b t) →
      step s = .next u → u.fault = none → u.stalledMemory = false →
      u.slotE = .bubble ∧ u.pc = t.setWidth 32 + 1) ∧
    encode (.b 0) = 0x18000000

/-- R202, `BEQ target`: taken exactly when `Z` is 1; not taken with the flags of reset. -/
def Obligations.BeqRule : Prop :=
  ∀ t : Target,
    encode (.beq t) = encodeJ 7 t ∧ (encode (.beq t)) &&& 0xFC000000 = 0x1C000000 ∧
    (stagesOf (.beq t)).src = [] ∧ (stagesOf (.beq t)).dest = none ∧
    (∀ x flags, (stagesOf (.beq t)).exec x flags =
      { computed := none, ea := none, flags := none
        redirect := if flagZ flags = true then some (t.setWidth 32) else none }) ∧
    (∀ p m ea c, (stagesOf (.beq t)).memOp p m ea c = .ok { computed := c, latency := 0, mem := m }) ∧
    (∀ c, (stagesOf (.beq t)).retire c = RetireOut.nothing) ∧
    (∀ s : State, exec (.beq t) s = .next { s with
      pc := if flagZ s.flags = true then t.setWidth 32 else s.pc, cycles := s.cycles + 5 }) ∧
    (∀ (p : Params) (x : RegFile), ((stagesOf (.beq t)).exec x (State.resetWith p).flags).redirect = none) ∧
    encode (.beq 7) = 0x1C000007

/-- R203, `BNE target`: taken exactly when `Z` is 0; taken with the flags of reset. -/
def Obligations.BneRule : Prop :=
  ∀ t : Target,
    encode (.bne t) = encodeJ 8 t ∧ (encode (.bne t)) &&& 0xFC000000 = 0x20000000 ∧
    (stagesOf (.bne t)).src = [] ∧ (stagesOf (.bne t)).dest = none ∧
    (∀ x flags, (stagesOf (.bne t)).exec x flags =
      { computed := none, ea := none, flags := none
        redirect := if flagZ flags = false then some (t.setWidth 32) else none }) ∧
    (∀ p m ea c, (stagesOf (.bne t)).memOp p m ea c = .ok { computed := c, latency := 0, mem := m }) ∧
    (∀ c, (stagesOf (.bne t)).retire c = RetireOut.nothing) ∧
    (∀ s : State, exec (.bne t) s = .next { s with
      pc := if flagZ s.flags = false then t.setWidth 32 else s.pc, cycles := s.cycles + 5 }) ∧
    (∀ (p : Params) (x : RegFile),
      ((stagesOf (.bne t)).exec x (State.resetWith p).flags).redirect = some (t.setWidth 32)) ∧
    encode (.bne 2) = 0x20000002

/-! ### Frames of whole instructions -/

/-- ADDI, ADD, SUB leave everything but their destination register, the flags and `cycles` as it was: every other register, pc, sp,
the slots, latches, mode, parameters, and every Word of memory; and of the flags Word bits 31 to 2 are zero (spec/43_arithmetic.md). -/
def Obligations.ArithmeticFrame : Prop :=
  ∀ (i : Instr) (rd rn rm : RegNum) (imm : Imm18) (s t : State),
    i = .addi rd rn imm ∨ i = .add rd rn rm ∨ i = .sub rd rn rm → exec i s = .next t →
    (∀ r, r ≠ rd → RegFile.read t.x r = RegFile.read s.x r) ∧
    flagsReservedZero t.flags = true ∧
    t.pc = s.pc ∧ t.sp = s.sp ∧ t.slotF = s.slotF ∧ t.slotD = s.slotD ∧ t.slotE = s.slotE ∧
    t.slotM = s.slotM ∧ t.slotW = s.slotW ∧ t.stalledFetch = s.stalledFetch ∧
    t.stalledMemory = s.stalledMemory ∧ t.overlapped = s.overlapped ∧ t.halted = s.halted ∧
    t.fault = s.fault ∧ t.params = s.params ∧ t.mem = s.mem ∧
    ∀ a, t.mem.view t.params a = s.mem.view s.params a

/-- NOP, HALT, B, BEQ, BNE leave every register, the flags, sp, the slots, the stall flags, the mode, the fault latch, the
parameters and every Word of memory as they were; of them only HALT changes `halted` (spec/41_system.md, spec/44_branch.md). -/
def Obligations.BranchAndSystemFrame : Prop :=
  ∀ (i : Instr) (g : Target) (s t : State),
    i = .nop ∨ i = .halt ∨ i = .b g ∨ i = .beq g ∨ i = .bne g → exec i s = .next t →
    (∀ r, RegFile.read t.x r = RegFile.read s.x r) ∧ t.flags = s.flags ∧ t.sp = s.sp ∧
    t.slotF = s.slotF ∧ t.slotD = s.slotD ∧ t.slotE = s.slotE ∧ t.slotM = s.slotM ∧
    t.slotW = s.slotW ∧ t.stalledFetch = s.stalledFetch ∧ t.stalledMemory = s.stalledMemory ∧
    t.overlapped = s.overlapped ∧ t.fault = s.fault ∧ t.params = s.params ∧ t.mem = s.mem ∧
    (i ≠ .halt → t.halted = s.halted) ∧
    ∀ a, t.mem.view t.params a = s.mem.view s.params a

/-- LDR leaves every register but `rd`, the flags, pc, sp, the slots, latches and parameters, and what every address reads as, as they
were; with the address out of range it leaves `rd`, `cycles` and the whole memory subsystem too (spec/42_load_store.md). -/
def Obligations.LoadFrame : Prop :=
  ∀ (rd rn : RegNum) (imm : Imm18) (s t : State), exec (.ldr rd rn imm) s = .next t →
    (∀ r, r ≠ rd → RegFile.read t.x r = RegFile.read s.x r) ∧ t.flags = s.flags ∧ t.pc = s.pc ∧
    t.sp = s.sp ∧ t.slotF = s.slotF ∧ t.slotD = s.slotD ∧ t.slotE = s.slotE ∧ t.slotM = s.slotM ∧
    t.slotW = s.slotW ∧ t.stalledFetch = s.stalledFetch ∧ t.stalledMemory = s.stalledMemory ∧
    t.overlapped = s.overlapped ∧ t.halted = s.halted ∧ t.params = s.params ∧
    ((effectiveAddress s.x rn imm).toNat < s.params.ramCapacity → t.fault = s.fault) ∧
    (s.params.ramCapacity ≤ (effectiveAddress s.x rn imm).toNat →
      t.x = s.x ∧ t.mem = s.mem ∧ t.cycles = s.cycles) ∧
    (s.params.legal → s.mem.Inv s.params → ∀ a < s.params.ramCapacity,
      t.mem.view t.params a = s.mem.view s.params a)

/-- STR leaves every register, the flags, pc, sp, the slots, latches and parameters as they were, and what every address reads as but
the one stored to, which reads as the stored register; with the address out of range it leaves the whole memory subsystem and
`cycles` too (spec/42_load_store.md). -/
def Obligations.StoreFrame : Prop :=
  ∀ (rd rn : RegNum) (imm : Imm18) (s t : State), exec (.str rd rn imm) s = .next t →
    (∀ r, RegFile.read t.x r = RegFile.read s.x r) ∧ t.flags = s.flags ∧ t.pc = s.pc ∧
    t.sp = s.sp ∧ t.slotF = s.slotF ∧ t.slotD = s.slotD ∧ t.slotE = s.slotE ∧ t.slotM = s.slotM ∧
    t.slotW = s.slotW ∧ t.stalledFetch = s.stalledFetch ∧ t.stalledMemory = s.stalledMemory ∧
    t.overlapped = s.overlapped ∧ t.halted = s.halted ∧ t.params = s.params ∧
    (s.params.ramCapacity ≤ (effectiveAddress s.x rn imm).toNat →
      t.mem = s.mem ∧ t.cycles = s.cycles) ∧
    (s.params.legal → s.mem.Inv s.params →
      (effectiveAddress s.x rn imm).toNat < s.params.ramCapacity →
      t.fault = s.fault ∧
      t.mem.view t.params (effectiveAddress s.x rn imm).toNat = RegFile.read s.x rd ∧
      ∀ a < s.params.ramCapacity, a ≠ (effectiveAddress s.x rn imm).toNat →
        t.mem.view t.params a = s.mem.view s.params a)

/-- The flag function: `Z` says the result is 0, `N` is its bit 31, bits 31 to 2 are zero, and the Word is the one the codec's `set`
builds under the layout `FLAGS`; no other instruction than ADDI, ADD, SUB writes the flags (spec/43_arithmetic.md, R190). -/
def Obligations.FlagFunction : Prop :=
  (∀ r : Word, (flagZ (nzFlags r) = true ↔ r = 0) ∧ flagN (nzFlags r) = r.getLsbD 31 ∧
    flagsReservedZero (nzFlags r) = true ∧
    ((layoutFlags.set 0 "Z" (if r = 0 then 1 else 0)).bind fun w =>
      layoutFlags.set w "N" (if r.getLsbD 31 then 1 else 0)) = .ok (nzFlags r).toNat) ∧
  ∀ (i : Instr) (x : RegFile) (flags : Word), ((stagesOf i).exec x flags).flags = none ↔
    ¬ ((∃ rd rn imm, i = .addi rd rn imm) ∨ (∃ rd rn rm, i = .add rd rn rm) ∨
      ∃ rd rn rm, i = .sub rd rn rm)

/-! ### The engine -/

/-- The meaning of an instruction is its three stage functions run one after the other, `Exec`, `MemOp`, `Retire`, the ones the
pipelined engine calls at different advances (spec/40_pipeline_engine.md section 4, R149, R154). -/
def Obligations.ExecIsItsStages : Prop :=
  ∀ (i : Instr) (s : State),
    (∀ o, (stagesOf i).memOp s.params s.mem ((stagesOf i).exec s.x s.flags).ea
        ((stagesOf i).exec s.x s.flags).computed = .ok o →
      exec i s = .next { s with
        flags := ((stagesOf i).exec s.x s.flags).flags.getD s.flags
        pc := ((stagesOf i).exec s.x s.flags).redirect.getD s.pc
        mem := o.mem
        x := (s.applyRetire ((stagesOf i).retire o.computed)).x
        halted := (s.applyRetire ((stagesOf i).retire o.computed)).halted
        cycles := s.cycles + 5 + o.latency }) ∧
    (∀ f, (stagesOf i).memOp s.params s.mem ((stagesOf i).exec s.x s.flags).ea
        ((stagesOf i).exec s.x s.flags).computed = .error f →
      exec i s = .next { s with
        flags := ((stagesOf i).exec s.x s.flags).flags.getD s.flags
        pc := ((stagesOf i).exec s.x s.flags).redirect.getD s.pc
        fault := some f })

/-- A step runs the decoded instruction: in sequential mode, when the Word fetched at pc decodes to a well-formed instruction, the step
is that instruction's meaning at the state the fetch left, with pc past the Word (spec/40_pipeline_engine.md section 4, R149). -/
def Obligations.StepRunsDecodedInstruction : Prop :=
  ∀ (s : State) (r : ReadResult) (i : Instr), s.sequencing →
    memRead s.params s.mem s.pc = .ok r → decode r.word = .ok i → i.wellFormed = true →
    step s = exec i { s with mem := r.mem, pc := s.pc + 1 }

/-- A Word that decodes to nothing runs inert: in sequential mode the step moves pc past it and counts five cycle units; in the
pipeline its record is processed with functions that write nothing (spec/40_pipeline_engine.md sections 3 and 4, R143, R150). The
status of the advance that decodes it lists it in `decode_errors`, once, and that of the advance that retires it, in sequential mode
the same, reports it as retired; the core goes on (section 5, R152; spec/60_exceptions.md R234). The sequential clause gives the whole
reported record: that its `mem_issued` and `mem_remaining` are 0 is the model's choice (log entry 14, DEDUCED: R149 does not run the
issue lines of R133). -/
def Obligations.InertInstruction : Prop :=
  (∀ (s : State) (r : ReadResult) (e : DecodeError), s.sequencing →
    memRead s.params s.mem s.pc = .ok r → decode r.word = .error e →
    step s = .next { s with mem := r.mem, pc := s.pc + 1, cycles := s.cycles + 5 } ∧
    s.advanceStatus =
      { performed := true, retired := some { newInstruction r.word s.pc with decodeError := true }
        decodeErrors := [{ newInstruction r.word s.pc with decodeError := true }]
        error := none, halted := false }) ∧
  (∀ (s t : State) (r : InstrRecord) (e : DecodeError), s.pipelining → s.slotD = .instr r →
    decode r.raw = .error e → r.decodeError = false → s.executeOut.redirect = none →
    step s = .next t → t.fault = none → t.stalledMemory = false →
    t.slotE = .instr { r with decodeError := true } ∧
    s.advanceStatus.decodeErrors = [{ r with decodeError := true }]) ∧
  (∀ (s : State) (r : InstrRecord), s.pipelining → s.slotW = .instr r → r.decodeError = true →
    s.advanceStatus.retired = some r ∧ s.executeRegs = s.x) ∧
  (∀ (r : InstrRecord) (e : DecodeError), decode r.raw = .error e → r.decodeError = false →
    r.decodeStep = { r with decodeError := true }) ∧
  (∀ r : InstrRecord, r.decodeError = true →
    r.stages.src = [] ∧ r.stages.dest = none ∧
    (∀ x flags, r.stages.exec x flags = ExecOut.nothing) ∧
    (∀ p m ea c, r.stages.memOp p m ea c = .ok { computed := c, latency := 0, mem := m }) ∧
    (∀ c, r.stages.retire c = RetireOut.nothing))

/-- In pipelined mode the registers and `halted` after a step are those that retiring `slot[W]` gives, whatever the later steps
do, errors included: Writeback is the only writer (spec/40_pipeline_engine.md section 2, R132; spec/10_state.md section 1, R21).
-/
def Obligations.WritebackIsTheOnlyWriter : Prop :=
  ∀ s t : State, s.pipelining → step s = .next t →
    t.x = (s.applyRetire s.slotW.retireOut).x ∧ t.halted = (s.applyRetire s.slotW.retireOut).halted

/-- Stall length (spec/40_pipeline_engine.md section 2, "derived: from rule R133"): an access that reports latency `L` keeps its
instruction in `slot[M]`, with both stall flags set, at the end of exactly `max(L - 1, 0)` consecutive advances beginning with the
one that issues it, the slots behind it held; at the next advance it moves to `slot[W]` and the flags clear; with the default
parameters a hit does not stall and a miss stalls three. (An advance that retires `HALT` stops the core, R147: the one that issues
must retire none.) -/
def Obligations.StallLength : Prop :=
  (∀ (s : State) (r : InstrRecord) (o : MemOut), s.pipelining → s.slotM = .instr r →
    r.memIssued = false → r.stages.memOp s.params s.mem r.ea r.computed = .ok o →
    s.slotW.retireOut.halts = false →
    (∀ k, 1 ≤ k → k ≤ o.latency - 1 →
      (State.advanced^[k] s).stalledMemory = true ∧ (State.advanced^[k] s).stalledFetch = true ∧
      (State.advanced^[k] s).slotM = .instr { r with
        computed := o.computed, memIssued := true, memRemaining := o.latency - k } ∧
      (State.advanced^[k] s).mem = o.mem ∧
      (State.advanced^[k] s).slotW = .bubble ∧ (State.advanced^[k] s).slotE = s.slotE ∧
      (State.advanced^[k] s).slotD = s.slotD ∧ (State.advanced^[k] s).pc = s.pc) ∧
    (State.advanced^[max o.latency 1] s).stalledMemory = false ∧
    (State.advanced^[max o.latency 1] s).stalledFetch = false ∧
    (State.advanced^[max o.latency 1] s).slotW = .instr { r with
      computed := o.computed, memIssued := true, memRemaining := 0 }) ∧
  Params.defaults.readLatency - 1 = 0 ∧ Params.defaults.writeLatency - 1 = 0 ∧
  Params.defaults.readLatency + Params.defaults.missPenalty - 1 = 3 ∧
  Params.defaults.writeLatency + Params.defaults.missPenalty - 1 = 3

/-- What Execute, Decode and Fetch do in a pipelined advance that no error stops. Unstalled: the instruction in `slot[E]` executes with
the registers as Writeback has just left them and without the write still pending in front of it, writes the flags, and moves to
`slot[M]`; a redirect goes to pc and replaces `slot[D]` by a bubble; what stood in `slot[D]` is decoded into `slot[E]`; the
instruction fetched from the (redirected) pc goes to `slot[D]` and pc moves on by one. Stalled: all of this is held
(spec/40_pipeline_engine.md sections 2 and 3, R135 to R137, R146; spec/70_reset_and_hazards.md section 2, R263). -/
def Obligations.UnstalledAdvanceMoves : Prop :=
  ∀ s t : State, s.pipelining → step s = .next t → t.fault = none →
    (t.stalledMemory = false →
      t.flags = s.executeOut.flags.getD s.flags ∧
      t.slotM = (match s.slotE with
        | .bubble => .bubble
        | .instr r => .instr (r.afterExec s.executeOut)) ∧
      t.slotE = (if s.executeOut.redirect.isSome then .bubble else s.slotD.afterDecode) ∧
      t.pc = s.executeOut.redirect.getD s.pc + 1 ∧
      ∃ w, t.slotD = .instr (newInstruction w (s.executeOut.redirect.getD s.pc))) ∧
    (t.stalledMemory = true →
      t.flags = s.flags ∧ t.slotE = s.slotE ∧ t.slotD = s.slotD ∧ t.pc = s.pc ∧ t.slotW = .bubble)

/-- The Word fetched in an unstalled advance is what its address reads as at the end of the advance: the fetch sees the store that
the same advance issued (spec/20_memory.md section 4, R74). -/
def Obligations.FetchedWordIsTheView : Prop :=
  ∀ s t : State, s.Inv → s.pipelining → step s = .next t → t.fault = none →
    t.stalledMemory = false →
    ∃ w a : Word, t.slotD = .instr (newInstruction w a) ∧ t.pc = a + 1 ∧
      a.toNat < s.params.ramCapacity ∧ w = t.mem.view t.params a.toNat

/-- With `RAW_POLICY = fault`, an instruction about to execute that reads the destination of the instruction directly before it
stops the core with `HazardViolation` at its own address, unexecuted, the producer unretired, the advance not counted; with
`stale` no step raises it. It is raised exactly then: a pipelined step of a core without a fault that latches `HazardViolation` has
`RAW_POLICY = fault` and that dependence, and a sequential step never latches it (spec/70_reset_and_hazards.md section 2, R264). -/
def Obligations.HazardPolicy : Prop :=
  (∀ (s : State) (q r q1 : InstrRecord) (d : RegNum) (m : MemSys), s.pipelining →
    s.params.rawPolicy = .fault → s.slotM = .instr q → s.slotE = .instr r →
    issueMem s.params s.mem q = .ok (q1, m) → q1.memRemaining ≤ 1 →
    q.stages.dest = some d → d ∈ r.stages.src →
    ∃ t, step s = .next t ∧
      t.fault = some { kind := .hazardViolation, addr := r.origin, stage := .E } ∧
      t.slotE = .instr r ∧ t.slotW = .instr { q1 with memRemaining := 0 } ∧ t.slotM = .bubble ∧
      t.slotD = s.slotD ∧ t.flags = s.flags ∧ t.pc = s.pc ∧ t.cycles = s.cycles) ∧
  (∀ (s t : State) (f : FaultRecord), s.params.rawPolicy = .stale → s.fault = none →
    step s = .next t → t.fault = some f → f.kind = .addressOutOfRange) ∧
  (∀ (s t : State) (f : FaultRecord), s.pipelining → step s = .next t → t.fault = some f →
    f.kind = .hazardViolation →
    s.params.rawPolicy = .fault ∧
    ∃ (q r q1 : InstrRecord) (d : RegNum) (m : MemSys), s.slotM = .instr q ∧ s.slotE = .instr r ∧
      issueMem s.params s.mem q = .ok (q1, m) ∧ q1.memRemaining ≤ 1 ∧
      q.stages.dest = some d ∧ d ∈ r.stages.src ∧ f.addr = r.origin ∧ f.stage = .E) ∧
  (∀ (s t : State) (f : FaultRecord), s.sequencing → step s = .next t → t.fault = some f →
    f.kind = .addressOutOfRange)

/-- A fetch from an address at or beyond RAM_CAPACITY stops the core: in pipelined mode after steps 1 to 4, with pc at the offending
address, `slot[D]` a bubble and the advance not counted; in sequential mode with nothing changed but the latch
(spec/60_exceptions.md section 1, R231). -/
def Obligations.FetchFaultState : Prop :=
  (∀ s : State, s.pipelining → s.slotM = .bubble → s.slotE = .bubble →
    s.params.ramCapacity ≤ s.pc.toNat →
    ∃ t, step s = .next t ∧
      t.fault = some { kind := .addressOutOfRange, addr := s.pc, stage := .F } ∧
      t.slotE = s.slotD.afterDecode ∧ t.slotD = .bubble ∧ t.pc = s.pc ∧ t.cycles = s.cycles ∧
      t.mem = s.mem) ∧
  (∀ (s t : State) (f : FaultRecord), s.pipelining → step s = .next t → t.fault = some f →
    f.stage = .F →
    f.kind = .addressOutOfRange ∧ f.addr = t.pc ∧ t.params.ramCapacity ≤ t.pc.toNat ∧
      t.pc = s.executeOut.redirect.getD s.pc ∧ t.slotD = .bubble ∧ t.cycles = s.cycles ∧
      t.stalledMemory = false ∧ t.flags = s.executeOut.flags.getD s.flags) ∧
  (∀ s : State, s.sequencing → s.params.ramCapacity ≤ s.pc.toNat →
    step s = .next { s with fault := some { kind := .addressOutOfRange, addr := s.pc, stage := .F } })

/-- A load or store whose address is at or beyond RAM_CAPACITY stops the core in step 2 of the advance that would issue it: the older
instruction has retired, and nothing else has changed but the latch (spec/60_exceptions.md section 1, R232). -/
def Obligations.DataFaultState : Prop :=
  ∀ (s : State) (r : InstrRecord) (a : Word), s.pipelining → s.slotM = .instr r →
    r.memIssued = false → r.isAccess = true → r.executed false = true → r.ea = some a →
    s.params.ramCapacity ≤ a.toNat →
    step s = .next { s.applyRetire s.slotW.retireOut with
      slotW := .bubble
      fault := some { kind := .addressOutOfRange, addr := a, stage := .M } }

/-- R140: a completed pipelined advance counts one cycle, the one that retires `HALT` included; one that an error stops does
not. -/
def Obligations.CycleCountPipelined : Prop :=
  ∀ s t : State, s.pipelining → step s = .next t →
    (t.fault = none → t.cycles = s.cycles + 1) ∧ (t.fault ≠ none → t.cycles = s.cycles)

/-- `cycles` never decreases, and a step that leaves the core without a fault and started with it running adds at least one
(spec/10_state.md sections 1 and 5, R27, R41 (h)). -/
def Obligations.CyclesNeverDecrease : Prop :=
  ∀ s t : State, step s = .next t →
    s.cycles ≤ t.cycles ∧ (s.stopped = false → t.fault = none → s.cycles < t.cycles)

/-- R130: once `halted` is set or a fault is latched, a step changes no state at all; otherwise the mode selects what the step is. -/
def Obligations.StoppedCoreDoesNothing : Prop :=
  ∀ s : State,
    (s.halted = true ∨ s.fault ≠ none → step s = .next s ∧ s.advanceStatus.performed = false) ∧
    (¬ (s.halted = true ∨ s.fault ≠ none) →
      (s.overlapped = true → step s = .next (advancePipelined s)) ∧
      (s.overlapped = false → step s = advanceSequential s))

/-- A step always answers a next state (spec/45_host_operations.md, R210), and the status it returns says what it did
(spec/40_pipeline_engine.md section 5, R152): `performed` unless the core had stopped; `retired` the record Writeback processed, in
sequential mode that of the instruction run, unless an error stopped it; `decode_errors` the record Decode found undecodable, in
pipelined mode if Decode ran in this advance and the record was not squashed; `error` the fault latched; `halted` the latch. -/
def Obligations.StepAlwaysAnswersNext : Prop :=
  ∀ s : State, ∃ t, step s = .next t ∧
    (s.stopped = true → s.advanceStatus =
      { performed := false, retired := none, decodeErrors := [], error := none, halted := t.halted }) ∧
    (s.stopped = false → s.advanceStatus.performed = true ∧ s.advanceStatus.error = t.fault ∧
      s.advanceStatus.halted = t.halted) ∧
    (s.pipelining →
      (s.slotW = .bubble → s.advanceStatus.retired = none) ∧
      (∀ r, s.slotW = .instr r → s.advanceStatus.retired = some r)) ∧
    (s.pipelining → s.slotD.fetchedOk = true →
      (t.fault = none ∧ t.stalledMemory = false ∨ (∃ f, t.fault = some f ∧ f.stage = .F) →
        s.executeOut.redirect = none →
        s.advanceStatus.decodeErrors = match s.slotD with
          | .bubble => []
          | .instr r =>
            match decode r.raw with
            | .ok _ => []
            | .error _ => [{ r with decodeError := true }]) ∧
      (s.executeOut.redirect.isSome = true ∨ t.fault = none ∧ t.stalledMemory = true ∨
          (∃ f, t.fault = some f ∧ f.stage ≠ .F) →
        s.advanceStatus.decodeErrors = [])) ∧
    (s.sequencing →
      (∀ k, memRead s.params s.mem s.pc = .error k →
        s.advanceStatus.retired = none ∧ s.advanceStatus.decodeErrors = []) ∧
      (t.fault ≠ none → s.advanceStatus.retired = none) ∧
      (∀ q, memRead s.params s.mem s.pc = .ok q →
        s.advanceStatus.decodeErrors = (match decode q.word with
          | .ok _ => []
          | .error _ => [{ newInstruction q.word s.pc with decodeError := true }]) ∧
        (t.fault = none →
          ∃ r, s.advanceStatus.retired = some r ∧ r.raw = q.word ∧ r.origin = s.pc ∧
            r.opcode = opcodeOf q.word ∧
            (∀ i, decode q.word = .ok i → r.decoded = some i ∧ r.decodeError = false) ∧
            (∀ e, decode q.word = .error e → r.decoded = none ∧ r.decodeError = true))))

/-- No step changes `sp`, the mode, the parameters or the cache enable, and the eviction log only grows at its end
(spec/10_state.md, R23, R28, R36, R37; spec/45_host_operations.md, R219). -/
def Obligations.StepNeverChanges : Prop :=
  ∀ s t : State, step s = .next t →
    t.sp = s.sp ∧ t.overlapped = s.overlapped ∧ t.params = s.params ∧
    t.mem.cacheEnabled = s.mem.cacheEnabled ∧ s.mem.evictions <+: t.mem.evictions

/-- No instruction is lost, duplicated or overtaken: listed oldest first, the instructions in flight after a pipelined advance that no
error stops are those before it without the one retired and without one squashed, with the one fetched, if any, at the end
(spec/40_pipeline_engine.md section 3, R144). -/
def Obligations.InFlightInOrder : Prop :=
  ∀ s t : State, s.pipelining → step s = .next t → t.fault = none →
    (t.stalledMemory = true →
      t.slotW.ids ++ t.slotM.ids ++ t.slotE.ids ++ t.slotD.ids =
        s.slotM.ids ++ s.slotE.ids ++ s.slotD.ids) ∧
    (t.stalledMemory = false →
      ∃ w, t.slotW.ids ++ t.slotM.ids ++ t.slotE.ids ++ t.slotD.ids =
        s.slotM.ids ++ s.slotE.ids ++ (if s.executeOut.redirect.isSome then [] else s.slotD.ids) ++
          [(w, s.executeOut.redirect.getD s.pc)])

/-- What memory reads as changes in a step only by the store the step issues, and only at that store's address: no fetch, load,
eviction, branch or error changes it (spec/20_memory.md sections 3 and 4, R70, R78). -/
def Obligations.ViewChangesOnlyByStore : Prop :=
  ∀ s t : State, s.Inv → step s = .next t → ∀ b < s.params.ramCapacity,
    t.mem.view t.params b =
      match s.storeIssued with
      | some (a, v) => if b = a.toNat then v else s.mem.view s.params b
      | none => s.mem.view s.params b

/-! ### Host operations -/

/-- R211: `cycle(n)` is `n` calls of `advance()` with the list of their statuses; `cycle(0)` does nothing; stopping early and not
stopping make no difference to the state; in sequential mode each call that does not stop the core adds at least 5 to `cycles`. -/
def Obligations.CycleIsRepeatedAdvance : Prop :=
  (∀ (n : Nat) (s : State),
    cycle n s = ((List.range n).map (fun k => (State.advanced^[k] s).advanceStatus), State.advanced^[n] s)) ∧
  (∀ (n k : Nat) (s : State), (State.advanced^[k] s).stopped = true → k ≤ n →
    (cycle n s).2 = (cycle k s).2) ∧
  ∀ s t : State, s.sequencing → step s = .next t → t.fault = none → s.cycles + 5 ≤ t.cycles

/-- The bounded driver: `Completed` means `halted` with no fault, `Faulted` carries the latch, and `CycleLimitExceeded` means a core
neither halted nor faulted whose counter has grown by at least `K`, by exactly `K` in pipelined mode, by less than `K + 5 + Lmax` in
sequential mode, `Lmax` the largest latency of R67. It advances until the first state that meets one of its three tests and no
further, at most `K` times (spec/45_host_operations.md, R212). -/
def Obligations.RunToCompletion : Prop :=
  ∀ (K : Nat) (s t : State) (r : RunResult), runToCompletion K s = (r, t) →
    (r = .completed → t.halted = true ∧ t.fault = none) ∧
    (∀ f, r = .faulted f → t.fault = some f) ∧
    (r = .cycleLimitExceeded → t.halted = false ∧ t.fault = none ∧ s.cycles + K ≤ t.cycles ∧
      (s.overlapped = true → t.cycles = s.cycles + K) ∧
      (s.overlapped = false →
        t.cycles < s.cycles + K + 5 +
          max s.params.ramLatency (max s.params.readLatency s.params.writeLatency + s.params.missPenalty))) ∧
    ∃ n, n ≤ K ∧ t = State.advanced^[n] s ∧
      ∀ j < n, (State.advanced^[j] s).fault = none ∧ (State.advanced^[j] s).halted = false ∧
        (State.advanced^[j] s).cycles < s.cycles + K

/-- `set_mode` changes the mode flag and nothing else when the pipeline is drained, and is refused otherwise
(spec/45_host_operations.md, R213). -/
def Obligations.SetModeOnlyWhenDrained : Prop :=
  ∀ (s : State) (b : Bool),
    (s.slotF = .bubble → s.slotD = .bubble → s.slotE = .bubble → s.slotM = .bubble →
      s.slotW = .bubble → s.stalledFetch = false → s.stalledMemory = false →
      s.setMode b = .next { s with overlapped := b }) ∧
    (s.slotF ≠ .bubble ∨ s.slotD ≠ .bubble ∨ s.slotE ≠ .bubble ∨ s.slotM ≠ .bubble ∨
      s.slotW ≠ .bubble ∨ s.stalledFetch = true ∨ s.stalledMemory = true →
      s.setMode b = .refused .notDrained)

/-- Before the first `advance()` (`cycles` 0, the slots bubbles, no valid line; that no fault is latched is the model's test for a
first advance that an error stopped, log entry 16), `load_program` puts the program's Words into RAM from address 0 and `ram_write`
one Word at its address; memory then reads as RAM there and everything else is as it was; a list longer than RAM and an address
beyond it are refused. Reset gives such a state; a step that does anything leaves it for good, and both operations are then refused
with nothing changed (spec/45_host_operations.md, R216, R217). -/
def Obligations.LoadProgramPlacesWords : Prop :=
  (∀ s : State, s.beforeFirstAdvance = true ↔
    s.cycles = 0 ∧ s.slotF = .bubble ∧ s.slotD = .bubble ∧ s.slotE = .bubble ∧ s.slotM = .bubble ∧
      s.slotW = .bubble ∧ (∀ c ∈ s.mem.sets, ∀ l ∈ c.lines, l.valid = false) ∧ s.fault = none) ∧
  (∀ p : Params, (State.resetWith p).beforeFirstAdvance = true ∧ (State.resetWith p).mem.ram.wf ∧
    ∀ a, (State.resetWith p).mem.ram.read a = 0) ∧
  (∀ s : State, s.beforeFirstAdvance = true → s.mem.ram.wf →
    (∀ ws, s.params.ramCapacity < ws.length → s.loadProgram ws = .refused .programTooLong) ∧
    (∀ ws, ws.length ≤ s.params.ramCapacity →
      ∃ t, s.loadProgram ws = .next t ∧
        (∀ k (h : k < ws.length), t.mem.ram.read k = ws[k]) ∧
        (∀ k, ws.length ≤ k → t.mem.ram.read k = s.mem.ram.read k) ∧
        (∀ k, t.mem.view t.params k = t.mem.ram.read k) ∧
        t = { s with mem := { s.mem with ram := t.mem.ram } } ∧
        t.beforeFirstAdvance = true ∧ t.mem.ram.wf) ∧
    (∀ a v, s.params.ramCapacity ≤ a → s.ramWrite a v = .refused .outOfDomain) ∧
    (∀ a v, a < s.params.ramCapacity →
      ∃ t, s.ramWrite a v = .next t ∧ t.mem.ram.read a = v ∧
        (∀ k, k ≠ a → t.mem.ram.read k = s.mem.ram.read k) ∧
        (∀ k, t.mem.view t.params k = t.mem.ram.read k) ∧
        t = { s with mem := { s.mem with ram := t.mem.ram } } ∧
        t.beforeFirstAdvance = true ∧ t.mem.ram.wf)) ∧
  (∀ s : State, s.beforeFirstAdvance = false →
    (∀ ws, s.loadProgram ws = .refused .notBeforeFirstAdvance) ∧
    (∀ a v, s.ramWrite a v = .refused .notBeforeFirstAdvance)) ∧
  (∀ s t : State, s.stopped = false → step s = .next t → 0 < t.cycles ∨ t.fault ≠ none) ∧
  (∀ s : State, 0 < s.cycles ∨ s.fault ≠ none →
    s.beforeFirstAdvance = false ∧ (∀ t, step s = .next t → 0 < t.cycles ∨ t.fault ≠ none) ∧
    (∀ b t, s.setMode b = .next t → 0 < t.cycles ∨ t.fault ≠ none) ∧
    (0 < s.enableCache.cycles ∨ s.enableCache.fault ≠ none) ∧
    (0 < s.disableCache.cycles ∨ s.disableCache.fault ≠ none))
end

