-- ==== Sys2Proof/Laws/Memory.lean ====
section
/-! SUPPORT. RAM as a list: read after write, and that every memory operation keeps the canonical form `Memory.wf` and the capacity. -/

namespace Sys2Proof.Laws

open Sys2Proof.Machine

@[simp] theorem read_nil (a : Nat) : Memory.read [] a = Memory.unlisted := rfl

theorem wf_nil : Memory.wf [] := by decide

theorem wf_tail {c : Nat × Word} {m : Memory} (h : Memory.wf (c :: m)) : Memory.wf m := by
  simp only [Memory.wf, List.pairwise_cons, List.mem_cons] at h ⊢
  exact ⟨h.1.2, fun d hd => h.2 d (Or.inr hd)⟩

/-- Below every listed address, RAM reads as unlisted. -/
theorem read_below {m : Memory} {a : Nat} (h : ∀ c ∈ m, a < c.1) : m.read a = Memory.unlisted := by
  induction m with
  | nil => rfl
  | cons c m ih =>
    have h1 : a < c.1 := h c (by simp)
    rw [Memory.read, if_neg (by omega)]
    exact ih fun d hd => h d (by simp [hd])

/-- An address that no entry lists reads as unlisted. -/
theorem read_absent {m : Memory} {a : Nat} (h : ∀ c ∈ m, c.1 ≠ a) : m.read a = Memory.unlisted := by
  induction m with
  | nil => rfl
  | cons c m ih =>
    rw [Memory.read, if_neg fun e => h c (by simp) e.symm]
    exact ih fun d hd => h d (by simp [hd])

theorem read_write_same {m : Memory} (h : m.wf) (a : Nat) (v : Word) : (m.write a v).read a = v := by
  induction m with
  | nil => by_cases hv : v = Memory.unlisted <;> simp [Memory.write, Memory.read, hv]
  | cons c m ih =>
    obtain ⟨k, u⟩ := c
    have hk : ∀ d ∈ m, k < d.1 := (List.pairwise_cons.1 h.1).1
    by_cases h1 : a < k
    · by_cases hv : v = Memory.unlisted
      · have : ∀ d ∈ (k, u) :: m, a < d.1 := by
          intro d hd
          rcases List.mem_cons.1 hd with rfl | hd
          · exact h1
          · exact h1.trans (hk d hd)
        simp [Memory.write, h1, hv, read_below this]
      · simp [Memory.write, Memory.read, h1, hv]
    · by_cases h2 : a = k
      · subst h2
        by_cases hv : v = Memory.unlisted
        · simp [Memory.write, hv, read_below hk]
        · simp [Memory.write, Memory.read, hv]
      · simp [Memory.write, Memory.read, h1, h2, ih (wf_tail h)]

theorem read_write_ne (m : Memory) {a b : Nat} (v : Word) (hab : b ≠ a) :
    (m.write a v).read b = m.read b := by
  induction m with
  | nil => by_cases hv : v = Memory.unlisted <;> simp [Memory.write, Memory.read, hv, hab]
  | cons c m ih =>
    obtain ⟨k, u⟩ := c
    by_cases h1 : a < k
    · by_cases hv : v = Memory.unlisted <;> simp [Memory.write, Memory.read, h1, hv, hab]
    · by_cases h2 : a = k
      · subst h2
        by_cases hv : v = Memory.unlisted <;> simp [Memory.write, Memory.read, hv, hab]
      · simp [Memory.write, Memory.read, h1, h2, ih]

/-- Every entry of a written memory is an entry of the old one or the one written. -/
theorem mem_write {m : Memory} {a : Nat} {v : Word} {c : Nat × Word} (h : c ∈ m.write a v) :
    c ∈ m ∨ (c = (a, v) ∧ v ≠ Memory.unlisted) := by
  induction m with
  | nil => by_cases hv : v = Memory.unlisted <;> simp_all [Memory.write]
  | cons d m ih =>
    obtain ⟨k, u⟩ := d
    unfold Memory.write at h
    split_ifs at h with h1 hv h2 hv <;> simp only [List.mem_cons] at h ⊢
    · exact Or.inl h
    · rcases h with h | h | h
      · exact Or.inr ⟨h, hv⟩
      · exact Or.inl (Or.inl h)
      · exact Or.inl (Or.inr h)
    · exact Or.inl (Or.inr h)
    · rcases h with h | h
      · exact Or.inr ⟨h, hv⟩
      · exact Or.inl (Or.inr h)
    · rcases h with h | h
      · exact Or.inl (Or.inl h)
      · rcases ih h with h | h
        · exact Or.inl (Or.inr h)
        · exact Or.inr h

theorem wf_write {m : Memory} (h : m.wf) (a : Nat) (v : Word) : (m.write a v).wf := by
  induction m with
  | nil => by_cases hv : v = Memory.unlisted <;> simp [Memory.write, Memory.wf, hv]
  | cons c m ih =>
    obtain ⟨k, u⟩ := c
    have ht := wf_tail h
    obtain ⟨hp, hz⟩ := h
    obtain ⟨hk, hp'⟩ := List.pairwise_cons.1 hp
    unfold Memory.write
    split_ifs with h1 hv h2 hv
    · exact ⟨hp, hz⟩
    · refine ⟨List.pairwise_cons.2 ⟨fun d hd => ?_, hp⟩, fun d hd => ?_⟩
      · rcases List.mem_cons.1 hd with rfl | hd
        · exact h1
        · exact h1.trans (hk d hd)
      · rcases List.mem_cons.1 hd with rfl | hd
        · exact hv
        · exact hz d hd
    · exact ht
    · refine ⟨List.pairwise_cons.2 ⟨fun d hd => h2 ▸ hk d hd, hp'⟩, fun d hd => ?_⟩
      rcases List.mem_cons.1 hd with rfl | hd
      · exact hv
      · exact ht.2 d hd
    · have hw := ih ht
      refine ⟨List.pairwise_cons.2 ⟨fun d hd => ?_, hw.1⟩, fun d hd => ?_⟩
      · rcases mem_write hd with hd | ⟨rfl, -⟩
        · exact hk d hd
        · exact lt_of_le_of_ne (not_lt.1 h1) (Ne.symm h2)
      · rcases List.mem_cons.1 hd with rfl | hd
        · exact hz _ (by simp)
        · exact hw.2 d hd

theorem range_write {m : Memory} {cap a : Nat} {v : Word} (h : ∀ c ∈ m, c.1 < cap) (ha : a < cap) :
    ∀ c ∈ m.write a v, c.1 < cap := by
  intro c hc
  rcases mem_write hc with hc | ⟨rfl, -⟩
  · exact h c hc
  · exact ha

theorem wf_writeAll {m : Memory} (h : m.wf) (a : Nat) (ws : List Word) : (m.writeAll a ws).wf := by
  induction ws generalizing m a with
  | nil => exact h
  | cons v ws ih => exact ih (wf_write h a v) (a + 1)

theorem range_writeAll {m : Memory} {cap a : Nat} {ws : List Word} (h : ∀ c ∈ m, c.1 < cap)
    (ha : a + ws.length ≤ cap) : ∀ c ∈ m.writeAll a ws, c.1 < cap := by
  induction ws generalizing m a with
  | nil => exact h
  | cons v ws ih =>
    simp only [List.length_cons] at ha
    exact ih (range_write h (by omega)) (by omega)

/-- Outside the run written, RAM reads as before. -/
theorem read_writeAll_outside (m : Memory) (ws : List Word) {a b : Nat} (h : b < a ∨ a + ws.length ≤ b) :
    (m.writeAll a ws).read b = m.read b := by
  induction ws generalizing m a with
  | nil => rfl
  | cons v ws ih =>
    simp only [List.length_cons] at h
    rw [Memory.writeAll, ih _ (by omega), read_write_ne _ _ (by omega)]

/-- Inside the run written, RAM reads the Words written. -/
theorem read_writeAll_inside {m : Memory} (h : m.wf) (ws : List Word) {a k : Nat} (hk : k < ws.length) :
    (m.writeAll a ws).read (a + k) = ws[k] := by
  induction ws generalizing m a k with
  | nil => simp at hk
  | cons v ws ih =>
    cases k with
    | zero =>
      rw [Memory.writeAll, read_writeAll_outside _ _ (by omega)]
      simpa using read_write_same h a v
    | succ k =>
      have := ih (wf_write h a v) (a := a + 1) (k := k) (by simpa using hk)
      simpa [Memory.writeAll, Nat.add_comm, Nat.add_left_comm] using this

@[simp] theorem length_readAll (m : Memory) (a n : Nat) : (m.readAll a n).length = n := by
  simp [Memory.readAll]

theorem getD_readAll (m : Memory) {a n k : Nat} (hk : k < n) (d : Word) :
    (m.readAll a n).getD k d = m.read (a + k) := by
  simp [Memory.readAll, List.getD, hk]

/-- A run reads the same from two memories that agree on it. -/
theorem readAll_congr {m m' : Memory} {a n : Nat} (h : ∀ b, a ≤ b → b < a + n → m.read b = m'.read b) :
    m.readAll a n = m'.readAll a n := by
  simp only [Memory.readAll]
  refine List.map_congr_left fun k hk => h _ (by omega) ?_
  have := List.mem_range.1 hk
  omega

/-! ### The memory subsystem -/

theorem wf_evict {m : MemSys} {p : Params} {s : Nat} {l : Line} (h : m.ram.wf) : (m.evict p s l).ram.wf := by
  unfold MemSys.evict
  split_ifs
  · exact wf_writeAll h _ _
  · exact h

theorem wf_install {m : MemSys} {p : Params} {a : Nat} (h : m.ram.wf) : (m.install p a).1.ram.wf :=
  wf_evict (p := p) h

theorem wf_cacheRead {m : MemSys} {p : Params} {a : Nat} (h : m.ram.wf) : (m.cacheRead p a).mem.ram.wf := by
  unfold MemSys.cacheRead
  split_ifs
  · dsimp only
    split
    · exact h
    · exact wf_install h
  · exact h

theorem wf_writeMissUpdate {m : MemSys} {p : Params} {a : Nat} {v : Word} (h : m.ram.wf) :
    (m.writeMissUpdate p a v).ram.wf := by
  unfold MemSys.writeMissUpdate
  split_ifs
  · exact wf_write h a v
  · exact h

theorem wf_cacheWrite {m : MemSys} {p : Params} {a : Nat} {v : Word} (h : m.ram.wf) :
    (m.cacheWrite p a v).mem.ram.wf := by
  unfold MemSys.cacheWrite
  split_ifs
  · dsimp only
    split
    · exact h
    · exact wf_writeMissUpdate (wf_install (p := p) (a := a) h)
  · exact wf_write h a v

theorem wf_enableCache {m : MemSys} {p : Params} (h : m.ram.wf) : (m.enableCache p).ram.wf := h

theorem wf_disableCache {m : MemSys} (h : m.ram.wf) : m.disableCache.ram.wf := h

/-- Reset's memory has the canonical form. -/
theorem wf_reset (p : Params) : (State.resetWith p).mem.ram.wf := wf_nil

end Sys2Proof.Laws
end

