-- ==== Sys2Proof/Laws/State.lean ====
section
/-! SUPPORT. One lemma per field per update of the state records, each true by `rfl`, so that no later proof unfolds an update. -/

namespace Sys2Proof.Laws

open Sys2Proof.Machine

variable (s : State) (m : MemSys) (c : CacheSet) (p : Params)

/-! ### Taking an error (`State.raise`) -/

@[simp] theorem raise_params (f : FaultRecord) : (s.raise f).params = s.params := rfl
@[simp] theorem raise_x (f : FaultRecord) : (s.raise f).x = s.x := rfl
@[simp] theorem raise_pc (f : FaultRecord) : (s.raise f).pc = s.pc := rfl
@[simp] theorem raise_sp (f : FaultRecord) : (s.raise f).sp = s.sp := rfl
@[simp] theorem raise_flags (f : FaultRecord) : (s.raise f).flags = s.flags := rfl
@[simp] theorem raise_slotF (f : FaultRecord) : (s.raise f).slotF = s.slotF := rfl
@[simp] theorem raise_slotD (f : FaultRecord) : (s.raise f).slotD = s.slotD := rfl
@[simp] theorem raise_slotE (f : FaultRecord) : (s.raise f).slotE = s.slotE := rfl
@[simp] theorem raise_slotM (f : FaultRecord) : (s.raise f).slotM = s.slotM := rfl
@[simp] theorem raise_slotW (f : FaultRecord) : (s.raise f).slotW = s.slotW := rfl
@[simp] theorem raise_stalledFetch (f : FaultRecord) : (s.raise f).stalledFetch = s.stalledFetch := rfl
@[simp] theorem raise_stalledMemory (f : FaultRecord) : (s.raise f).stalledMemory = s.stalledMemory := rfl
@[simp] theorem raise_cycles (f : FaultRecord) : (s.raise f).cycles = s.cycles := rfl
@[simp] theorem raise_overlapped (f : FaultRecord) : (s.raise f).overlapped = s.overlapped := rfl
@[simp] theorem raise_halted (f : FaultRecord) : (s.raise f).halted = s.halted := rfl
@[simp] theorem raise_fault (f : FaultRecord) : (s.raise f).fault = some f := rfl
@[simp] theorem raise_mem (f : FaultRecord) : (s.raise f).mem = s.mem := rfl

/-! ### What Exec wrote (`State.applyExec`) -/

@[simp] theorem applyExec_params (e : ExecOut) : (s.applyExec e).params = s.params := rfl
@[simp] theorem applyExec_x (e : ExecOut) : (s.applyExec e).x = s.x := rfl
@[simp] theorem applyExec_pc (e : ExecOut) : (s.applyExec e).pc = e.redirect.getD s.pc := rfl
@[simp] theorem applyExec_sp (e : ExecOut) : (s.applyExec e).sp = s.sp := rfl
@[simp] theorem applyExec_flags (e : ExecOut) : (s.applyExec e).flags = e.flags.getD s.flags := rfl
@[simp] theorem applyExec_slotF (e : ExecOut) : (s.applyExec e).slotF = s.slotF := rfl
@[simp] theorem applyExec_slotD (e : ExecOut) : (s.applyExec e).slotD = s.slotD := rfl
@[simp] theorem applyExec_slotE (e : ExecOut) : (s.applyExec e).slotE = s.slotE := rfl
@[simp] theorem applyExec_slotM (e : ExecOut) : (s.applyExec e).slotM = s.slotM := rfl
@[simp] theorem applyExec_slotW (e : ExecOut) : (s.applyExec e).slotW = s.slotW := rfl
@[simp] theorem applyExec_stalledFetch (e : ExecOut) : (s.applyExec e).stalledFetch = s.stalledFetch := rfl
@[simp] theorem applyExec_stalledMemory (e : ExecOut) : (s.applyExec e).stalledMemory = s.stalledMemory := rfl
@[simp] theorem applyExec_cycles (e : ExecOut) : (s.applyExec e).cycles = s.cycles := rfl
@[simp] theorem applyExec_overlapped (e : ExecOut) : (s.applyExec e).overlapped = s.overlapped := rfl
@[simp] theorem applyExec_halted (e : ExecOut) : (s.applyExec e).halted = s.halted := rfl
@[simp] theorem applyExec_fault (e : ExecOut) : (s.applyExec e).fault = s.fault := rfl
@[simp] theorem applyExec_mem (e : ExecOut) : (s.applyExec e).mem = s.mem := rfl

/-! ### What Retire does (`State.applyRetire`) -/

@[simp] theorem applyRetire_params (r : RetireOut) : (s.applyRetire r).params = s.params := rfl
@[simp] theorem applyRetire_x (r : RetireOut) : (s.applyRetire r).x = match r.write with
      | some (rd, v) => RegFile.write s.x rd v
      | none => s.x := rfl
@[simp] theorem applyRetire_pc (r : RetireOut) : (s.applyRetire r).pc = s.pc := rfl
@[simp] theorem applyRetire_sp (r : RetireOut) : (s.applyRetire r).sp = s.sp := rfl
@[simp] theorem applyRetire_flags (r : RetireOut) : (s.applyRetire r).flags = s.flags := rfl
@[simp] theorem applyRetire_slotF (r : RetireOut) : (s.applyRetire r).slotF = s.slotF := rfl
@[simp] theorem applyRetire_slotD (r : RetireOut) : (s.applyRetire r).slotD = s.slotD := rfl
@[simp] theorem applyRetire_slotE (r : RetireOut) : (s.applyRetire r).slotE = s.slotE := rfl
@[simp] theorem applyRetire_slotM (r : RetireOut) : (s.applyRetire r).slotM = s.slotM := rfl
@[simp] theorem applyRetire_slotW (r : RetireOut) : (s.applyRetire r).slotW = s.slotW := rfl
@[simp] theorem applyRetire_stalledFetch (r : RetireOut) : (s.applyRetire r).stalledFetch = s.stalledFetch := rfl
@[simp] theorem applyRetire_stalledMemory (r : RetireOut) : (s.applyRetire r).stalledMemory = s.stalledMemory := rfl
@[simp] theorem applyRetire_cycles (r : RetireOut) : (s.applyRetire r).cycles = s.cycles := rfl
@[simp] theorem applyRetire_overlapped (r : RetireOut) : (s.applyRetire r).overlapped = s.overlapped := rfl
@[simp] theorem applyRetire_halted (r : RetireOut) : (s.applyRetire r).halted = (s.halted || r.halts) := rfl
@[simp] theorem applyRetire_fault (r : RetireOut) : (s.applyRetire r).fault = s.fault := rfl
@[simp] theorem applyRetire_mem (r : RetireOut) : (s.applyRetire r).mem = s.mem := rfl

/-! ### The stall flags (`State.setStall`) -/

@[simp] theorem setStall_params (b : Bool) : (s.setStall b).params = s.params := rfl
@[simp] theorem setStall_x (b : Bool) : (s.setStall b).x = s.x := rfl
@[simp] theorem setStall_pc (b : Bool) : (s.setStall b).pc = s.pc := rfl
@[simp] theorem setStall_sp (b : Bool) : (s.setStall b).sp = s.sp := rfl
@[simp] theorem setStall_flags (b : Bool) : (s.setStall b).flags = s.flags := rfl
@[simp] theorem setStall_slotF (b : Bool) : (s.setStall b).slotF = s.slotF := rfl
@[simp] theorem setStall_slotD (b : Bool) : (s.setStall b).slotD = s.slotD := rfl
@[simp] theorem setStall_slotE (b : Bool) : (s.setStall b).slotE = s.slotE := rfl
@[simp] theorem setStall_slotM (b : Bool) : (s.setStall b).slotM = s.slotM := rfl
@[simp] theorem setStall_slotW (b : Bool) : (s.setStall b).slotW = s.slotW := rfl
@[simp] theorem setStall_stalledFetch (b : Bool) : (s.setStall b).stalledFetch = b := rfl
@[simp] theorem setStall_stalledMemory (b : Bool) : (s.setStall b).stalledMemory = b := rfl
@[simp] theorem setStall_cycles (b : Bool) : (s.setStall b).cycles = s.cycles := rfl
@[simp] theorem setStall_overlapped (b : Bool) : (s.setStall b).overlapped = s.overlapped := rfl
@[simp] theorem setStall_halted (b : Bool) : (s.setStall b).halted = s.halted := rfl
@[simp] theorem setStall_fault (b : Bool) : (s.setStall b).fault = s.fault := rfl
@[simp] theorem setStall_mem (b : Bool) : (s.setStall b).mem = s.mem := rfl

/-! ### `enable_cache()` -/

@[simp] theorem enableCache_params : (s.enableCache).params = s.params := rfl
@[simp] theorem enableCache_x : (s.enableCache).x = s.x := rfl
@[simp] theorem enableCache_pc : (s.enableCache).pc = s.pc := rfl
@[simp] theorem enableCache_sp : (s.enableCache).sp = s.sp := rfl
@[simp] theorem enableCache_flags : (s.enableCache).flags = s.flags := rfl
@[simp] theorem enableCache_slotF : (s.enableCache).slotF = s.slotF := rfl
@[simp] theorem enableCache_slotD : (s.enableCache).slotD = s.slotD := rfl
@[simp] theorem enableCache_slotE : (s.enableCache).slotE = s.slotE := rfl
@[simp] theorem enableCache_slotM : (s.enableCache).slotM = s.slotM := rfl
@[simp] theorem enableCache_slotW : (s.enableCache).slotW = s.slotW := rfl
@[simp] theorem enableCache_stalledFetch : (s.enableCache).stalledFetch = s.stalledFetch := rfl
@[simp] theorem enableCache_stalledMemory : (s.enableCache).stalledMemory = s.stalledMemory := rfl
@[simp] theorem enableCache_cycles : (s.enableCache).cycles = s.cycles := rfl
@[simp] theorem enableCache_overlapped : (s.enableCache).overlapped = s.overlapped := rfl
@[simp] theorem enableCache_halted : (s.enableCache).halted = s.halted := rfl
@[simp] theorem enableCache_fault : (s.enableCache).fault = s.fault := rfl
@[simp] theorem enableCache_mem : (s.enableCache).mem = s.mem.enableCache s.params := rfl

/-! ### `disable_cache()` -/

@[simp] theorem disableCache_params : (s.disableCache).params = s.params := rfl
@[simp] theorem disableCache_x : (s.disableCache).x = s.x := rfl
@[simp] theorem disableCache_pc : (s.disableCache).pc = s.pc := rfl
@[simp] theorem disableCache_sp : (s.disableCache).sp = s.sp := rfl
@[simp] theorem disableCache_flags : (s.disableCache).flags = s.flags := rfl
@[simp] theorem disableCache_slotF : (s.disableCache).slotF = s.slotF := rfl
@[simp] theorem disableCache_slotD : (s.disableCache).slotD = s.slotD := rfl
@[simp] theorem disableCache_slotE : (s.disableCache).slotE = s.slotE := rfl
@[simp] theorem disableCache_slotM : (s.disableCache).slotM = s.slotM := rfl
@[simp] theorem disableCache_slotW : (s.disableCache).slotW = s.slotW := rfl
@[simp] theorem disableCache_stalledFetch : (s.disableCache).stalledFetch = s.stalledFetch := rfl
@[simp] theorem disableCache_stalledMemory : (s.disableCache).stalledMemory = s.stalledMemory := rfl
@[simp] theorem disableCache_cycles : (s.disableCache).cycles = s.cycles := rfl
@[simp] theorem disableCache_overlapped : (s.disableCache).overlapped = s.overlapped := rfl
@[simp] theorem disableCache_halted : (s.disableCache).halted = s.halted := rfl
@[simp] theorem disableCache_fault : (s.disableCache).fault = s.fault := rfl
@[simp] theorem disableCache_mem : (s.disableCache).mem = s.mem.disableCache := rfl

/-! ### `MemSys.setSet` -/

@[simp] theorem setSet_ram (i : Nat) : (m.setSet i c).ram = m.ram := rfl
@[simp] theorem setSet_cacheEnabled (i : Nat) : (m.setSet i c).cacheEnabled = m.cacheEnabled := rfl
@[simp] theorem setSet_sets (i : Nat) : (m.setSet i c).sets = m.sets.set i c := rfl
@[simp] theorem setSet_evictions (i : Nat) : (m.setSet i c).evictions = m.evictions := rfl

/-! ### `MemSys.writeback` -/

@[simp] theorem writeback_ram (a : Nat) (d : List Word) : (m.writeback a d).ram = m.ram.writeAll a d := rfl
@[simp] theorem writeback_cacheEnabled (a : Nat) (d : List Word) : (m.writeback a d).cacheEnabled = m.cacheEnabled := rfl
@[simp] theorem writeback_sets (a : Nat) (d : List Word) : (m.writeback a d).sets = m.sets := rfl
@[simp] theorem writeback_evictions (a : Nat) (d : List Word) : (m.writeback a d).evictions = m.evictions ++ [(BitVec.ofNat 32 a, d)] := rfl

/-! ### `MemSys.enableCache` -/

@[simp] theorem mem_enableCache_ram : (m.enableCache p).ram = m.ram := rfl
@[simp] theorem mem_enableCache_cacheEnabled : (m.enableCache p).cacheEnabled = true := rfl
@[simp] theorem mem_enableCache_sets : (m.enableCache p).sets = List.replicate p.nsets (CacheSet.cold p) := rfl
@[simp] theorem mem_enableCache_evictions : (m.enableCache p).evictions = m.evictions := rfl

/-! ### `MemSys.disableCache` -/

@[simp] theorem mem_disableCache_ram : (m.disableCache).ram = m.ram := rfl
@[simp] theorem mem_disableCache_cacheEnabled : (m.disableCache).cacheEnabled = false := rfl
@[simp] theorem mem_disableCache_sets : (m.disableCache).sets = [] := rfl
@[simp] theorem mem_disableCache_evictions : (m.disableCache).evictions = m.evictions := rfl

/-! ### Sets and lines -/

@[simp] theorem touch_lines (w : Nat) : (c.touch w).lines = c.lines := rfl
@[simp] theorem touch_order (w : Nat) : (c.touch w).order = c.order.filter (· != w) ++ [w] := rfl
@[simp] theorem touch_line (w v : Nat) : (c.touch w).line v = c.line v := rfl
@[simp] theorem setLine_lines (w : Nat) (l : Line) : (c.setLine w l).lines = c.lines.set w l := rfl
@[simp] theorem setLine_order (w : Nat) (l : Line) : (c.setLine w l).order = c.order := rfl
@[simp] theorem store_valid (l : Line) (o : Nat) (v : Word) : (l.store o v).valid = l.valid := rfl
@[simp] theorem store_dirty (l : Line) (o : Nat) (v : Word) : (l.store o v).dirty = true := rfl
@[simp] theorem store_tag (l : Line) (o : Nat) (v : Word) : (l.store o v).tag = l.tag := rfl
@[simp] theorem store_data (l : Line) (o : Nat) (v : Word) : (l.store o v).data = l.data.set o v := rfl
@[simp] theorem fill_valid (a : Nat) : (m.fill p a).valid = true := rfl
@[simp] theorem fill_dirty (a : Nat) : (m.fill p a).dirty = false := rfl
@[simp] theorem fill_tag (a : Nat) : (m.fill p a).tag = tagOf p a := rfl
@[simp] theorem fill_data (a : Nat) : (m.fill p a).data = m.ram.readAll (baseOf p a) p.lineWords := rfl
@[simp] theorem storeLine_ram (i w o : Nat) (v : Word) : (m.storeLine i w o v).ram = m.ram := rfl
@[simp] theorem storeLine_cacheEnabled (i w o : Nat) (v : Word) :
    (m.storeLine i w o v).cacheEnabled = m.cacheEnabled := rfl
@[simp] theorem storeLine_evictions (i w o : Nat) (v : Word) :
    (m.storeLine i w o v).evictions = m.evictions := rfl

/-! ### Records -/

variable (r : InstrRecord) (e : ExecOut)

@[simp] theorem afterExec_raw : (r.afterExec e).raw = r.raw := rfl
@[simp] theorem afterExec_opcode : (r.afterExec e).opcode = r.opcode := rfl
@[simp] theorem afterExec_decoded : (r.afterExec e).decoded = r.decoded := rfl
@[simp] theorem afterExec_decodeError : (r.afterExec e).decodeError = r.decodeError := rfl
@[simp] theorem afterExec_memIssued : (r.afterExec e).memIssued = r.memIssued := rfl
@[simp] theorem afterExec_memRemaining : (r.afterExec e).memRemaining = r.memRemaining := rfl
@[simp] theorem afterExec_origin : (r.afterExec e).origin = r.origin := rfl
@[simp] theorem afterExec_computed : (r.afterExec e).computed = e.computed.or r.computed := rfl
@[simp] theorem afterExec_ea : (r.afterExec e).ea = e.ea.or r.ea := rfl
@[simp] theorem afterExec_effective : (r.afterExec e).effective = r.effective := rfl
@[simp] theorem afterExec_stages : (r.afterExec e).stages = r.stages := rfl

@[simp] theorem newInstruction_raw (w a : Word) : (newInstruction w a).raw = w := rfl
@[simp] theorem newInstruction_origin (w a : Word) : (newInstruction w a).origin = a := rfl
@[simp] theorem newInstruction_opcode (w a : Word) : (newInstruction w a).opcode = opcodeOf w := rfl
@[simp] theorem newInstruction_decoded (w a : Word) : (newInstruction w a).decoded = none := rfl
@[simp] theorem newInstruction_computed (w a : Word) : (newInstruction w a).computed = none := rfl
@[simp] theorem newInstruction_decodeError (w a : Word) : (newInstruction w a).decodeError = false := rfl
@[simp] theorem newInstruction_ea (w a : Word) : (newInstruction w a).ea = none := rfl
@[simp] theorem newInstruction_memIssued (w a : Word) : (newInstruction w a).memIssued = false := rfl
@[simp] theorem newInstruction_memRemaining (w a : Word) : (newInstruction w a).memRemaining = 0 := rfl

end Sys2Proof.Laws
end

