-- ==== Sys2Proof/Laws/Ops.lean ====
section
/-! SUPPORT. One lemma for each shared operation that says once everything it can do, for later proofs to cite instead of unfolding
it. -/

namespace Sys2Proof.Laws

open Sys2Proof.Machine

/-! ### Registers -/

@[simp] theorem read_write_reg_same (x : RegFile) (r : RegNum) (v : Word) :
    RegFile.read (RegFile.write x r v) r = v := by
  simp [RegFile.read, RegFile.write]

theorem read_write_reg_ne (x : RegFile) {r q : RegNum} (v : Word) (h : q ≠ r) :
    RegFile.read (RegFile.write x r v) q = RegFile.read x q := by
  have hn : r.toNat ≠ q.toNat := fun e => h (BitVec.eq_of_toNat_eq e.symm)
  simp [RegFile.read, RegFile.write, Vector.getElem_set_ne, hn]

/-! ### Sets and lines of the cache -/

theorem cacheSet_setSet_same (m : MemSys) {i : Nat} (c : CacheSet) (h : i < m.sets.length) :
    (m.setSet i c).cacheSet i = c := by
  simp [MemSys.cacheSet, List.getD, h]

theorem cacheSet_setSet_ne (m : MemSys) {i j : Nat} (c : CacheSet) (h : j ≠ i) :
    (m.setSet i c).cacheSet j = m.cacheSet j := by
  simp [MemSys.cacheSet, List.getD, List.getElem?_set_ne (Ne.symm h)]

@[simp] theorem length_setSet (m : MemSys) (i : Nat) (c : CacheSet) :
    (m.setSet i c).sets.length = m.sets.length := by simp

/-- The sets are the same in two memory subsystems with the same list of sets. -/
theorem cacheSet_congr {m n : MemSys} (h : m.sets = n.sets) (i : Nat) : m.cacheSet i = n.cacheSet i := by
  simp [MemSys.cacheSet, h]

theorem line_setLine_same (c : CacheSet) {w : Nat} (l : Line) (h : w < c.lines.length) :
    (c.setLine w l).line w = l := by
  simp [CacheSet.line, List.getD, h]

theorem line_setLine_ne (c : CacheSet) {w v : Nat} (l : Line) (h : v ≠ w) :
    (c.setLine w l).line v = c.line v := by
  simp [CacheSet.line, List.getD, List.getElem?_set_ne (Ne.symm h)]

theorem line_eq_getElem (c : CacheSet) {w : Nat} (h : w < c.lines.length) : c.line w = c.lines[w] := by
  simp [CacheSet.line, List.getD, h]

theorem line_mem (c : CacheSet) {w : Nat} (h : w < c.lines.length) : c.line w ∈ c.lines := by
  rw [line_eq_getElem c h]
  exact List.getElem_mem h

/-- A hit names a way of the set whose line is valid and has the tag. -/
theorem hitWay_some {c : CacheSet} {tag w : Nat} (h : c.hitWay tag = some w) :
    w < c.lines.length ∧ (c.line w).valid = true ∧ (c.line w).tag = tag := by
  rw [CacheSet.hitWay, List.findIdx?_eq_some_iff_getElem] at h
  obtain ⟨hw, hp, -⟩ := h
  rw [line_eq_getElem c hw]
  simp only [Bool.and_eq_true, beq_iff_eq] at hp
  exact ⟨hw, hp.1, hp.2⟩

/-- A miss means no line of the set is valid with the tag. -/
theorem hitWay_none {c : CacheSet} {tag : Nat} :
    c.hitWay tag = none ↔ ∀ w < c.lines.length, (c.line w).valid = true → (c.line w).tag ≠ tag := by
  rw [CacheSet.hitWay, List.findIdx?_eq_none_iff]
  constructor
  · intro h w hw hv ht
    have := h _ (line_mem c hw)
    simp [hv, ht] at this
  · intro h l hl
    obtain ⟨w, hw, rfl⟩ := List.getElem_of_mem hl
    have := h w hw
    rw [line_eq_getElem c hw] at this
    cases hv : c.lines[w].valid
    · simp
    · simp [this hv]

/-- Where at most one valid line has each tag, a valid line's own tag finds it. -/
theorem hitWay_eq {c : CacheSet} {tag w : Nat} (hw : w < c.lines.length) (hv : (c.line w).valid = true)
    (ht : (c.line w).tag = tag)
    (huniq : ∀ i < c.lines.length, ∀ j < c.lines.length, (c.line i).valid = true →
      (c.line j).valid = true → (c.line i).tag = (c.line j).tag → i = j) :
    c.hitWay tag = some w := by
  cases h : c.hitWay tag with
  | none => exact absurd ht (hitWay_none.1 h w hw hv)
  | some u =>
    obtain ⟨hu, hvu, htu⟩ := hitWay_some h
    rw [huniq u hu w hw hvu hv (htu.trans ht.symm)]

@[simp] theorem hitWay_touch (c : CacheSet) (w tag : Nat) : (c.touch w).hitWay tag = c.hitWay tag := rfl

/-! ### Address decomposition -/

theorem base_add_offset (p : Params) (a : Nat) : baseOf p a + offsetOf p a = a :=
  Nat.sub_add_cancel (Nat.mod_le a p.lineWords)

/-- The line address of an address's own tag and index is its base address. -/
theorem lineAddr_tag_index (p : Params) (a : Nat) : lineAddr p (tagOf p a) (indexOf p a) = baseOf p a := by
  have h1 : a / p.lineWords / p.nsets * p.nsets + a / p.lineWords % p.nsets = a / p.lineWords :=
    Nat.div_add_mod' _ _
  have h2 : a / p.lineWords * p.lineWords + a % p.lineWords = a := Nat.div_add_mod' _ _
  simp only [lineAddr, tagOf, indexOf, baseOf, offsetOf, blockOf, h1]
  omega

/-- The offset, tag and index of a Word of a line are the ones the line is addressed by. -/
theorem decompose_lineAddr (p : Params) {t s k : Nat} (hs : s < p.nsets) (hk : k < p.lineWords) :
    offsetOf p (lineAddr p t s + k) = k ∧ indexOf p (lineAddr p t s + k) = s ∧
      tagOf p (lineAddr p t s + k) = t := by
  have h1 : (lineAddr p t s + k) / p.lineWords = t * p.nsets + s := by
    rw [lineAddr, Nat.mul_comm, Nat.mul_add_div (by omega), Nat.div_eq_of_lt hk, Nat.add_zero]
  refine ⟨?_, ?_, ?_⟩
  · rw [offsetOf, lineAddr, Nat.mul_comm, Nat.mul_add_mod, Nat.mod_eq_of_lt hk]
  · rw [indexOf, blockOf, h1, Nat.mul_comm, Nat.mul_add_mod, Nat.mod_eq_of_lt hs]
  · rw [tagOf, blockOf, h1, Nat.mul_comm, Nat.mul_add_div (by omega), Nat.div_eq_of_lt hs, Nat.add_zero]

/-- The line of an address in RAM lies wholly inside RAM (R62, by R7). -/
theorem line_in_ram {p : Params} (h : p.legal) {a : Nat} (ha : a < p.ramCapacity) :
    baseOf p a + p.lineWords ≤ p.ramCapacity := by
  obtain ⟨-, -, hm, -, -, hl⟩ := h
  obtain ⟨q, hq⟩ := Nat.dvd_of_mod_eq_zero hm
  have h2 : p.lineWords * (a / p.lineWords) + a % p.lineWords = a := Nat.div_add_mod _ _
  have h3 : a / p.lineWords < q := Nat.div_lt_of_lt_mul (by omega)
  have h4 : p.lineWords * (a / p.lineWords + 1) ≤ p.lineWords * q := Nat.mul_le_mul_left _ h3
  simp only [baseOf, offsetOf, Nat.mul_add, Nat.mul_one] at h4 ⊢
  omega

/-! ### Accesses -/

/-- `MemRead` answers exactly in range, and then what the cache answers. -/
theorem memRead_ok_iff {p : Params} {m : MemSys} {a : Word} {r : ReadResult} :
    memRead p m a = .ok r ↔ a.toNat < p.ramCapacity ∧ r = m.cacheRead p a.toNat := by
  unfold memRead
  split_ifs with h
  · simp only [false_iff, not_and]
    omega
  · simp only [Except.ok.injEq, eq_comm, iff_and_self]
    omega

/-- `MemRead` raises exactly out of range. -/
theorem memRead_error_iff {p : Params} {m : MemSys} {a : Word} {k : Fault} :
    memRead p m a = .error k ↔ p.ramCapacity ≤ a.toNat ∧ k = .addressOutOfRange := by
  unfold memRead
  split_ifs with h <;> simp [h, eq_comm]

/-- `MemWrite` answers exactly in range, and then what the cache answers. -/
theorem memWrite_ok_iff {p : Params} {m : MemSys} {a v : Word} {r : WriteResult} :
    memWrite p m a v = .ok r ↔ a.toNat < p.ramCapacity ∧ r = m.cacheWrite p a.toNat v := by
  unfold memWrite
  split_ifs with h
  · simp only [false_iff, not_and]
    omega
  · simp only [Except.ok.injEq, eq_comm, iff_and_self]
    omega

/-- `MemWrite` raises exactly out of range. -/
theorem memWrite_error_iff {p : Params} {m : MemSys} {a v : Word} {k : Fault} :
    memWrite p m a v = .error k ↔ p.ramCapacity ≤ a.toNat ∧ k = .addressOutOfRange := by
  unfold memWrite
  split_ifs with h <;> simp [h, eq_comm]

/-- The three cases of `CacheRead`: disabled, hit, miss. -/
theorem cacheRead_cases (m : MemSys) (p : Params) (a : Nat) :
    (m.cacheEnabled = false ∧
      m.cacheRead p a = { word := m.ram.read a, latency := p.ramLatency, mem := m }) ∨
    (m.cacheEnabled = true ∧ ∃ w, (m.cacheSet (indexOf p a)).hitWay (tagOf p a) = some w ∧
      m.cacheRead p a =
        { word := m.lineWord (indexOf p a) w (offsetOf p a)
          latency := p.readLatency
          mem := m.setSet (indexOf p a) ((m.cacheSet (indexOf p a)).touch w) }) ∨
    (m.cacheEnabled = true ∧ (m.cacheSet (indexOf p a)).hitWay (tagOf p a) = none ∧
      m.cacheRead p a =
        { word := (m.install p a).1.lineWord (indexOf p a) (m.install p a).2 (offsetOf p a)
          latency := p.readLatency + p.missPenalty
          mem := (m.install p a).1 }) := by
  cases he : m.cacheEnabled
  · exact Or.inl ⟨rfl, by simp [MemSys.cacheRead, he]⟩
  · cases hw : (m.cacheSet (indexOf p a)).hitWay (tagOf p a) with
    | none => exact Or.inr (Or.inr ⟨rfl, rfl, by simp [MemSys.cacheRead, he, hw]⟩)
    | some w => exact Or.inr (Or.inl ⟨rfl, w, rfl, by simp [MemSys.cacheRead, he, hw]⟩)

/-- The three cases of `CacheWrite`: disabled, hit, miss. -/
theorem cacheWrite_cases (m : MemSys) (p : Params) (a : Nat) (v : Word) :
    (m.cacheEnabled = false ∧
      m.cacheWrite p a v = { latency := p.ramLatency, mem := { m with ram := m.ram.write a v } }) ∨
    (m.cacheEnabled = true ∧ ∃ w, (m.cacheSet (indexOf p a)).hitWay (tagOf p a) = some w ∧
      m.cacheWrite p a v =
        { latency := p.writeLatency
          mem := (m.setSet (indexOf p a) ((m.cacheSet (indexOf p a)).touch w)).storeLine
            (indexOf p a) w (offsetOf p a) v }) ∨
    (m.cacheEnabled = true ∧ (m.cacheSet (indexOf p a)).hitWay (tagOf p a) = none ∧
      m.cacheWrite p a v =
        { latency := p.writeLatency + p.missPenalty
          mem := ((m.install p a).1.storeLine (indexOf p a) (m.install p a).2
            (offsetOf p a) v).writeMissUpdate p a v }) := by
  cases he : m.cacheEnabled
  · exact Or.inl ⟨rfl, by simp [MemSys.cacheWrite, he]⟩
  · cases hw : (m.cacheSet (indexOf p a)).hitWay (tagOf p a) with
    | none => exact Or.inr (Or.inr ⟨rfl, rfl, by simp [MemSys.cacheWrite, he, hw]⟩)
    | some w => exact Or.inr (Or.inl ⟨rfl, w, rfl, by simp [MemSys.cacheWrite, he, hw]⟩)

/-- Evicting changes only RAM and the log. -/
@[simp] theorem evict_sets (m : MemSys) (p : Params) (s : Nat) (l : Line) : (m.evict p s l).sets = m.sets := by
  unfold MemSys.evict
  split_ifs <;> rfl

@[simp] theorem evict_cacheEnabled (m : MemSys) (p : Params) (s : Nat) (l : Line) :
    (m.evict p s l).cacheEnabled = m.cacheEnabled := by
  unfold MemSys.evict
  split_ifs <;> rfl

/-- What an instruction's memory operation can answer: `LDR` reads, `STR` writes, every other one does nothing at latency 0. -/
theorem memOp_cases (i : Instr) (p : Params) (m : MemSys) (ea c : Option Word) :
    (∃ a, ea = some a ∧ (∃ rd rn imm, i = .ldr rd rn imm) ∧
      (stagesOf i).memOp p m ea c =
        match memRead p m a with
        | .error k => .error { kind := k, addr := a, stage := .M }
        | .ok r => .ok { computed := some r.word, latency := r.latency, mem := r.mem }) ∨
    (∃ a v, ea = some a ∧ c = some v ∧ (∃ rd rn imm, i = .str rd rn imm) ∧
      (stagesOf i).memOp p m ea c =
        match memWrite p m a v with
        | .error k => .error { kind := k, addr := a, stage := .M }
        | .ok r => .ok { computed := some v, latency := r.latency, mem := r.mem }) ∨
    (stagesOf i).memOp p m ea c = .ok { computed := c, latency := 0, mem := m } := by
  cases i with
  | ldr rd rn imm =>
    cases ea with
    | none => exact Or.inr (Or.inr rfl)
    | some a => exact Or.inl ⟨a, rfl, ⟨rd, rn, imm, rfl⟩, rfl⟩
  | str rd rn imm =>
    cases ea with
    | none => exact Or.inr (Or.inr rfl)
    | some a =>
      cases c with
      | none => exact Or.inr (Or.inr rfl)
      | some v => exact Or.inr (Or.inl ⟨a, v, rfl, rfl, ⟨rd, rn, imm, rfl⟩, rfl⟩)
  | nop | addi | add | sub | b | beq | bne | halt => exact Or.inr (Or.inr rfl)

/-! ### Whole instructions -/

/-- The one error a memory operation answers: `AddressOutOfRange` in stage M. -/
theorem memOp_error {i : Instr} {p : Params} {m : MemSys} {ea c : Option Word} {f : FaultRecord}
    (h : (stagesOf i).memOp p m ea c = .error f) : f.kind = .addressOutOfRange ∧ f.stage = .M := by
  rcases memOp_cases i p m ea c with ⟨a, _, _, e⟩ | ⟨a, v, _, _, _, e⟩ | e <;> rw [e] at h
  · cases hr : memRead p m a with
    | error k =>
      rw [hr] at h
      simp only [Except.error.injEq] at h
      subst h
      exact ⟨(memRead_error_iff.1 hr).2, rfl⟩
    | ok r => simp [hr] at h
  · cases hr : memWrite p m a v with
    | error k =>
      rw [hr] at h
      simp only [Except.error.injEq] at h
      subst h
      exact ⟨(memWrite_error_iff.1 hr).2, rfl⟩
    | ok r => simp [hr] at h
  · simp at h

/-- No memory operation takes longer than the largest latency of the table (spec/20_memory.md R67). -/
theorem memOp_latency {i : Instr} {p : Params} {m : MemSys} {ea c : Option Word} {o : MemOut}
    (h : (stagesOf i).memOp p m ea c = .ok o) :
    o.latency ≤ max p.ramLatency (max p.readLatency p.writeLatency + p.missPenalty) := by
  rcases memOp_cases i p m ea c with ⟨a, _, _, e⟩ | ⟨a, v, _, _, _, e⟩ | e <;> rw [e] at h
  · cases hr : memRead p m a with
    | error k => simp [hr] at h
    | ok r =>
      rw [memRead_ok_iff] at hr
      simp [memRead, not_le.2 hr.1] at h
      subst h
      rcases cacheRead_cases m p a.toNat with ⟨_, e⟩ | ⟨_, w, _, e⟩ | ⟨_, _, e⟩ <;> rw [e] <;> dsimp only <;> omega
  · cases hr : memWrite p m a v with
    | error k => simp [hr] at h
    | ok r =>
      rw [memWrite_ok_iff] at hr
      simp [memWrite, not_le.2 hr.1] at h
      subst h
      rcases cacheWrite_cases m p a.toNat v with ⟨_, e⟩ | ⟨_, w, _, e⟩ | ⟨_, _, e⟩ <;> rw [e] <;> dsimp only <;> omega
  · simp only [Except.ok.injEq] at h
    subst h
    exact Nat.zero_le _

/-- Every meaning is its stage functions run whole. -/
theorem exec_eq_runWhole (i : Instr) (s : State) : exec i s = runWhole (stagesOf i) s := by
  cases i <;> rfl

/-- What running an instruction whole can answer: the next state of its effects, or the next state with the error latched. -/
theorem runWhole_cases (f : InstrStages) (s : State) :
    (∃ o, f.memOp s.params s.mem (f.exec s.x s.flags).ea (f.exec s.x s.flags).computed = .ok o ∧
      runWhole f s = .next
        { ({ s.applyExec (f.exec s.x s.flags) with mem := o.mem } : State).applyRetire
            (f.retire o.computed) with
          cycles := s.cycles + 5 + o.latency }) ∨
    (∃ r, f.memOp s.params s.mem (f.exec s.x s.flags).ea (f.exec s.x s.flags).computed = .error r ∧
      runWhole f s = .next ((s.applyExec (f.exec s.x s.flags)).raise r)) := by
  cases h : f.memOp s.params s.mem (f.exec s.x s.flags).ea (f.exec s.x s.flags).computed with
  | error r => exact Or.inr ⟨r, rfl, by simp [runWhole, h]⟩
  | ok o => exact Or.inl ⟨o, rfl, by simp [runWhole, h]⟩

/-! ### The engine -/

/-- The issue of a memory operation: nothing for a record already issued, else what its `MemOp` answers. -/
theorem issueMem_cases (p : Params) (m : MemSys) (r : InstrRecord) :
    (r.memIssued = true ∧ issueMem p m r = .ok (r, m)) ∨
    (r.memIssued = false ∧ ∃ o, r.stages.memOp p m r.ea r.computed = .ok o ∧
      issueMem p m r = .ok
        ({ r with computed := o.computed, memIssued := true, memRemaining := o.latency }, o.mem)) ∨
    (r.memIssued = false ∧ ∃ f, r.stages.memOp p m r.ea r.computed = .error f ∧
      issueMem p m r = .error f) := by
  cases hi : r.memIssued
  · cases h : r.stages.memOp p m r.ea r.computed with
    | error f => exact Or.inr (Or.inr ⟨rfl, f, rfl, by simp [issueMem, hi, h]⟩)
    | ok o => exact Or.inr (Or.inl ⟨rfl, o, rfl, by simp [issueMem, hi, h]⟩)
  · exact Or.inl ⟨rfl, by simp [issueMem, hi]⟩

/-- A fetch answers exactly in range: the Word read, pc past it. -/
theorem fetchWord_ok_iff {s t : State} {w : Word} :
    fetchWord s = .ok (w, t) ↔
      s.pc.toNat < s.params.ramCapacity ∧ w = (s.mem.cacheRead s.params s.pc.toNat).word ∧
        t = { s with mem := (s.mem.cacheRead s.params s.pc.toNat).mem, pc := s.pc + 1 } := by
  unfold fetchWord
  cases h : memRead s.params s.mem s.pc with
  | error k =>
    have := (memRead_error_iff.1 h).1
    simp only [reduceCtorEq, false_iff, not_and]
    omega
  | ok r =>
    obtain ⟨h1, rfl⟩ := memRead_ok_iff.1 h
    simp [h1, eq_comm]

/-- A fetch raises exactly out of range. -/
theorem fetchWord_error_iff {s : State} {f : FaultRecord} :
    fetchWord s = .error f ↔
      s.params.ramCapacity ≤ s.pc.toNat ∧ f = { kind := .addressOutOfRange, addr := s.pc, stage := .F } := by
  unfold fetchWord
  cases h : memRead s.params s.mem s.pc with
  | error k =>
    obtain ⟨h1, rfl⟩ := memRead_error_iff.1 h
    simp [h1, eq_comm]
  | ok r =>
    have := (memRead_ok_iff.1 h).1
    simp only [reduceCtorEq, false_iff, not_and]
    omega

/-- The four ways a pipelined advance can end: stopped in Memory, in Execute, in Fetch, or completed. -/
theorem advancePipelined_cases (s : State) :
    (∃ f, step2Memory (step1Writeback s) = .error f ∧
      advancePipelined s = (step1Writeback s).raise f) ∨
    (∃ s2 f, step2Memory (step1Writeback s) = .ok s2 ∧ step3Execute s2 = .error f ∧
      advancePipelined s = s2.raise f) ∨
    (∃ s2 s3 f, step2Memory (step1Writeback s) = .ok s2 ∧ step3Execute s2 = .ok s3 ∧
      step5Fetch (step4Decode s3) = .error f ∧ advancePipelined s = (step4Decode s3).raise f) ∨
    (∃ s2 s3 s5, step2Memory (step1Writeback s) = .ok s2 ∧ step3Execute s2 = .ok s3 ∧
      step5Fetch (step4Decode s3) = .ok s5 ∧
      advancePipelined s = { s5 with cycles := s5.cycles + 1 }) := by
  cases h2 : step2Memory (step1Writeback s) with
  | error f => exact Or.inl ⟨f, rfl, by simp [advancePipelined, h2]⟩
  | ok s2 =>
    cases h3 : step3Execute s2 with
    | error f => exact Or.inr (Or.inl ⟨s2, f, rfl, h3, by simp [advancePipelined, h2, h3]⟩)
    | ok s3 =>
      cases h5 : step5Fetch (step4Decode s3) with
      | error f => exact Or.inr (Or.inr (Or.inl ⟨s2, s3, f, rfl, h3, h5, by simp [advancePipelined, h2, h3, h5]⟩))
      | ok s5 => exact Or.inr (Or.inr (Or.inr ⟨s2, s3, s5, rfl, h3, h5, by simp [advancePipelined, h2, h3, h5]⟩))

/-- Step 1 retires `slot[W]` and empties it; it changes nothing else. -/
theorem step1Writeback_eq (s : State) :
    (s.slotW = .bubble ∧ step1Writeback s = s) ∨
    (∃ r, s.slotW = .instr r ∧
      step1Writeback s = { s.applyRetire (r.stages.retire r.computed) with slotW := .bubble }) := by
  cases h : s.slotW with
  | bubble => exact Or.inl ⟨rfl, by simp [step1Writeback, h]⟩
  | instr r => exact Or.inr ⟨r, rfl, by simp [step1Writeback, h]⟩

/-- The ways step 2 can end without an error: nothing there, held with latency remaining, or moved on. -/
theorem step2Memory_ok {s t : State} (h : step2Memory s = .ok t) :
    (s.slotM = .bubble ∧ t = { s.setStall false with slotW := .bubble, slotM := .bubble }) ∨
    (∃ r q m, s.slotM = .instr r ∧ issueMem s.params s.mem r = .ok (q, m) ∧ 1 < q.memRemaining ∧
      t = { s.setStall true with
        mem := m, slotM := .instr { q with memRemaining := q.memRemaining - 1 } }) ∨
    (∃ r q m, s.slotM = .instr r ∧ issueMem s.params s.mem r = .ok (q, m) ∧ q.memRemaining ≤ 1 ∧
      t = { s.setStall false with
        mem := m, slotW := .instr { q with memRemaining := 0 }, slotM := .bubble }) := by
  cases hM : s.slotM with
  | bubble =>
    simp only [step2Memory, hM, Except.ok.injEq] at h
    exact Or.inl ⟨rfl, h.symm⟩
  | instr r =>
    cases hi : issueMem s.params s.mem r with
    | error f => simp [step2Memory, hM, hi] at h
    | ok q =>
      obtain ⟨q, m⟩ := q
      by_cases hr : 1 < q.memRemaining
      · simp only [step2Memory, hM, hi, if_pos hr, Except.ok.injEq] at h
        exact Or.inr (Or.inl ⟨r, q, m, rfl, hi, hr, h.symm⟩)
      · simp only [step2Memory, hM, hi, if_neg hr, Except.ok.injEq] at h
        exact Or.inr (Or.inr ⟨r, q, m, rfl, hi, by omega, h.symm⟩)

/-- Step 2 raises only what issuing `slot[M]` raises. -/
theorem step2Memory_error {s : State} {f : FaultRecord} (h : step2Memory s = .error f) :
    ∃ r, s.slotM = .instr r ∧ issueMem s.params s.mem r = .error f := by
  cases hM : s.slotM with
  | bubble => simp [step2Memory, hM] at h
  | instr r =>
    refine ⟨r, rfl, ?_⟩
    cases hi : issueMem s.params s.mem r with
    | error g => simpa [step2Memory, hM, hi] using h
    | ok q =>
      obtain ⟨q, m⟩ := q
      by_cases hr : 1 < q.memRemaining <;> simp [step2Memory, hM, hi, hr] at h

/-- The ways step 3 can end without an error: held, nothing there, or executed. -/
theorem step3Execute_ok {s t : State} (h : step3Execute s = .ok t) :
    (s.stalledMemory = true ∧ t = s) ∨
    (s.stalledMemory = false ∧ s.slotE = .bubble ∧ t = { s with slotM := .bubble, slotE := .bubble }) ∨
    (s.stalledMemory = false ∧ ∃ r, s.slotE = .instr r ∧ rawHazard s r = false ∧
      t = { s.applyExec (r.stages.exec s.x s.flags) with
        slotD := if (r.stages.exec s.x s.flags).redirect.isSome then .bubble else s.slotD
        slotM := .instr (r.afterExec (r.stages.exec s.x s.flags))
        slotE := .bubble }) := by
  cases hs : s.stalledMemory
  · cases hE : s.slotE with
    | bubble =>
      simp only [step3Execute, hs, hE, Bool.false_eq_true, if_false, Except.ok.injEq] at h
      exact Or.inr (Or.inl ⟨rfl, rfl, h.symm⟩)
    | instr r =>
      cases hz : rawHazard s r
      · simp only [step3Execute, hs, hE, hz, Bool.false_eq_true, if_false, Except.ok.injEq] at h
        exact Or.inr (Or.inr ⟨rfl, r, rfl, hz, h.symm⟩)
      · simp [step3Execute, hs, hE, hz] at h
  · simp only [step3Execute, hs, if_true, Except.ok.injEq] at h
    exact Or.inl ⟨rfl, h.symm⟩

/-- Step 3 raises only the hazard of the instruction in `slot[E]`. -/
theorem step3Execute_error {s : State} {f : FaultRecord} (h : step3Execute s = .error f) :
    s.stalledMemory = false ∧ ∃ r, s.slotE = .instr r ∧ rawHazard s r = true ∧
      f = { kind := .hazardViolation, addr := r.origin, stage := .E } := by
  cases hs : s.stalledMemory
  · cases hE : s.slotE with
    | bubble => simp [step3Execute, hs, hE] at h
    | instr r =>
      cases hz : rawHazard s r
      · simp [step3Execute, hs, hE, hz] at h
      · simp only [step3Execute, hs, hE, hz, Bool.false_eq_true, if_false, if_true,
          Except.error.injEq] at h
        exact ⟨rfl, r, rfl, hz, h.symm⟩
  · simp [step3Execute, hs] at h

/-- The ways step 5 can end without an error: held, or an instruction fetched into `slot[D]`. -/
theorem step5Fetch_ok {s t : State} (h : step5Fetch s = .ok t) :
    (s.stalledFetch = true ∧ t = { s with slotF := .bubble }) ∨
    (s.stalledFetch = false ∧ ∃ w u, fetchWord s = .ok (w, u) ∧
      t = { u with slotD := .instr (newInstruction w s.pc), slotF := .bubble }) := by
  cases hs : s.stalledFetch
  · cases hf : fetchWord s with
    | error f => simp [step5Fetch, hs, hf] at h
    | ok q =>
      obtain ⟨w, u⟩ := q
      simp only [step5Fetch, hs, hf, Bool.false_eq_true, if_false, Except.ok.injEq] at h
      exact Or.inr ⟨rfl, w, u, rfl, h.symm⟩
  · simp only [step5Fetch, hs, if_true, Except.ok.injEq] at h
    exact Or.inl ⟨rfl, h.symm⟩

/-- Step 5 raises only what the fetch raises. -/
theorem step5Fetch_error {s : State} {f : FaultRecord} (h : step5Fetch s = .error f) :
    s.stalledFetch = false ∧ fetchWord s = .error f := by
  cases hs : s.stalledFetch
  · cases hf : fetchWord s with
    | error g => simpa [step5Fetch, hs, hf] using h
    | ok q => simp [step5Fetch, hs, hf] at h
  · simp [step5Fetch, hs] at h

/-- What a step can be: nothing once stopped, a pipelined advance, or a whole instruction. -/
theorem step_cases (s : State) :
    (s.stopped = true ∧ step s = .next s) ∨
    (s.pipelining ∧ step s = .next (advancePipelined s)) ∨
    (s.sequencing ∧
      ((∃ f, fetchWord s = .error f ∧ step s = .next (s.raise f)) ∨
       (∃ w u i, fetchWord s = .ok (w, u) ∧ decode w = .ok i ∧ step s = runWhole (stagesOf i) u) ∨
       ∃ w u e, fetchWord s = .ok (w, u) ∧ decode w = .error e ∧ step s = runWhole inertStages u)) := by
  cases hs : s.stopped
  · cases ho : s.overlapped
    · refine Or.inr (Or.inr ⟨⟨hs, ho⟩, ?_⟩)
      have hst : step s = advanceSequential s := by simp [step, advance, hs, ho]
      rw [hst]
      cases hf : fetchWord s with
      | error f => exact Or.inl ⟨f, rfl, by simp [advanceSequential, hf]⟩
      | ok q =>
        obtain ⟨w, u⟩ := q
        cases hd : decode w with
        | ok i =>
          exact Or.inr (Or.inl ⟨w, u, i, rfl, hd, by simp [advanceSequential, hf, hd, exec_eq_runWhole]⟩)
        | error e =>
          exact Or.inr (Or.inr ⟨w, u, e, rfl, hd, by simp [advanceSequential, hf, hd, execInert]⟩)
    · exact Or.inr (Or.inl ⟨⟨hs, ho⟩, by simp [step, advance, hs, ho]⟩)
  · exact Or.inl ⟨rfl, by simp [step, advance, hs]⟩

end Sys2Proof.Laws
end

