-- ==== Sys2Proof/Laws/Cache.lean ====
section
/-! SUPPORT. What a lookup, a touch, a store into a line, an eviction and an install do to a sound cache (spec/20_memory.md
section 3). -/

namespace Sys2Proof.Laws

open Sys2Proof.Machine

/-! ### Addresses -/

theorem indexOf_lt {p : Params} (h : p.legal) (a : Nat) : indexOf p a < p.nsets :=
  Nat.mod_lt _ (by have := h.2.2.2.1; omega)

theorem offsetOf_lt {p : Params} (h : p.legal) (a : Nat) : offsetOf p a < p.lineWords :=
  Nat.mod_lt _ (by have := h.2.2.2.2.2; omega)

/-- Tag, index and offset put together again. -/
theorem lineAddr_add_offset (p : Params) (a : Nat) : lineAddr p (tagOf p a) (indexOf p a) + offsetOf p a = a := by
  rw [lineAddr_tag_index, base_add_offset]

/-- Two lines that have an address in common are the same line. -/
theorem lineAddr_inj {p : Params} {t s k t' s' k' : Nat} (hs : s < p.nsets) (hs' : s' < p.nsets)
    (hk : k < p.lineWords) (hk' : k' < p.lineWords) (h : lineAddr p t s + k = lineAddr p t' s' + k') :
    t = t' ∧ s = s' ∧ k = k' := by
  have a := decompose_lineAddr p (t := t) hs hk
  have b := decompose_lineAddr p (t := t') hs' hk'
  rw [h] at a
  exact ⟨a.2.2.symm.trans b.2.2, a.2.1.symm.trans b.2.1, a.1.symm.trans b.1⟩

/-! ### The sets of a sound memory -/

theorem sets_length {m : MemSys} {p : Params} (h : m.Inv p) (he : m.cacheEnabled = true) :
    m.sets.length = p.nsets := by
  simpa [he] using h.2.2.1

theorem cacheSet_inv {m : MemSys} {p : Params} (h : m.Inv p) (he : m.cacheEnabled = true) {s : Nat}
    (hs : s < p.nsets) : (m.cacheSet s).Inv p m.ram s :=
  h.2.2.2.1 s (by rw [sets_length h he]; exact hs)

/-- A sound set, said way by way. -/
theorem cacheSet_inv_iff {p : Params} {ram : Memory} {s : Nat} {c : CacheSet} : c.Inv p ram s ↔
    c.lines.length = p.nways ∧ c.order.Perm (List.range p.nways) ∧
    (c.order.map (fun w => (c.line w).valid)).Pairwise (fun a b => a = true → b = true) ∧
    (∀ w < p.nways, (c.line w).data.length = p.lineWords ∧ ((c.line w).dirty = true → (c.line w).valid = true) ∧
      ((c.line w).valid = true → lineAddr p (c.line w).tag s + p.lineWords ≤ p.ramCapacity) ∧
      ((c.line w).valid = true → (c.line w).dirty = false →
        (c.line w).data = ram.readAll (lineAddr p (c.line w).tag s) p.lineWords)) ∧
    (∀ i < p.nways, ∀ j < p.nways, (c.line i).valid = true → (c.line j).valid = true →
      (c.line i).tag = (c.line j).tag → i = j) := by
  constructor
  · rintro ⟨h1, h2, h3, h4, h5, h6, h7, h8⟩
    refine ⟨h1, h3, h4, fun w hw => ?_, h8⟩
    have hm := line_mem c (w := w) (by omega)
    exact ⟨h2 _ hm, h5 _ hm, h6 _ hm, h7 _ hm⟩
  · rintro ⟨h1, h3, h4, h, h8⟩
    have hway : ∀ l ∈ c.lines, ∃ w < p.nways, c.line w = l := by
      intro l hl
      obtain ⟨w, hw, rfl⟩ := List.getElem_of_mem hl
      exact ⟨w, by rw [← h1]; exact hw, line_eq_getElem c hw⟩
    refine ⟨h1, ?_, h3, h4, ?_, ?_, ?_, h8⟩ <;> intro l hl <;> obtain ⟨w, hw, rfl⟩ := hway l hl
    · exact (h w hw).1
    · exact (h w hw).2.1
    · exact (h w hw).2.2.1
    · exact (h w hw).2.2.2

/-- In a sound set a valid line's own tag finds it. -/
theorem hitWay_own_tag {p : Params} {ram : Memory} {s : Nat} {c : CacheSet} (h : c.Inv p ram s) {w : Nat}
    (hw : w < p.nways) (hv : (c.line w).valid = true) : c.hitWay (c.line w).tag = some w := by
  obtain ⟨h1, _, _, _, _, _, _, h8⟩ := h
  exact hitWay_eq (by omega) hv rfl (by rw [h1]; exact h8)

/-- In a sound set a miss means that no valid way has the tag. -/
theorem miss_iff {p : Params} {ram : Memory} {s : Nat} {c : CacheSet} (h : c.Inv p ram s) {t : Nat} :
    c.hitWay t = none ↔ ∀ w < p.nways, (c.line w).valid = true → (c.line w).tag ≠ t := by
  rw [hitWay_none, h.1]

/-- What an address of a valid line reads as. -/
theorem view_of_line {m : MemSys} {p : Params} (hI : m.Inv p) (he : m.cacheEnabled = true)
    {s w k : Nat} (hs : s < p.nsets) (hw : w < p.nways) (hv : ((m.cacheSet s).line w).valid = true)
    (hk : k < p.lineWords) :
    m.view p (lineAddr p ((m.cacheSet s).line w).tag s + k) = ((m.cacheSet s).line w).data.getD k 0 := by
  obtain ⟨h1, h2, h3⟩ := decompose_lineAddr p (t := ((m.cacheSet s).line w).tag) hs hk
  simp [MemSys.view, he, h1, h2, h3, hitWay_own_tag (cacheSet_inv hI he hs) hw hv, MemSys.lineWord]

/-- What an address in no line reads as. -/
theorem view_of_miss {m : MemSys} {p : Params} (he : m.cacheEnabled = true) {x : Nat}
    (h : (m.cacheSet (indexOf p x)).hitWay (tagOf p x) = none) : m.view p x = m.ram.read x := by
  simp [MemSys.view, he, h]

/-! ### Sets under the operations -/

/-- A set stays sound when RAM changes outside its clean lines. -/
theorem cacheSet_inv_of_ram {p : Params} {ram ram' : Memory} {s : Nat} {c : CacheSet} (h : c.Inv p ram s)
    (hr : ∀ l ∈ c.lines, l.valid = true → l.dirty = false →
      ∀ k < p.lineWords, ram'.read (lineAddr p l.tag s + k) = ram.read (lineAddr p l.tag s + k)) :
    c.Inv p ram' s := by
  obtain ⟨h1, h2, h3, h4, h5, h6, h7, h8⟩ := h
  refine ⟨h1, h2, h3, h4, h5, h6, fun l hl hv hd => ?_, h8⟩
  rw [h7 l hl hv hd]
  refine readAll_congr fun b hb1 hb2 => ?_
  have := hr l hl hv hd (b - lineAddr p l.tag s) (by omega)
  rw [Nat.add_sub_cancel' hb1] at this
  exact this.symm

theorem pairwise_map_congr {f g : Nat → Bool} {l : List Nat}
    (h : (l.map f).Pairwise (fun a b => a = true → b = true)) (hg : ∀ x ∈ l, f x = g x) :
    (l.map g).Pairwise (fun a b => a = true → b = true) := by
  rwa [← List.map_congr_left hg]

/-- Touching a way keeps the order a permutation of the ways. -/
theorem touch_perm {p : Params} {o : List Nat} (ho : o.Perm (List.range p.nways)) {w : Nat} (hw : w < p.nways) :
    (o.filter (· != w) ++ [w]).Perm (List.range p.nways) := by
  have hm : w ∈ o := ho.mem_iff.2 (List.mem_range.2 hw)
  have hnd : o.Nodup := ho.nodup_iff.2 List.nodup_range
  rw [← List.Nodup.erase_eq_filter hnd]
  exact ((List.perm_append_singleton w (o.erase w)).trans (List.perm_cons_erase hm).symm).trans ho

/-- Touching a valid way keeps a set sound. -/
theorem touch_inv {p : Params} {ram : Memory} {s : Nat} {c : CacheSet} (h : c.Inv p ram s) {w : Nat}
    (hw : w < p.nways) (hv : (c.line w).valid = true) : (c.touch w).Inv p ram s := by
  obtain ⟨h1, h2, h3, h4, h5, h6, h7, h8⟩ := h
  refine ⟨h1, h2, touch_perm h3 hw, ?_, h5, h6, h7, h8⟩
  have hl : ∀ u, (c.touch w).line u = c.line u := fun _ => rfl
  simp only [CacheSet.touch, List.map_append, List.map_cons, List.map_nil] at *
  rw [List.pairwise_append]
  refine ⟨List.Pairwise.sublist (List.Sublist.map _ List.filter_sublist) h4, by simp, ?_⟩
  intro a _ b hb _
  simp at hb
  rw [hb]
  exact hv

theorem line_setLine (c : CacheSet) {w u : Nat} (l : Line) (hw : w < c.lines.length) :
    (c.setLine w l).line u = if u = w then l else c.line u := by
  split
  · subst u
    exact line_setLine_same c l hw
  · rename_i h
    exact line_setLine_ne c l h

/-- Every line of a sound set is the line of a way. -/
theorem exists_way {p : Params} {ram : Memory} {s : Nat} {c : CacheSet} (h : c.Inv p ram s) {l : Line}
    (hl : l ∈ c.lines) : ∃ w < p.nways, c.line w = l := by
  obtain ⟨w, hw, rfl⟩ := List.getElem_of_mem hl
  exact ⟨w, by rw [← h.1]; exact hw, line_eq_getElem c hw⟩

/-- A store into a valid line keeps a set sound. -/
theorem store_inv {p : Params} {ram : Memory} {s : Nat} {c : CacheSet} (h : c.Inv p ram s) {w : Nat}
    (hw : w < p.nways) (hv : (c.line w).valid = true) (off : Nat) (v : Word) :
    (c.setLine w ((c.line w).store off v)).Inv p ram s := by
  rw [cacheSet_inv_iff] at h ⊢
  obtain ⟨h1, h3, h4, hh, h8⟩ := h
  have hL := fun u => line_setLine c (w := w) (u := u) ((c.line w).store off v) (by omega)
  have hval : ∀ u, ((c.setLine w ((c.line w).store off v)).line u).valid = (c.line u).valid ∧
      ((c.setLine w ((c.line w).store off v)).line u).tag = (c.line u).tag := by
    intro u
    rw [hL]
    split
    · subst u
      simp [Line.store]
    · simp
  refine ⟨by simpa [CacheSet.setLine] using h1, h3, ?_, ?_, ?_⟩
  · exact pairwise_map_congr h4 (fun x _ => (hval x).1.symm)
  · intro u hu
    rw [(hval u).1, (hval u).2, hL]
    split
    · subst u
      have := hh w hw
      simp [Line.store, this, hv]
    · exact hh u hu
  · intro i hi j hj
    rw [(hval i).1, (hval j).1, (hval i).2, (hval j).2]
    exact h8 i hi j hj

/-- The victim is the first of the order, and a way. -/
theorem victim_spec {p : Params} (hl : p.legal) {ram : Memory} {s : Nat} {c : CacheSet} (h : c.Inv p ram s) :
    c.order = c.victim :: c.order.tail ∧ c.victim < p.nways := by
  have hp := h.2.2.1
  have hn := hl.2.2.2.2.1
  cases ho : c.order with
  | nil =>
    rw [ho] at hp
    have := hp.length_eq
    simp at this
    omega
  | cons v t =>
    rw [ho] at hp
    have hv : v ∈ List.range p.nways := hp.mem_iff.1 (by simp)
    simp only [CacheSet.victim, ho, List.headD_cons, List.tail_cons, true_and]
    simpa using hv

/-! ### Eviction and install -/

/-- An eviction: exactly when the victim is valid and dirty, RAM gets its data at its base address and the log one entry. -/
theorem evict_spec {m : MemSys} {p : Params} (hI : m.Inv p) (he : m.cacheEnabled = true) {s w : Nat}
    (hs : s < p.nsets) (hw : w < p.nways) :
    let l := (m.cacheSet s).line w
    let n := m.evict p s l
    ((l.valid && l.dirty) = true → ∀ k < p.lineWords, n.ram.read (lineAddr p l.tag s + k) = l.data.getD k 0) ∧
    (∀ b, (l.valid && l.dirty) = false ∨ b < lineAddr p l.tag s ∨ lineAddr p l.tag s + p.lineWords ≤ b →
      n.ram.read b = m.ram.read b) ∧
    n.evictions = m.evictions ++
      (if l.valid && l.dirty then [(BitVec.ofNat 32 (lineAddr p l.tag s), l.data)] else []) ∧
    n.ram.wf ∧ (∀ c ∈ n.ram, c.1 < p.ramCapacity) := by
  dsimp only
  have hw' := (cacheSet_inv_iff.1 (cacheSet_inv hI he hs)).2.2.2.1 w hw
  cases hd : (((m.cacheSet s).line w).valid && ((m.cacheSet s).line w).dirty)
  · simp only [MemSys.evict, hd]
    simpa using ⟨hI.1, fun a b h => hI.2.1 (a, b) h⟩
  · have hv : ((m.cacheSet s).line w).valid = true := by
      simp at hd
      exact hd.1
    simp only [MemSys.evict, hd, if_true, MemSys.writeback]
    refine ⟨?_, ?_, by simp, wf_writeAll hI.1 _ _, ?_⟩
    · intro _ k hk
      rw [read_writeAll_inside hI.1 _ (by rw [hw'.1]; exact hk)]
      simp [List.getD, hw'.1, hk]
    · intro b hb
      simp at hb
      exact read_writeAll_outside _ _ (by rw [hw'.1]; exact hb)
    · exact range_writeAll hI.2.1 (by rw [hw'.1]; exact hw'.2.2.1 hv)

/-- An eviction changes RAM at no address of another valid line. -/
theorem evict_other_line {m : MemSys} {p : Params} (hI : m.Inv p) (he : m.cacheEnabled = true) {s w s' w' k : Nat}
    (hs : s < p.nsets) (hw : w < p.nways) (hs' : s' < p.nsets) (hw' : w' < p.nways)
    (hv' : ((m.cacheSet s').line w').valid = true) (hne : s' ≠ s ∨ w' ≠ w) (hk : k < p.lineWords) :
    (m.evict p s ((m.cacheSet s).line w)).ram.read (lineAddr p ((m.cacheSet s').line w').tag s' + k) =
      m.ram.read (lineAddr p ((m.cacheSet s').line w').tag s' + k) := by
  refine (evict_spec hI he hs hw).2.1 _ ?_
  by_contra hc
  simp only [not_or, Bool.not_eq_false, not_lt, not_le] at hc
  obtain ⟨hd, hc1, hc2⟩ := hc
  obtain ⟨ht, rfl, _⟩ := lineAddr_inj hs' hs hk
    (k' := lineAddr p ((m.cacheSet s').line w').tag s' + k - lineAddr p ((m.cacheSet s).line w).tag s)
    (by omega) (by omega) (t := ((m.cacheSet s').line w').tag) (t' := ((m.cacheSet s).line w).tag)
  simp at hd
  have hsame := (cacheSet_inv_iff.1 (cacheSet_inv hI he hs)).2.2.2.2 w' hw' w hw hv' hd.1 ht
  rcases hne with h | h
  · exact h rfl
  · exact h hsame

/-- Install on a miss: the way is the victim; its line is loaded from RAM after the eviction, valid and clean, and becomes the most
recently used; no other line and no other set changes. -/
theorem install_spec {m : MemSys} {p : Params} (hl : p.legal) (hI : m.Inv p) (he : m.cacheEnabled = true) (a : Nat) :
    let s := indexOf p a
    let c := m.cacheSet s
    let n := (m.install p a).1
    let w := (m.install p a).2
    w = c.victim ∧ w < p.nways ∧ n.cacheEnabled = true ∧ n.sets.length = p.nsets ∧
      (∀ j, j ≠ s → n.cacheSet j = m.cacheSet j) ∧ (n.cacheSet s).lines.length = p.nways ∧
      (n.cacheSet s).order = c.order.tail ++ [w] ∧
      (n.cacheSet s).line w =
        { valid := true, dirty := false, tag := tagOf p a, data := n.ram.readAll (baseOf p a) p.lineWords } ∧
      (∀ u, u ≠ w → (n.cacheSet s).line u = c.line u) ∧
      n.ram = (m.evict p s (c.line w)).ram ∧ n.evictions = (m.evict p s (c.line w)).evictions := by
  dsimp only
  have hs := indexOf_lt hl a
  generalize hidx : indexOf p a = s at *
  have hS := cacheSet_inv hI he hs
  obtain ⟨hvo, hvw⟩ := victim_spec hl hS
  generalize hw : (m.cacheSet s).victim = w at *
  have h2 : (m.install p a).2 = w := by simp [MemSys.install, hidx, hw]
  have h1 : (m.install p a).1 = (m.evict p s ((m.cacheSet s).line w)).setSet s
      (((m.cacheSet s).setLine w ((m.evict p s ((m.cacheSet s).line w)).fill p a)).touch w) := by
    simp [MemSys.install, hidx, hw]
  have hlen : w < (m.cacheSet s).lines.length := by
    rw [hS.1]
    exact hvw
  rw [h2]
  generalize hm1 : m.evict p s ((m.cacheSet s).line w) = m1 at *
  have hsets : m1.sets = m.sets := by rw [← hm1]; simp
  have hen : m1.cacheEnabled = true := by rw [← hm1]; simp [he]
  have hsl : m1.sets.length = p.nsets := by rw [hsets, sets_length hI he]
  have hcs : (m.install p a).1.cacheSet s = ((m.cacheSet s).setLine w (m1.fill p a)).touch w := by
    rw [h1]
    exact cacheSet_setSet_same m1 _ (by rw [hsl]; exact hs)
  have hline : ∀ u, ((m.install p a).1.cacheSet s).line u =
      if u = w then m1.fill p a else (m.cacheSet s).line u := by
    intro u
    rw [hcs]
    exact line_setLine _ _ hlen
  have hram : (m.install p a).1.ram = m1.ram := by rw [h1]; rfl
  refine ⟨rfl, hvw, by rw [h1]; exact hen, by rw [h1]; simp [hsl], ?_, ?_, ?_, ?_, ?_, hram, by rw [h1]; rfl⟩
  · intro j hj
    rw [h1, cacheSet_setSet_ne m1 _ hj]
    exact cacheSet_congr hsets j
  · rw [hcs]
    simpa [CacheSet.touch, CacheSet.setLine] using hS.1
  · rw [hcs]
    simp only [CacheSet.touch, CacheSet.setLine]
    congr 1
    have hnd : (m.cacheSet s).order.Nodup := hS.2.2.1.nodup_iff.2 List.nodup_range
    rw [hvo] at hnd ⊢
    rw [List.nodup_cons] at hnd
    simp only [List.filter_cons, bne_self_eq_false, Bool.false_eq_true, if_false, List.tail_cons]
    refine List.filter_eq_self.2 fun x hx => ?_
    simp only [bne_iff_ne, ne_eq]
    rintro rfl
    exact hnd.1 hx
  · rw [hline, if_pos rfl, hram]
    rfl
  · intro u hu
    rw [hline, if_neg hu]

/-- Touching a way moves it to the end of the recency order. -/
theorem touch_order_erase {c : CacheSet} (h : c.order.Nodup) (w : Nat) : (c.touch w).order = c.order.erase w ++ [w] := by
  simp [CacheSet.touch, List.Nodup.erase_eq_filter h]

/-- An address that misses lies in no valid line of its set. -/
theorem miss_outside_line {p : Params} (hl : p.legal) {ram : Memory} {c : CacheSet} {a w : Nat}
    (h : c.Inv p ram (indexOf p a)) (hm : c.hitWay (tagOf p a) = none) (hw : w < p.nways)
    (hv : (c.line w).valid = true) :
    a < lineAddr p (c.line w).tag (indexOf p a) ∨ lineAddr p (c.line w).tag (indexOf p a) + p.lineWords ≤ a := by
  by_contra hc
  have ha := lineAddr_add_offset p a
  obtain ⟨ht, _, _⟩ := lineAddr_inj (indexOf_lt hl a) (indexOf_lt hl a) (offsetOf_lt hl a)
    (k' := a - lineAddr p (c.line w).tag (indexOf p a)) (by omega) (t := tagOf p a) (t' := (c.line w).tag) (by omega)
  exact (miss_iff h).1 hm w hw hv ht.symm

end Sys2Proof.Laws
end

