-- ==== Sys2Proof/Laws/Engine.lean ====
section
/-! SUPPORT. What each of the five steps of a pipelined advance changes, and the two ways an advance that no error stops can end,
stalled and unstalled (spec/40_pipeline_engine.md section 2). -/

namespace Sys2Proof.Laws

open Sys2Proof.Machine

/-- Step 1 as one update: what `slot[W]` holds is retired, and the slot empties. -/
theorem step1Writeback_eq_applyRetire (s : State) :
    step1Writeback s = { s.applyRetire s.slotW.retireOut with slotW := .bubble } := by
  rcases step1Writeback_eq s with ⟨h, e⟩ | ⟨r, h, e⟩
  · rw [e, h]
    cases s
    simp_all [State.applyRetire, Slot.retireOut, RetireOut.nothing]
  · rw [e, h]
    rfl

/-- What step 2 leaves unchanged; it leaves the stall flags equal. -/
theorem step2Memory_frame {s t : State} (h : step2Memory s = .ok t) :
    t.x = s.x ∧ t.halted = s.halted ∧ t.flags = s.flags ∧ t.pc = s.pc ∧ t.sp = s.sp ∧ t.cycles = s.cycles ∧
      t.fault = s.fault ∧ t.params = s.params ∧ t.overlapped = s.overlapped ∧ t.slotE = s.slotE ∧
      t.slotD = s.slotD ∧ t.slotF = s.slotF ∧ t.stalledFetch = t.stalledMemory := by
  rcases step2Memory_ok h with ⟨_, e⟩ | ⟨r, q, m, _, _, _, e⟩ | ⟨r, q, m, _, _, _, e⟩ <;> subst e <;>
    simp [State.setStall]

/-- What step 3 leaves unchanged. -/
theorem step3Execute_frame {s t : State} (h : step3Execute s = .ok t) :
    t.x = s.x ∧ t.halted = s.halted ∧ t.sp = s.sp ∧ t.cycles = s.cycles ∧ t.fault = s.fault ∧
      t.params = s.params ∧ t.overlapped = s.overlapped ∧ t.slotW = s.slotW ∧ t.slotF = s.slotF ∧
      t.stalledFetch = s.stalledFetch ∧ t.stalledMemory = s.stalledMemory ∧ t.mem = s.mem := by
  rcases step3Execute_ok h with ⟨_, e⟩ | ⟨_, _, e⟩ | ⟨_, r, _, _, e⟩ <;> subst e <;> simp [State.applyExec]

/-- What step 4 leaves unchanged: all but `slot[D]` and `slot[E]`. -/
theorem step4Decode_frame (s : State) :
    (step4Decode s).x = s.x ∧ (step4Decode s).halted = s.halted ∧ (step4Decode s).flags = s.flags ∧
      (step4Decode s).pc = s.pc ∧ (step4Decode s).sp = s.sp ∧ (step4Decode s).cycles = s.cycles ∧
      (step4Decode s).fault = s.fault ∧ (step4Decode s).params = s.params ∧
      (step4Decode s).overlapped = s.overlapped ∧ (step4Decode s).slotW = s.slotW ∧
      (step4Decode s).slotM = s.slotM ∧ (step4Decode s).slotF = s.slotF ∧
      (step4Decode s).stalledFetch = s.stalledFetch ∧
      (step4Decode s).stalledMemory = s.stalledMemory ∧ (step4Decode s).mem = s.mem := by
  unfold step4Decode
  split <;> simp

/-- What step 5 leaves unchanged. -/
theorem step5Fetch_frame {s t : State} (h : step5Fetch s = .ok t) :
    t.x = s.x ∧ t.halted = s.halted ∧ t.flags = s.flags ∧ t.sp = s.sp ∧ t.cycles = s.cycles ∧
      t.fault = s.fault ∧ t.params = s.params ∧ t.overlapped = s.overlapped ∧ t.slotW = s.slotW ∧
      t.slotM = s.slotM ∧ t.slotE = s.slotE ∧ t.stalledFetch = s.stalledFetch ∧
      t.stalledMemory = s.stalledMemory := by
  rcases step5Fetch_ok h with ⟨_, e⟩ | ⟨_, w, u, hf, e⟩
  · subst e
    simp
  · obtain ⟨_, _, rfl⟩ := fetchWord_ok_iff.1 hf
    subst e
    simp

/-- A pipelined step that latches no fault has gone through all five steps. -/
theorem advance_without_error {s t : State} (hp : s.pipelining) (hs : step s = .next t) (hf : t.fault = none) :
    ∃ s2 s3 s5, step2Memory (step1Writeback s) = .ok s2 ∧ step3Execute s2 = .ok s3 ∧
      step5Fetch (step4Decode s3) = .ok s5 ∧ t = { s5 with cycles := s5.cycles + 1 } := by
  have ht : t = advancePipelined s := by
    simp only [step, advance, hp.1, hp.2, Bool.false_eq_true, if_false, if_true, Host.Outcome.next.injEq] at hs
    exact hs.symm
  rcases advancePipelined_cases s with ⟨f, _, e⟩ | ⟨s2, f, _, _, e⟩ | ⟨s2, s3, f, _, _, _, e⟩ |
    ⟨s2, s3, s5, h2, h3, h5, e⟩
  · rw [ht, e] at hf
    simp [State.raise] at hf
  · rw [ht, e] at hf
    simp [State.raise] at hf
  · rw [ht, e] at hf
    simp [State.raise] at hf
  · exact ⟨s2, s3, s5, h2, h3, h5, ht.trans e⟩

/-- While Memory stalls, steps 3 to 5 only empty `slot[F]`. -/
theorem steps_3_to_5_stalled {s2 s3 s5 : State} (hsf : s2.stalledFetch = s2.stalledMemory)
    (hst : s2.stalledMemory = true) (h3 : step3Execute s2 = .ok s3) (h5 : step5Fetch (step4Decode s3) = .ok s5) :
    s5 = { s2 with slotF := .bubble } := by
  rcases step3Execute_ok h3 with ⟨_, e⟩ | ⟨h, _⟩ | ⟨h, _⟩
  · have h4 : step4Decode s2 = s2 := by simp [step4Decode, hst]
    rw [e, h4] at h5
    rcases step5Fetch_ok h5 with ⟨_, e⟩ | ⟨h, _⟩
    · exact e
    · rw [hsf, hst] at h
      simp at h
  · rw [hst] at h
    simp at h
  · rw [hst] at h
    simp at h

/-- While Memory does not stall, steps 3 to 5 execute `slot[E]`, decode `slot[D]` and fetch from the redirected pc. -/
theorem steps_3_to_5_unstalled {s2 s3 s5 : State} (hsf : s2.stalledFetch = s2.stalledMemory)
    (hst : s2.stalledMemory = false) (h3 : step3Execute s2 = .ok s3) (h5 : step5Fetch (step4Decode s3) = .ok s5) :
    let o := s2.slotE.execOut s2.x s2.flags
    let a := o.redirect.getD s2.pc
    let r := s2.mem.cacheRead s2.params a.toNat
    s5.flags = o.flags.getD s2.flags ∧
      s5.slotM = (match s2.slotE with
        | .bubble => .bubble
        | .instr q => .instr (q.afterExec o)) ∧
      s5.slotE = (if o.redirect.isSome then .bubble else s2.slotD.afterDecode) ∧
      s5.pc = a + 1 ∧ s5.slotD = .instr (newInstruction r.word a) ∧ s5.mem = r.mem ∧
      a.toNat < s2.params.ramCapacity := by
  dsimp only
  have f3 := step3Execute_frame h3
  have f4 := step4Decode_frame s3
  rcases step5Fetch_ok h5 with ⟨h, e⟩ | ⟨h, w, u, hw, e⟩
  · simp only [f4, f3, hsf, hst] at h
    simp at h
  rw [fetchWord_ok_iff] at hw
  obtain ⟨hc, hw, hu⟩ := hw
  subst hu
  subst e
  simp only [f4, f3] at hc hw ⊢
  rcases step3Execute_ok h3 with ⟨h, e⟩ | ⟨h, hE, e⟩ | ⟨h, r, hE, _, e⟩
  · rw [hst] at h
    simp at h
  · subst e
    simp [hE, Slot.execOut, ExecOut.nothing, step4Decode, hst] at hw hc ⊢
    simp [hw, hc]
    cases hD : s2.slotD <;> simp [Slot.afterDecode]
  · subst e
    simp [hE, Slot.execOut, step4Decode, hst, State.applyExec] at hw hc ⊢
    simp [hw, hc]
    by_cases hr : (r.stages.exec s2.x s2.flags).redirect.isSome = true
    · simp [hr]
    · simp only [hr]
      cases hD : s2.slotD <;> simp [Slot.afterDecode]

/-- Issuing a record changes neither its Word nor its origin. -/
theorem issueMem_ids {p : Params} {m n : MemSys} {r q : InstrRecord} (h : issueMem p m r = .ok (q, n)) :
    q.raw = r.raw ∧ q.origin = r.origin := by
  rcases issueMem_cases p m r with ⟨_, e⟩ | ⟨_, o, _, e⟩ | ⟨_, o, _, e⟩ <;> rw [e] at h <;> simp at h <;>
    simp [← h.1]

/-- Decode changes neither the Word of a record nor its origin. -/
theorem decodeStep_ids (r : InstrRecord) : r.decodeStep.raw = r.raw ∧ r.decodeStep.origin = r.origin := by
  unfold InstrRecord.decodeStep
  split <;> simp

/-- Issuing a record changes nothing its stage functions depend on, whatever latency remains. -/
theorem issueMem_stages {p : Params} {m n : MemSys} {r q : InstrRecord} (h : issueMem p m r = .ok (q, n)) (k : Nat) :
    InstrRecord.stages { q with memRemaining := k } = r.stages := by
  rcases issueMem_cases p m r with ⟨_, e⟩ | ⟨_, o, _, e⟩ | ⟨_, o, _, e⟩ <;> rw [e] at h <;> simp at h <;>
    rw [← h.1] <;> rfl

/-- The one error of an issue: `AddressOutOfRange` in stage M. -/
theorem issueMem_error {p : Params} {m : MemSys} {r : InstrRecord} {f : FaultRecord} (h : issueMem p m r = .error f) :
    f.kind = .addressOutOfRange ∧ f.stage = .M := by
  rcases issueMem_cases p m r with ⟨_, e⟩ | ⟨_, o, ho, e⟩ | ⟨_, o, ho, e⟩ <;> rw [e] at h <;> simp at h
  subst h
  unfold InstrRecord.stages at ho
  split at ho
  · exact memOp_error ho
  · simp [inertStages, noMemOp] at ho

/-- What Execute leaves in `slot[D]` while Memory does not stall: a bubble if it redirects. -/
theorem step3Execute_slotD {s t : State} (h : step3Execute s = .ok t) (hst : s.stalledMemory = false) :
    t.slotD = if (s.slotE.execOut s.x s.flags).redirect.isSome then .bubble else s.slotD := by
  rcases step3Execute_ok h with ⟨h, _⟩ | ⟨_, hE, e⟩ | ⟨_, r, hE, _, e⟩
  · rw [hst] at h
    simp at h
  · rw [e, hE]
    rfl
  · rw [e, hE]
    rfl

/-- The state Execute sees after steps 1 and 2 gives `executeOut` of the state before the advance. -/
theorem executeOut_eq {s s2 : State} (h : step2Memory (step1Writeback s) = .ok s2) :
    s.executeOut = s2.slotE.execOut s2.x s2.flags ∧ s2.slotD = s.slotD := by
  obtain ⟨hx, -, hf, -, -, -, -, -, -, hE, hD, -⟩ := step2Memory_frame h
  rw [step1Writeback_eq_applyRetire] at hx hf hE hD
  rw [hx, hf, hE, hD]
  exact ⟨rfl, rfl⟩

end Sys2Proof.Laws
end

