-- ==== Sys2Proof/Laws/HostOps.lean ====
section
/-! SUPPORT. What a cold cache reads as, and one round of the bounded driver (spec/45_host_operations.md R212, R216). -/

namespace Sys2Proof.Laws

open Sys2Proof.Machine

/-- Nothing hits in a cold cache. -/
theorem hitWay_of_cold {m : MemSys} (h : m.cold = true) (i t : Nat) : (m.cacheSet i).hitWay t = none := by
  rw [hitWay_none]
  intro w hw hv
  by_cases hn : i < m.sets.length
  · have hm : m.cacheSet i ∈ m.sets := by simp [MemSys.cacheSet, List.getD, hn]
    simp only [MemSys.cold, List.all_eq_true, Bool.not_eq_eq_eq_not, Bool.not_true] at h
    rw [h _ hm _ (line_mem _ hw)] at hv
    simp at hv
  · simp [MemSys.cacheSet, List.getD, hn] at hw

/-- With a cold cache memory reads as RAM. -/
theorem view_of_cold {m : MemSys} (h : m.cold = true) (p : Params) (k : Nat) : m.view p k = m.ram.read k := by
  simp [MemSys.view, hitWay_of_cold h]

/-- One round of the driver: it stops at a state that meets a test, in the order of the tests, and else advances. -/
theorem runLoop_cases (c0 K fuel : Nat) (s : State) :
    (∃ f, s.fault = some f ∧ runLoop c0 K fuel s = (.faulted f, s)) ∨
    (s.fault = none ∧ s.halted = true ∧ runLoop c0 K fuel s = (.completed, s)) ∨
    (s.fault = none ∧ s.halted = false ∧ (K ≤ s.cycles - c0 ∨ fuel = 0) ∧
      runLoop c0 K fuel s = (.cycleLimitExceeded, s)) ∨
    (s.fault = none ∧ s.halted = false ∧ s.cycles - c0 < K ∧
      ∃ n, fuel = n + 1 ∧ runLoop c0 K fuel s = runLoop c0 K n s.advanced) := by
  cases hf : s.fault with
  | some f => exact Or.inl ⟨f, rfl, by unfold runLoop; simp [hf]⟩
  | none =>
    cases hh : s.halted
    · by_cases hk : K ≤ s.cycles - c0
      · exact Or.inr (Or.inr (Or.inl ⟨rfl, rfl, Or.inl hk, by unfold runLoop; simp [hf, hh, hk]⟩))
      · cases fuel with
        | zero => exact Or.inr (Or.inr (Or.inl ⟨rfl, rfl, Or.inr rfl, by unfold runLoop; simp [hf, hh, hk]⟩))
        | succ n =>
          exact Or.inr (Or.inr (Or.inr ⟨rfl, rfl, Nat.not_le.1 hk, n, rfl, by rw [runLoop]; simp [hf, hh, hk]⟩))
    · exact Or.inr (Or.inl ⟨rfl, rfl, by unfold runLoop; simp [hf, hh]⟩)

end Sys2Proof.Laws
end

