-- ==== Sys2Proof/Laws/PerInstr.lean ====
section
/-! SUPPORT. The family `WellFormed`, instruction by instruction: every value of an instruction's fields is one its format admits
(spec/30_encoding.md R108 to R112), so no instruction is ill formed. -/

namespace Sys2Proof.Laws

/-- Every instruction is well formed, whatever its operands: its fields have the widths of the format. -/
def WellFormed.Statement (i : Instr) : Prop := i.wellFormed = true

theorem WellFormed.nop : WellFormed.Statement .nop := rfl

theorem WellFormed.ldr (rd rn : RegNum) (imm : Imm18) : WellFormed.Statement (.ldr rd rn imm) := by
  have := rd.isLt; have := rn.isLt; have := imm.isLt
  simp only [WellFormed.Statement, Instr.wellFormed, Bool.and_eq_true, decide_eq_true_eq]
  omega

theorem WellFormed.str (rd rn : RegNum) (imm : Imm18) : WellFormed.Statement (.str rd rn imm) := by
  have := rd.isLt; have := rn.isLt; have := imm.isLt
  simp only [WellFormed.Statement, Instr.wellFormed, Bool.and_eq_true, decide_eq_true_eq]
  omega

theorem WellFormed.addi (rd rn : RegNum) (imm : Imm18) : WellFormed.Statement (.addi rd rn imm) := by
  have := rd.isLt; have := rn.isLt; have := imm.isLt
  simp only [WellFormed.Statement, Instr.wellFormed, Bool.and_eq_true, decide_eq_true_eq]
  omega

theorem WellFormed.add (rd rn rm : RegNum) : WellFormed.Statement (.add rd rn rm) := by
  have := rd.isLt; have := rn.isLt; have := rm.isLt
  simp only [WellFormed.Statement, Instr.wellFormed, Bool.and_eq_true, decide_eq_true_eq]
  omega

theorem WellFormed.sub (rd rn rm : RegNum) : WellFormed.Statement (.sub rd rn rm) := by
  have := rd.isLt; have := rn.isLt; have := rm.isLt
  simp only [WellFormed.Statement, Instr.wellFormed, Bool.and_eq_true, decide_eq_true_eq]
  omega

theorem WellFormed.b (target : Target) : WellFormed.Statement (.b target) := by
  have := target.isLt
  simp only [WellFormed.Statement, Instr.wellFormed, decide_eq_true_eq]
  omega

theorem WellFormed.beq (target : Target) : WellFormed.Statement (.beq target) := by
  have := target.isLt
  simp only [WellFormed.Statement, Instr.wellFormed, decide_eq_true_eq]
  omega

theorem WellFormed.bne (target : Target) : WellFormed.Statement (.bne target) := by
  have := target.isLt
  simp only [WellFormed.Statement, Instr.wellFormed, decide_eq_true_eq]
  omega

theorem WellFormed.halt : WellFormed.Statement .halt := rfl

end Sys2Proof.Laws
end

