-- ==== Sys2Proof/Tests/Slice0.lean ====
section
/-! SUPPORT. Tests. The expected values of part 1 are the vectors of spec/95_test_vectors.md, named in each comment, or hand
calculation from the rule named; part 2 shows, for each statement with hypotheses, a state and operands that meet them. -/

namespace Sys2Proof.Tests

open Sys2Proof Sys2Proof.Machine

set_option synthInstance.maxSize 4000
set_option synthInstance.maxHeartbeats 400000
set_option maxRecDepth 4000

/-! ### Part 1. Encodings, written out bit by bit from spec/30_encoding.md R107 to R113 -/

theorem test_word_nop : decode 0b000000_00000000000000000000000000 = .ok .nop := by decide
/-- 95 section 2.4: the low bits of a `NOP` are ignored. -/
theorem test_word_nop_ignored : decode 0x03FFFFFF = .ok .nop := by decide
theorem test_word_ldr : decode 0b000001_0010_0001_111111111111111111 = .ok (.ldr 2 1 0x3FFFF) := by decide
theorem test_word_str : decode 0b000010_0001_0010_000000000000010000 = .ok (.str 1 2 16) := by decide
theorem test_word_addi : decode 0b000011_0010_0001_000000000000000101 = .ok (.addi 2 1 5) := by decide
theorem test_word_add : decode 0b000100_0010_0010_0001_00000000000000 = .ok (.add 2 2 1) := by decide
/-- 95 section 2.4: bits 13 to 0 of an `ADD` are ignored. -/
theorem test_word_add_ignored : decode 0x10887FFF = .ok (.add 2 2 1) := by decide
theorem test_word_sub : decode 0b000101_0001_0001_0011_00000000000000 = .ok (.sub 1 1 3) := by decide
theorem test_word_b : decode 0b000110_00000000000000000000000011 = .ok (.b 3) := by decide
theorem test_word_beq : decode 0b000111_00000000000000000000000111 = .ok (.beq 7) := by decide
theorem test_word_bne : decode 0b001000_00000000000000000000000010 = .ok (.bne 2) := by decide
theorem test_word_halt : decode 0b111111_00000000000000000000000000 = .ok .halt := by decide
theorem test_word_halt_ignored : decode 0xFFFFFFFF = .ok .halt := by decide
/-- 95 section 2.4: opcodes 9, 10 and 62 are reserved. -/
theorem test_word_reserved :
    decode 0x24000000 = .error (.unallocatedOpcode 9) ∧ decode 0x2800007B = .error (.unallocatedOpcode 10) ∧
      decode 0xF8000000 = .error (.unallocatedOpcode 62) := by decide
theorem test_table_word :
    decodeTableWord 32 0x0C840005 = some (.addi 2 1 5) ∧ decodeTableWord 32 0x24000000 = none := by decide

/-! The range checks of the assembly notation (R119): each has a term it refuses, and the assembler refuses it too (R120). -/

theorem test_refuses_register_low : Asm.wellFormed (.ldr 16 0 0) = false ∧ assemble (.ldr 16 0 0) = .error .rangeError := by
  decide
theorem test_refuses_register_mid : Asm.wellFormed (.str 0 16 0) = false ∧ assemble (.str 0 16 0) = .error .rangeError := by
  decide
theorem test_refuses_register_third : Asm.wellFormed (.add 0 0 16) = false ∧ assemble (.add 0 0 16) = .error .rangeError := by
  decide
theorem test_refuses_simm_above :
    Asm.wellFormed (.addi 0 0 131072) = false ∧ assemble (.addi 0 0 131072) = .error .rangeError := by decide
theorem test_refuses_simm_below :
    Asm.wellFormed (.addi 0 0 (-131073)) = false ∧ assemble (.addi 0 0 (-131073)) = .error .rangeError := by decide
theorem test_refuses_target :
    Asm.wellFormed (.bne 67108864) = false ∧ assemble (.bne 67108864) = .error .rangeError := by decide
/-- 95 section 2.4, three rows. -/
theorem test_assemble :
    assemble (.ldr 2 1 (-1)) = .ok 0x0487FFFF ∧ assemble (.addi 1 0 (-1)) = .ok 0x0C43FFFF ∧
      assemble (.sub 1 1 1) = .ok 0x14444000 := by decide

/-! The codec: vectors V6, V7, V9, V10, V11, V13, V15, V16, V18, V19, V20. -/

theorem test_codec_set :
    layoutRI.set 0xFFFFFFFF "rn" 0 = .ok 0xFFC3FFFF ∧ layoutRI.set 0x0C840005 "rd" 15 = .ok 0x0FC40005 ∧
      layoutRI.set 0 "imm18" 0x40000 = .error .rangeError ∧ layoutJ.set 0 "target" 0x4000000 = .error .rangeError := by
  decide
theorem test_codec_get :
    layoutRI.get 0x0C43FFFF "imm18" = .ok 262143 ∧ layoutN.get 0 "rd" = .error .unknownFieldError ∧
      layoutRI.get 0 "rm" = .error .unknownFieldError := by decide
theorem test_codec_add_field :
    (layoutBase.addField "x" 10 4).map (·.free) = .ok [(0, 10), (14, 26)] ∧
      layoutBase.addField "bad" 24 4 = .error .layoutError ∧ layoutBase.addField "bad" 30 4 = .error .layoutError ∧
      layoutBase.addField "bad" (-1) 2 = .error .layoutError ∧ layoutBase.addField "opcode" 0 1 = .error .layoutError := by
  decide
theorem test_codec_derive :
    (layoutBase.derive "wide" (some 40)).map (·.free) = .ok [(0, 26), (32, 40)] ∧
      layoutBase.derive "narrow" (some 30) = .error .layoutError ∧
      (layoutFlags.derive "f8" (some 8)).map (·.free) = .ok [(2, 8)] := by decide
/-- 95 section 2.4, last line, and R121. -/
theorem test_program_text :
    parseProgram [" 11111100000000000000000000000000 ".toList, "1100".toList] = some [0xFC000000, 0xC] ∧
      parseProgram ["102".toList] = none ∧ parseProgram ["".toList] = none := by decide

/-! ### Part 1. One instruction, whole (sequential mode, R149) -/

/-- A machine of 16 Words of RAM with a cache of two sets of one line of two Words. -/
def tiny : Params :=
  { Params.defaults with ramCapacity := 16, nsets := 2, nways := 1, lineWords := 2 }

/-- The reset state of `tiny`, with Words in RAM from address 0. -/
def fresh (ws : List Word) : State :=
  let s := State.resetWith tiny
  { s with mem := { s.mem with ram := s.mem.ram.writeAll 0 ws } }

/-- The state `s` with two registers set. -/
def withRegs (s : State) (r : RegNum) (v : Word) (q : RegNum) (u : Word) : State :=
  { s with x := RegFile.write (RegFile.write s.x r v) q u }

/-- The state after an instruction that answers a next state. -/
def after (i : Instr) (s : State) : State :=
  match exec i s with
  | .next t => t
  | .fault _ => s
  | .refused _ => s

theorem test_nop : (after .nop (fresh [])).cycles = 5 ∧ (after .nop (fresh [])).pc = 0 := by decide
/-- Y2. -/
theorem test_halt : (after .halt (fresh [])).halted = true ∧ (after .halt (fresh [])).cycles = 5 := by decide
/-- M1: `LDR r2, [r1-1]` with `x[1] = 9` loads from 8, a miss: 5 + 4 cycle units. -/
theorem test_ldr :
    let s := withRegs (fresh [0, 0, 0, 0, 0, 0, 0, 0, 0xABCD]) 1 9 3 0
    RegFile.read (after (.ldr 2 1 0x3FFFF) s).x 2 = 0xABCD ∧ (after (.ldr 2 1 0x3FFFF) s).cycles = 9 := by decide
/-- M2: the sum wraps: `x[1] = 0xFFFFFFFF`, displacement 9, address 8. -/
theorem test_ldr_wraps :
    RegFile.read (after (.ldr 2 1 9) (withRegs (fresh [0, 0, 0, 0, 0, 0, 0, 0, 0xABCD]) 1 0xFFFFFFFF 3 0)).x 2 =
      0xABCD := by decide
/-- M3: after the store the view is 42 and the backing store still 0. -/
theorem test_str :
    let t := after (.str 1 0 10) (withRegs (fresh []) 1 42 0 0)
    t.mem.view tiny 10 = 42 ∧ t.mem.ram.read 10 = 0 ∧ t.cycles = 9 := by decide
/-- X3: out of range, the latch gets the record and `cycles` does not count. -/
theorem test_str_out_of_range :
    let t := after (.str 1 2 0) (withRegs (fresh []) 1 42 2 0xFFFFFFFF)
    t.fault = some ⟨.addressOutOfRange, 0xFFFFFFFF, .M⟩ ∧ t.cycles = 0 := by decide
/-- 95 section 2.6: 0 plus the most negative immediate. -/
theorem test_addi_negative :
    let t := after (.addi 1 0 0x20000) (fresh [])
    RegFile.read t.x 1 = 0xFFFE0000 ∧ t.flags = 2 := by decide
/-- 95 section 2.6: `0x10` plus -16. -/
theorem test_addi_zero :
    let t := after (.addi 1 0 0x3FFF0) (withRegs (fresh []) 0 0x10 1 0)
    RegFile.read t.x 1 = 0 ∧ t.flags = 1 := by decide
/-- 95 section 2.6: carry lost. -/
theorem test_add_wraps :
    let t := after (.add 2 0 1) (withRegs (fresh []) 0 1 1 0xFFFFFFFF)
    RegFile.read t.x 2 = 0 ∧ t.flags = 1 := by decide
/-- 95 section 2.6: `ADD r1, r1, r1`, source and destination the same. -/
theorem test_add_same_register :
    let t := after (.add 1 1 1) (withRegs (fresh []) 1 0x40000000 0 0)
    RegFile.read t.x 1 = 0x80000000 ∧ t.flags = 2 := by decide
/-- 95 section 2.6: 5 minus 7, which shows the operand order. -/
theorem test_sub_negative :
    let t := after (.sub 3 1 2) (withRegs (fresh []) 1 5 2 7)
    RegFile.read t.x 3 = 0xFFFFFFFE ∧ t.flags = 2 := by decide
/-- 95 section 2.6: `0x80000000` minus 1: no overflow flag. -/
theorem test_sub_overflow :
    let t := after (.sub 3 1 2) (withRegs (fresh []) 1 0x80000000 2 1)
    RegFile.read t.x 3 = 0x7FFFFFFF ∧ t.flags = 0 := by decide
/-- J1: the target is absolute; the largest target is zero-extended (R112). -/
theorem test_b : (after (.b 3) (fresh [])).pc = 3 ∧ (after (.b 0x3FFFFFF) (fresh [])).pc = 0x03FFFFFF := by decide
/-- J2: taken with `Z = 1`. -/
theorem test_beq_taken : (after (.beq 4) { fresh [] with flags := 1 }).pc = 4 := by decide
/-- J4: from reset `Z = 0`, `BEQ` is not taken. -/
theorem test_beq_not_taken : (after (.beq 4) (fresh [])).pc = 0 := by decide
/-- J4: from reset `BNE` is taken. -/
theorem test_bne_taken : (after (.bne 2) (fresh [])).pc = 2 := by decide
theorem test_bne_not_taken : (after (.bne 2) { fresh [] with flags := 1 }).pc = 0 := by decide

/-! ### Part 1. Steps of the pipeline and the memory -/

/-- The record of the Word `w` fetched at `a` after Decode. -/
def decoded (w a : Word) : InstrRecord := (newInstruction w a).decodeStep

/-- The record after Execute has read the registers `x` (and flags 0). -/
def executed (w a : Word) (x : RegFile) : InstrRecord :=
  (decoded w a).afterExec ((decoded w a).stages.exec x 0)

/-- P1, advance 4: the load issues, misses and stalls; the ADDI behind it is held. -/
def loadIssued : State :=
  { fresh [0x04400008, 0, 0x0C840005, 0xFC000000, 0, 0, 0, 0, 37] with
    pc := 3, cycles := 3
    slotM := .instr (executed 0x04400008 0 (Vector.replicate 16 0))
    slotE := .instr (decoded 0 1)
    slotD := .instr (newInstruction 0x0C840005 2) }

theorem test_stall_begins :
    loadIssued.advanced.stalledMemory = true ∧ loadIssued.advanced.pc = 3 ∧ loadIssued.advanced.cycles = 4 ∧
      loadIssued.advanced.slotE = loadIssued.slotE ∧
      loadIssued.advanced.slotM.hostComputed = some 37 := by decide

/-- T6, advance 4: the consumer directly behind the producer reads the old register. -/
def hazard (policy : RawPolicy) : State :=
  { fresh [0x0C400005, 0x0C840001] with
    params := { tiny with rawPolicy := policy }
    pc := 3, cycles := 3
    slotM := .instr (executed 0x0C400005 0 (Vector.replicate 16 0))
    slotE := .instr (decoded 0x0C840001 1)
    slotD := .instr (newInstruction 0 2) }

theorem test_hazard_stale : (hazard .stale).advanced.slotM.hostComputed = some 1 := by decide
theorem test_hazard_fault :
    (hazard .fault).advanced.fault = some ⟨.hazardViolation, 1, .E⟩ ∧ (hazard .fault).advanced.cycles = 3 := by decide

/-- J1, advance 3: the branch redirects the fetch and squashes the instruction behind it. -/
def branching : State :=
  { fresh [0x18000003, 0x0C400009, 0x0C800009, 0xFC000000] with
    pc := 2, cycles := 2
    slotE := .instr (decoded 0x18000003 0)
    slotD := .instr (newInstruction 0x0C400009 1) }

theorem test_branch_squashes :
    branching.advanced.slotE = .bubble ∧ branching.advanced.slotD = .instr (newInstruction 0xFC000000 3) ∧
      branching.advanced.pc = 4 := by decide

/-- 95 section 2.3, K4 and K5: address splits with the defaults. -/
theorem test_address_split :
    tagOf Params.defaults 65535 = 4095 ∧ indexOf Params.defaults 65535 = 3 ∧ offsetOf Params.defaults 65535 = 3 ∧
      tagOf Params.defaults 17 = 1 ∧ indexOf Params.defaults 17 = 0 ∧ lineAddr Params.defaults 2 1 = 36 := by decide

/-- The word placed for the next fetch is the one the next step runs. -/
theorem test_with_fetch_word :
    step (State.reset.withFetchWord 32 0x0C840005) =
      exec (.addi 2 1 5) { State.reset.withFetchWord 32 0x0C840005 with
        mem := ((State.reset.withFetchWord 32 0x0C840005).mem.cacheRead Params.defaults 0).mem, pc := 1 } := by rfl

/-- R216: a first advance that an error stops leaves `cycles`, the slots and a disabled cache as they were; RAM is no longer
writable all the same. `LDR r1, [r0-1]` in sequential mode. -/
def faultingFirst : State := { fresh [0x0443FFFF] with overlapped := false, mem := (fresh [0x0443FFFF]).mem.disableCache }

theorem test_write_before_first_advance :
    faultingFirst.ramWrite 3 9 =
      .next { faultingFirst with mem := { faultingFirst.mem with ram := [(0, 0x0443FFFF), (3, 9)] } } := by rfl
theorem test_no_write_after_faulted_first_advance :
    faultingFirst.advanced.fault = some ⟨.addressOutOfRange, 0xFFFFFFFF, .M⟩ ∧ faultingFirst.advanced.cycles = 0 ∧
      faultingFirst.advanced.ramWrite 3 9 = .refused .notBeforeFirstAdvance ∧
      faultingFirst.advanced.loadProgram [9] = .refused .notBeforeFirstAdvance := ⟨by decide, by decide, rfl, rfl⟩

/-! ### Part 2. Witnesses: a state and operands that meet the hypotheses of each statement, clause by clause at the ends of a range -/

/-- Memory with cold lines. -/
def coldMem : MemSys := (fresh [5, 6, 7, 8, 9, 10, 11, 12]).mem

/-- Memory after a write to address 2: the line of set 1 is valid and dirty, tag 0. -/
def dirtyMem : MemSys := (coldMem.cacheWrite tiny 2 99).mem

/-- `coldMem` with other content in an invalid line. -/
def otherMem : MemSys :=
  coldMem.setSet 0 { lines := [{ valid := false, dirty := true, tag := 7, data := [1, 2] }], order := [0] }

/-- A core in sequential mode with the Words in RAM. -/
def sequential (ws : List Word) : State := { fresh ws with overlapped := false }

/-- A store in `slot[M]` to the address `a`, an effective ADDI behind it. -/
def storing (a : Word) : State :=
  { fresh [0x08400000, 0x0C400001] with
    pc := 3
    slotM := .instr ((executed 0x08400000 0 (Vector.replicate 16 a)))
    slotE := .instr (decoded 0x0C400001 1)
    slotD := .instr (newInstruction 0 2) }

theorem witness_AssembleBuildsTheWord :
    Asm.wellFormed (.ldr 15 15 131071) = true ∧ Asm.wellFormed (.str 0 15 (-131072)) = true ∧
      Asm.wellFormed (.b 67108863) = true ∧ Asm.wellFormed (.b 67108864) = false := by decide

theorem witness_OpcodeMapRows :
    (9 ≤ (9 : Opcode).toNat ∧ (9 : Opcode).toNat ≤ 62) ∧ 9 ≤ (62 : Opcode).toNat ∧ (62 : Opcode).toNat ≤ 62 := by decide

theorem witness_UnallocatedBitsIgnored :
    (opcodeOf 0 = opcodeOf 0x03FFFFFF ∧ layoutOf (opcodeOf 0) = some layoutN) ∧
    (opcodeOf 0x10884000 = opcodeOf 0x10887FFF ∧ layoutOf (opcodeOf 0x10884000) = some layoutR ∧
      (0x10884000 : Word).extractLsb' 14 12 = (0x10887FFF : Word).extractLsb' 14 12) ∧
    layoutOf (Instr.halt).opcode = some layoutN ∧ layoutOf (Instr.sub 15 15 15).opcode = some layoutR := by decide

theorem witness_NopAndHaltAliases :
    (0x03FFFFFF : Word).toNat < 0x04000000 ∧ 0xFC000000 ≤ (0xFC000000 : Word).toNat := by decide

theorem witness_DecodeReadsLayoutFields : decode 0x0C840005 = .ok (.addi 2 1 5) := by decide

theorem witness_SetThenGet :
    layoutRI.wf ∧ (⟨"imm18", 0, 18⟩ : FieldDescriptor) ∈ layoutRI.fields ∧
      ((0 : Int) ≤ 262143 ∧ (262143 : Int) ≤ ((⟨"imm18", 0, 18⟩ : FieldDescriptor).mask : Int)) ∧
      ((⟨"imm18", 0, 18⟩ : FieldDescriptor).mask : Int) < 262144 ∧ (-1 : Int) < 0 := by decide

/-- One start and width for each cause of a failure, and one that succeeds (V13, V15, V16). -/
theorem witness_AddFieldPartitions :
    layoutBase.wf ∧ (-1 : Int) < 0 ∧ (layoutBase.size : Int) < 30 + (4 : Nat) ∧
    (∃ f ∈ layoutBase.fields, (24 : Int) ≤ (26 : Nat) ∧ ((26 : Nat) : Int) < 24 + (4 : Nat) ∧
      f.startBit ≤ 26 ∧ 26 < f.stopBit) ∧
    (∃ f ∈ layoutBase.fields, f.name = "opcode") ∧
    ¬ ((22 : Int) < 0 ∨ (layoutBase.size : Int) < 22 + (4 : Nat) ∨
        (∃ f ∈ layoutBase.fields, ∃ b : Nat, (22 : Int) ≤ (b : Int) ∧ (b : Int) < 22 + (4 : Nat) ∧
          f.startBit ≤ b ∧ b < f.stopBit) ∨
        (∃ f ∈ layoutBase.fields, f.name = "rd")) := by
  refine ⟨by decide, by decide, by decide, by decide, by decide, ?_⟩
  simp [layoutBase, FieldDescriptor.stopBit]
  omega

theorem witness_DeriveKeepsPartition :
    layoutBase.wf ∧ (∃ f ∈ layoutBase.fields, 31 < f.stopBit) ∧ (∀ f ∈ layoutBase.fields, f.stopBit ≤ 32) ∧
      ∀ f ∈ layoutFlags.fields, f.stopBit ≤ 8 := by decide

theorem witness_InvariantAtReset : Params.defaults.legal ∧ tiny.legal := by decide

theorem witness_StepKeepsInvariant :
    loadIssued.Inv ∧ step loadIssued = .next loadIssued.advanced := ⟨by decide, rfl⟩

/-- The hypotheses hold at a state after an access too: the halves of the step statements that need a stall. -/
theorem witness_StepKeepsInvariant_stalled :
    loadIssued.advanced.Inv ∧ step loadIssued.advanced = .next loadIssued.advanced.advanced := ⟨by decide, rfl⟩

theorem witness_HostOperationsKeepInvariant :
    (fresh []).Inv ∧ (fresh []).setMode false = .next { fresh [] with overlapped := false } ∧
      (fresh []).ramWrite 15 7 = .next { fresh [] with mem := { (fresh []).mem with ram := [(15, 7)] } } ∧
      (fresh []).loadProgram [1, 2] = .next (fresh [1, 2]) := ⟨by decide, rfl, rfl, rfl⟩

theorem witness_RangeCheckComesFirst :
    tiny.ramCapacity ≤ (16 : Word).toNat ∧ (15 : Word).toNat < tiny.ramCapacity := by decide

theorem witness_DisabledCachePassesThrough : coldMem.disableCache.cacheEnabled = false := by decide

theorem witness_LatencyTable :
    coldMem.disableCache.cacheEnabled = false ∧
    (dirtyMem.cacheEnabled = true ∧
      ((dirtyMem.cacheSet (indexOf tiny 2)).hitWay (tagOf tiny 2)).isSome = true) ∧
    coldMem.cacheEnabled = true ∧ ((coldMem.cacheSet (indexOf tiny 2)).hitWay (tagOf tiny 2)).isSome = false := by
  decide

theorem witness_MemReadAnswersAndKeepsView :
    tiny.legal ∧ dirtyMem.Inv tiny ∧ (15 : Word).toNat < tiny.ramCapacity := by decide

theorem witness_MemWriteSetsView :
    tiny.legal ∧ dirtyMem.Inv tiny ∧ (15 : Word).toNat < tiny.ramCapacity := by decide

theorem witness_AccessesKeepMemoryInvariant :
    tiny.legal ∧ dirtyMem.Inv tiny ∧ memRead tiny dirtyMem 6 = .ok (dirtyMem.cacheRead tiny 6) ∧
      memWrite tiny dirtyMem 6 1 = .ok (dirtyMem.cacheWrite tiny 6 1) := ⟨by decide, by decide, rfl, rfl⟩

/-- Address 6 is of set 1 and tag 1: a miss whose victim is valid and dirty. -/
theorem witness_MissReplacesLeastRecent :
    tiny.legal ∧ dirtyMem.Inv tiny ∧ dirtyMem.cacheEnabled = true ∧ 6 < tiny.ramCapacity ∧
      (dirtyMem.cacheSet (indexOf tiny 6)).hitWay (tagOf tiny 6) = none ∧
      (((dirtyMem.cacheSet 1).line 0).valid && ((dirtyMem.cacheSet 1).line 0).dirty) = true := by decide

/-- A miss whose victim is invalid. -/
theorem witness_MissReplacesLeastRecent_clean :
    tiny.legal ∧ coldMem.Inv tiny ∧ coldMem.cacheEnabled = true ∧ 6 < tiny.ramCapacity ∧
      (coldMem.cacheSet (indexOf tiny 6)).hitWay (tagOf tiny 6) = none ∧
      (((coldMem.cacheSet 1).line 0).valid && ((coldMem.cacheSet 1).line 0).dirty) = false := by decide

/-- A write miss that also writes RAM (`WRITE_MISS_RAM_UPDATE`). -/
theorem witness_MissReplacesLeastRecent_through :
    { tiny with writeMissRamUpdate := true }.legal ∧ dirtyMem.Inv { tiny with writeMissRamUpdate := true } ∧
      (dirtyMem.cacheSet (indexOf tiny 6)).hitWay (tagOf tiny 6) = none ∧ tiny.writeMissRamUpdate = false := by decide

/-- Address 6 misses, address 2 hits way 0. -/
theorem witness_RepeatedAccessHits :
    tiny.legal ∧ dirtyMem.Inv tiny ∧ dirtyMem.cacheEnabled = true ∧ (6 : Word).toNat < tiny.ramCapacity ∧
      2 < tiny.ramCapacity ∧ (dirtyMem.cacheSet (indexOf tiny 2)).hitWay (tagOf tiny 2) = some 0 := by decide

theorem witness_InvalidLineContentIrrelevant :
    coldMem.agrees otherMem ∧ coldMem ≠ otherMem ∧ tiny.ramCapacity ≤ (16 : Word).toNat ∧
      (0 : Word).toNat < tiny.ramCapacity := by decide

theorem witness_NopRule :
    (0x03FFFFFF : Word).toNat < 0x04000000 ∧
    ({ fresh [] with slotW := .instr (decoded 0x03FFFFFF 0) } : State).pipelining ∧
    (decoded 0x03FFFFFF 0).effective = some .nop := by decide

theorem witness_HaltRule :
    0xFC000000 ≤ (0xFC000000 : Word).toNat ∧
    (({ fresh [] with slotW := .instr (decoded 0xFC000000 0) } : State).pipelining ∧
      (decoded 0xFC000000 0).effective = some .halt) ∧
    ({ fresh [] with halted := true } : State).halted = true ∧
      step { fresh [] with halted := true } = .next { fresh [] with halted := true } :=
  ⟨by decide, by decide, rfl, rfl⟩

theorem witness_BRule :
    branching.pipelining ∧ branching.slotE = .instr (decoded 0x18000003 0) ∧
    (decoded 0x18000003 0).effective = some (.b 3) ∧ step branching = .next branching.advanced ∧
    branching.advanced.fault = none ∧ branching.advanced.stalledMemory = false :=
  ⟨by decide, rfl, by decide, rfl, by decide, by decide⟩

/-- Displacements 15 and 16 from a zero register: the last address in range and the first beyond it. -/
theorem witness_LdrRule :
    (RegFile.read (fresh []).x 0 + (15 : Imm18).signExtend 32).toNat < tiny.ramCapacity ∧
      tiny.ramCapacity ≤ (RegFile.read (fresh []).x 0 + (16 : Imm18).signExtend 32).toNat := by decide

theorem witness_StrRule :
    (RegFile.read (fresh []).x 0 + (15 : Imm18).signExtend 32).toNat < (fresh []).params.ramCapacity ∧
      (fresh []).params.ramCapacity ≤ (RegFile.read (fresh []).x 0 + (16 : Imm18).signExtend 32).toNat := by decide

theorem witness_ArithmeticFrame :
    exec (.addi 1 0 5) (fresh []) = .next (after (.addi 1 0 5) (fresh [])) ∧
      exec (.add 1 2 3) (fresh []) = .next (after (.add 1 2 3) (fresh [])) ∧
      exec (.sub 1 2 3) (fresh []) = .next (after (.sub 1 2 3) (fresh [])) := ⟨rfl, rfl, rfl⟩

theorem witness_BranchAndSystemFrame :
    exec .nop (fresh []) = .next (after .nop (fresh [])) ∧ exec .halt (fresh []) = .next (after .halt (fresh [])) ∧
      exec (.b 3) (fresh []) = .next (after (.b 3) (fresh [])) ∧
      exec (.beq 3) (fresh []) = .next (after (.beq 3) (fresh [])) ∧
      exec (.bne 3) (fresh []) = .next (after (.bne 3) (fresh [])) := ⟨rfl, rfl, rfl, rfl, rfl⟩

theorem witness_LoadFrame :
    (exec (.ldr 1 0 15) (fresh []) = .next (after (.ldr 1 0 15) (fresh [])) ∧
      (effectiveAddress (fresh []).x 0 15).toNat < tiny.ramCapacity) ∧
    (exec (.ldr 1 0 16) (fresh []) = .next (after (.ldr 1 0 16) (fresh [])) ∧
      tiny.ramCapacity ≤ (effectiveAddress (fresh []).x 0 16).toNat) ∧
    (fresh []).params.legal ∧ (fresh []).mem.Inv (fresh []).params :=
  ⟨⟨rfl, by decide⟩, ⟨rfl, by decide⟩, by decide, by decide⟩

theorem witness_StoreFrame :
    (exec (.str 1 0 15) (fresh []) = .next (after (.str 1 0 15) (fresh [])) ∧
      (effectiveAddress (fresh []).x 0 15).toNat < tiny.ramCapacity) ∧
    (exec (.str 1 0 16) (fresh []) = .next (after (.str 1 0 16) (fresh [])) ∧
      tiny.ramCapacity ≤ (effectiveAddress (fresh []).x 0 16).toNat) ∧
    (fresh []).params.legal ∧ (fresh []).mem.Inv (fresh []).params :=
  ⟨⟨rfl, by decide⟩, ⟨rfl, by decide⟩, by decide, by decide⟩

theorem witness_ExecIsItsStages :
    (stagesOf (.ldr 1 0 15)).memOp tiny coldMem (some 15) none =
      .ok { computed := some 0, latency := 4, mem := (coldMem.cacheRead tiny 15).mem } ∧
    (stagesOf (.ldr 1 0 16)).memOp tiny coldMem (some 16) none =
      .error { kind := .addressOutOfRange, addr := 16, stage := .M } := by
  constructor <;> rfl

theorem witness_StepRunsDecodedInstruction :
    (sequential [0x0C840005]).sequencing ∧
    memRead tiny (sequential [0x0C840005]).mem 0 = .ok ((sequential [0x0C840005]).mem.cacheRead tiny 0) ∧
    decode ((sequential [0x0C840005]).mem.cacheRead tiny 0).word = .ok (.addi 2 1 5) ∧
    (Instr.addi 2 1 5).wellFormed = true := ⟨by decide, rfl, by decide, by decide⟩

theorem witness_InertInstruction :
    ((sequential [0x24000000]).sequencing ∧
      memRead tiny (sequential [0x24000000]).mem 0 = .ok ((sequential [0x24000000]).mem.cacheRead tiny 0) ∧
      decode ((sequential [0x24000000]).mem.cacheRead tiny 0).word = .error (.unallocatedOpcode 9)) ∧
    (decode (newInstruction 0x24000000 0).raw = .error (.unallocatedOpcode 9) ∧
      (newInstruction 0x24000000 0).decodeError = false) ∧
    (decoded 0x24000000 0).decodeError = true := ⟨⟨by decide, rfl, by decide⟩, by decide, by decide⟩

/-- A reserved Word in `slot[D]`, and an inert record in `slot[W]`. -/
def inertInFlight : State :=
  { fresh [0x24000000] with
    pc := 1, slotD := .instr (newInstruction 0x24000000 0), slotW := .instr (decoded 0x24000000 0) }

theorem witness_InertInstruction_pipelined :
    inertInFlight.pipelining ∧ decode (newInstruction 0x24000000 0).raw = .error (.unallocatedOpcode 9) ∧
    (newInstruction 0x24000000 0).decodeError = false ∧ inertInFlight.executeOut.redirect = none ∧
    step inertInFlight = .next inertInFlight.advanced ∧ inertInFlight.advanced.fault = none ∧
    inertInFlight.advanced.stalledMemory = false ∧ (decoded 0x24000000 0).decodeError = true :=
  ⟨by decide, by decide, rfl, by decide, rfl, by decide, by decide, by decide⟩

theorem witness_WritebackIsTheOnlyWriter :
    loadIssued.pipelining ∧ step loadIssued = .next loadIssued.advanced := ⟨by decide, rfl⟩

/-- A load that misses, latency 4: `k` runs from 1 to 3. -/
theorem witness_StallLength :
    loadIssued.pipelining ∧
    loadIssued.slotM = .instr (executed 0x04400008 0 (Vector.replicate 16 0)) ∧
    (executed 0x04400008 0 (Vector.replicate 16 0)).memIssued = false ∧
    (executed 0x04400008 0 (Vector.replicate 16 0)).stages.memOp tiny loadIssued.mem
      (executed 0x04400008 0 (Vector.replicate 16 0)).ea (executed 0x04400008 0 (Vector.replicate 16 0)).computed =
      .ok { computed := some 37, latency := 4, mem := (loadIssued.mem.cacheRead tiny 8).mem } ∧
    loadIssued.slotW.retireOut.halts = false ∧ 1 ≤ 1 ∧ 3 ≤ 4 - 1 :=
  ⟨by decide, rfl, rfl, rfl, rfl, by decide, by decide⟩

theorem witness_UnstalledAdvanceMoves :
    (branching.pipelining ∧ step branching = .next branching.advanced ∧ branching.advanced.fault = none ∧
      branching.advanced.stalledMemory = false) ∧
    loadIssued.pipelining ∧ step loadIssued = .next loadIssued.advanced ∧ loadIssued.advanced.fault = none ∧
      loadIssued.advanced.stalledMemory = true :=
  ⟨⟨by decide, rfl, by decide, by decide⟩, by decide, rfl, by decide, by decide⟩

theorem witness_FetchedWordIsTheView :
    branching.Inv ∧ branching.pipelining ∧ step branching = .next branching.advanced ∧
      branching.advanced.fault = none ∧ branching.advanced.stalledMemory = false :=
  ⟨by decide, by decide, rfl, by decide, by decide⟩

theorem witness_HazardPolicy :
    ((hazard .fault).pipelining ∧ (hazard .fault).params.rawPolicy = .fault ∧
      (hazard .fault).slotM = .instr (executed 0x0C400005 0 (Vector.replicate 16 0)) ∧
      (hazard .fault).slotE = .instr (decoded 0x0C840001 1) ∧
      (∃ q1, issueMem (hazard .fault).params (hazard .fault).mem (executed 0x0C400005 0 (Vector.replicate 16 0)) =
        .ok (q1, (hazard .fault).mem) ∧ q1.memRemaining ≤ 1) ∧
      (executed 0x0C400005 0 (Vector.replicate 16 0)).stages.dest = some 1 ∧
      (1 : RegNum) ∈ (decoded 0x0C840001 1).stages.src) ∧
    ({ hazard .stale with pc := 16 } : State).params.rawPolicy = .stale ∧
    ({ hazard .stale with pc := 16 } : State).fault = none ∧
    step { hazard .stale with pc := 16 } = .next ({ hazard .stale with pc := 16 } : State).advanced ∧
    ({ hazard .stale with pc := 16 } : State).advanced.fault = some ⟨.addressOutOfRange, 16, .F⟩ :=
  ⟨⟨by decide, rfl, rfl, rfl, ⟨_, rfl, by decide⟩, rfl, by decide⟩, rfl, rfl, rfl, by decide⟩

theorem witness_HazardPolicy_only :
    ((hazard .fault).pipelining ∧ step (hazard .fault) = .next (hazard .fault).advanced ∧
      (hazard .fault).advanced.fault = some ⟨.hazardViolation, 1, .E⟩) ∧
    ({ sequential [] with pc := 16 } : State).sequencing ∧
    step { sequential [] with pc := 16 } = .next ({ sequential [] with pc := 16 } : State).advanced ∧
    ({ sequential [] with pc := 16 } : State).advanced.fault = some ⟨.addressOutOfRange, 16, .F⟩ :=
  ⟨⟨by decide, rfl, by decide⟩, by decide, rfl, by decide⟩

theorem witness_FetchFaultState :
    (({ fresh [] with pc := 16 } : State).pipelining ∧ (fresh []).slotM = .bubble ∧ (fresh []).slotE = .bubble ∧
      tiny.ramCapacity ≤ (16 : Word).toNat) ∧
    (step { fresh [] with pc := 16 } = .next ({ fresh [] with pc := 16 } : State).advanced ∧
      ({ fresh [] with pc := 16 } : State).advanced.fault = some ⟨.addressOutOfRange, 16, .F⟩) ∧
    ({ sequential [] with pc := 16 } : State).sequencing :=
  ⟨by decide, ⟨rfl, by decide⟩, by decide⟩

theorem witness_DataFaultState :
    (storing 16).pipelining ∧
    (storing 16).slotM = .instr (executed 0x08400000 0 (Vector.replicate 16 16)) ∧
    (executed 0x08400000 0 (Vector.replicate 16 16)).memIssued = false ∧
    (executed 0x08400000 0 (Vector.replicate 16 16)).isAccess = true ∧
    (executed 0x08400000 0 (Vector.replicate 16 16)).executed false = true ∧
    (executed 0x08400000 0 (Vector.replicate 16 16)).ea = some 16 ∧
    (storing 16).params.ramCapacity ≤ (16 : Word).toNat := by decide

theorem witness_CycleCountPipelined :
    ((storing 15).pipelining ∧ step (storing 15) = .next (storing 15).advanced ∧ (storing 15).advanced.fault = none) ∧
    (storing 16).pipelining ∧ step (storing 16) = .next (storing 16).advanced ∧ (storing 16).advanced.fault ≠ none :=
  ⟨⟨by decide, rfl, by decide⟩, by decide, rfl, by decide⟩

theorem witness_CyclesNeverDecrease :
    step (storing 15) = .next (storing 15).advanced ∧ (storing 15).stopped = false ∧
      (storing 15).advanced.fault = none := ⟨rfl, by decide, by decide⟩

theorem witness_StoppedCoreDoesNothing :
    ({ fresh [] with halted := true } : State).halted = true ∧
    (storing 16).advanced.fault ≠ none ∧
    (¬ ((fresh []).halted = true ∨ (fresh []).fault ≠ none) ∧ (fresh []).overlapped = true) ∧
    ¬ ((sequential []).halted = true ∨ (sequential []).fault ≠ none) ∧ (sequential []).overlapped = false := by decide

/-- Running and stopped; `slot[W]` with and without a record; Decode run, with a fetch fault behind it, stalled, redirected; an
instruction run whole, one that faults, one that cannot be fetched. -/
theorem witness_StepAlwaysAnswersNext :
    (storing 16).stopped = false ∧ (storing 16).advanced.stopped = true ∧
    ((storing 16).pipelining ∧ (storing 16).slotW = .bubble ∧
      inertInFlight.slotW = .instr (decoded 0x24000000 0)) ∧
    (inertInFlight.slotD.fetchedOk = true ∧ inertInFlight.advanced.fault = none ∧
      inertInFlight.advanced.stalledMemory = false ∧ inertInFlight.executeOut.redirect = none) ∧
    ({ inertInFlight with pc := 16 } : State).advanced.fault = some ⟨.addressOutOfRange, 16, .F⟩ ∧
    (loadIssued.slotD.fetchedOk = true ∧ loadIssued.advanced.fault = none ∧
      loadIssued.advanced.stalledMemory = true) ∧
    (branching.slotD.fetchedOk = true ∧ branching.executeOut.redirect.isSome = true) ∧
    ((sequential [0x24000000]).sequencing ∧ (sequential [0x24000000]).advanced.fault = none ∧
      memRead tiny (sequential [0x24000000]).mem 0 = .ok ((sequential [0x24000000]).mem.cacheRead tiny 0)) ∧
    (faultingFirst.sequencing ∧ faultingFirst.advanced.fault ≠ none) ∧
    memRead tiny (sequential []).mem 16 = .error .addressOutOfRange :=
  ⟨by decide, by decide, by decide, by decide, by decide, by decide, by decide,
    ⟨by decide, by decide, rfl⟩, by decide, rfl⟩

theorem witness_StepNeverChanges : step (storing 15) = .next (storing 15).advanced := rfl

theorem witness_InFlightInOrder :
    (branching.pipelining ∧ step branching = .next branching.advanced ∧ branching.advanced.fault = none ∧
      branching.advanced.stalledMemory = false) ∧
    loadIssued.pipelining ∧ step loadIssued = .next loadIssued.advanced ∧ loadIssued.advanced.fault = none ∧
      loadIssued.advanced.stalledMemory = true :=
  ⟨⟨by decide, rfl, by decide, by decide⟩, by decide, rfl, by decide, by decide⟩

theorem witness_ViewChangesOnlyByStore :
    ((storing 15).Inv ∧ step (storing 15) = .next (storing 15).advanced ∧ (storing 15).storeIssued = some (15, 15) ∧
      15 < (storing 15).params.ramCapacity) ∧
    loadIssued.Inv ∧ step loadIssued = .next loadIssued.advanced ∧ loadIssued.storeIssued = none :=
  ⟨⟨by decide, rfl, by decide, by decide⟩, by decide, rfl, by decide⟩

theorem witness_CycleIsRepeatedAdvance :
    (State.advanced^[1] (sequential [0xFC000000])).stopped = true ∧
    (sequential [0xFC000000]).sequencing ∧
    step (sequential [0xFC000000]) = .next (sequential [0xFC000000]).advanced ∧
    (sequential [0xFC000000]).advanced.fault = none := ⟨by decide, by decide, rfl, by decide⟩

/-- The three results: `[HALT]` in sequential mode, a fetch off the end, and a ceiling of 0. -/
theorem witness_RunToCompletion :
    runToCompletion 6 (sequential [0xFC000000]) = (.completed, (sequential [0xFC000000]).advanced) ∧
    runToCompletion 6 { sequential [] with pc := 16 } =
      (.faulted ⟨.addressOutOfRange, 16, .F⟩, ({ sequential [] with pc := 16 } : State).advanced) ∧
    runToCompletion 1 (fresh []) = (.cycleLimitExceeded, (fresh []).advanced) ∧
    runToCompletion 1 (sequential []) = (.cycleLimitExceeded, (sequential []).advanced) := ⟨rfl, rfl, rfl, rfl⟩

theorem witness_SetModeOnlyWhenDrained :
    ((fresh []).slotF = .bubble ∧ (fresh []).slotD = .bubble ∧ (fresh []).slotE = .bubble ∧
      (fresh []).slotM = .bubble ∧ (fresh []).slotW = .bubble ∧ (fresh []).stalledFetch = false ∧
      (fresh []).stalledMemory = false) ∧
    loadIssued.slotM ≠ .bubble := by decide

/-- A list of the length of RAM, and one longer; the last address of RAM, and the first beyond it; a state after an advance that
counts, and one after an advance that an error stops. -/
theorem witness_LoadProgramPlacesWords :
    ((fresh [1]).beforeFirstAdvance = true ∧ (fresh [1]).mem.ram.wf) ∧
    (List.replicate 16 (1 : Word)).length ≤ tiny.ramCapacity ∧
    tiny.ramCapacity < (List.replicate 17 (1 : Word)).length ∧ 15 < tiny.ramCapacity ∧ tiny.ramCapacity ≤ 16 ∧
    (fresh []).advanced.beforeFirstAdvance = false ∧
    ((fresh []).stopped = false ∧ step (fresh []) = .next (fresh []).advanced) ∧
    0 < (fresh []).advanced.cycles ∧ faultingFirst.advanced.fault ≠ none ∧
    ({ fresh [] with cycles := 1 } : State).setMode false =
      .next { fresh [] with cycles := 1, overlapped := false } :=
  ⟨by decide, by decide, by decide, by decide, by decide, by decide, ⟨by decide, rfl⟩, by decide, by decide, rfl⟩

end Sys2Proof.Tests
end

/-! The reset table (spec/10_state.md R39): what a cold cache holds, what the reset state reads as, and the table itself. -/

namespace Sys2Proof.Proofs.Reset

open Sys2Proof.Machine Sys2Proof.Laws

/-! ### A cold set -/

@[simp] theorem cold_lines_length (p : Params) : (CacheSet.cold p).lines.length = p.nways := List.length_replicate

@[simp] theorem cold_order (p : Params) : (CacheSet.cold p).order = List.range p.nways := rfl

theorem cold_line_invalid {p : Params} {l : Line} (hl : l ∈ (CacheSet.cold p).lines) : l.valid = false := by
  have hcold : l = Line.cold p := List.eq_of_mem_replicate hl
  rw [hcold, Line.cold]

/-! ### The reset state -/

theorem reset_register_zero (p : Params) (r : RegNum) : RegFile.read (State.resetWith p).x r = 0 :=
  Vector.getElem_replicate _

theorem reset_flagZ_clear (p : Params) : flagZ (State.resetWith p).flags = false := BitVec.getLsbD_zero

theorem reset_flagN_clear (p : Params) : flagN (State.resetWith p).flags = false := BitVec.getLsbD_zero

/-- RAM after reset lists no address, so every address reads as an unlisted one. -/
theorem reset_ram_zero (p : Params) (a : Nat) : (State.resetWith p).mem.ram.read a = 0 := read_nil a

/-- The active cache after reset: the configured number of cold sets, or none when the cache is disabled (R36). -/
theorem reset_sets (p : Params) :
    (State.resetWith p).mem.sets =
      List.replicate (if p.cacheEnabledAtReset then p.nsets else 0) (CacheSet.cold p) := by
  cases h : p.cacheEnabledAtReset with
  | true => simp [State.resetWith, h]
  | false => simp [State.resetWith, h]

theorem reset_sets_length (p : Params) :
    (State.resetWith p).mem.sets.length = if p.cacheEnabledAtReset then p.nsets else 0 := by
  rw [reset_sets, List.length_replicate]

theorem eq_cold_of_mem_reset_sets {p : Params} {c : CacheSet} (hc : c ∈ (State.resetWith p).mem.sets) :
    c = CacheSet.cold p := by
  rw [reset_sets] at hc
  exact List.eq_of_mem_replicate hc

/-- Every set of the active cache after reset has `NWAYS` invalid lines and the initial recency order. -/
theorem reset_set_is_cold {p : Params} {c : CacheSet} (hc : c ∈ (State.resetWith p).mem.sets) :
    c.lines.length = p.nways ∧ (∀ l ∈ c.lines, l.valid = false) ∧ c.order = List.range p.nways := by
  obtain rfl := eq_cold_of_mem_reset_sets hc
  exact ⟨cold_lines_length p, fun _ hl => cold_line_invalid hl, cold_order p⟩

/-- Settles O11: the rows that read something are the lemmas above, and each other row is a field of the reset record. -/
theorem resetState : Obligations.ResetState := by
  refine ⟨rfl, rfl, rfl, fun p => ⟨reset_register_zero p, ?pc, ?sp, reset_flagZ_clear p, reset_flagN_clear p,
    ?slotF, ?slotD, ?slotE, ?slotM, ?slotW, ?stalledFetch, ?stalledMemory, ?cycles, ?overlapped, ?halted, ?fault,
    reset_ram_zero p, ?cacheEnabled, reset_sets_length p, fun _ hc => reset_set_is_cold hc, ?evictions⟩⟩
  all_goals rfl

end Sys2Proof.Proofs.Reset

/-! The range check, the disabled cache and the cache toggles (spec/20_memory.md R56, R57, R69). -/

namespace Sys2Proof.Proofs.MemoryAccess

open Sys2Proof.Machine Sys2Proof.Laws Sys2Proof.Proofs.Reset

/-! ### The range check -/

/-- Settles O15: both clauses are the two directions of the inversions of `MemRead` and `MemWrite`. -/
theorem rangeCheckComesFirst : Obligations.RangeCheckComesFirst := fun _ _ _ _ =>
  ⟨fun hout => ⟨memRead_error_iff.2 ⟨hout, rfl⟩, memWrite_error_iff.2 ⟨hout, rfl⟩⟩,
    fun hin => ⟨memRead_ok_iff.2 ⟨hin, rfl⟩, memWrite_ok_iff.2 ⟨hin, rfl⟩⟩⟩

/-! ### The disabled cache -/

theorem cacheRead_of_disabled {m : MemSys} (h : m.cacheEnabled = false) (p : Params) (a : Nat) :
    m.cacheRead p a = { word := m.ram.read a, latency := p.ramLatency, mem := m } := by
  rcases cacheRead_cases m p a with ⟨-, hread⟩ | ⟨henabled, -⟩ | ⟨henabled, -⟩
  · exact hread
  · simp [h] at henabled
  · simp [h] at henabled

theorem cacheWrite_of_disabled {m : MemSys} (h : m.cacheEnabled = false) (p : Params) (a : Nat) (v : Word) :
    m.cacheWrite p a v = { latency := p.ramLatency, mem := { m with ram := m.ram.write a v } } := by
  rcases cacheWrite_cases m p a v with ⟨-, hwrite⟩ | ⟨henabled, -⟩ | ⟨henabled, -⟩
  · exact hwrite
  · simp [h] at henabled
  · simp [h] at henabled

/-- Settles O16: of the three cases of an access only the disabled one is left. -/
theorem disabledCachePassesThrough : Obligations.DisabledCachePassesThrough := fun p _ a v hdisabled =>
  ⟨cacheRead_of_disabled hdisabled p a, cacheWrite_of_disabled hdisabled p a v⟩

/-! ### The toggles -/

/-- No line of a cold cache is valid. -/
theorem cold_iff {m : MemSys} : m.cold = true ↔ ∀ c ∈ m.sets, ∀ l ∈ c.lines, l.valid = false := by
  simp [MemSys.cold]

/-- Every set of a cache just enabled is a cold set. -/
theorem eq_cold_of_mem_enableCache_sets {m : MemSys} {p : Params} {c : CacheSet} (hc : c ∈ (m.enableCache p).sets) :
    c = CacheSet.cold p :=
  List.eq_of_mem_replicate hc

theorem enableCache_is_cold (m : MemSys) (p : Params) : (m.enableCache p).cold = true := by
  rw [cold_iff]
  intro c hc l hl
  obtain rfl := eq_cold_of_mem_enableCache_sets hc
  exact cold_line_invalid hl

theorem enableCache_sets_length (m : MemSys) (p : Params) : (m.enableCache p).sets.length = p.nsets :=
  List.length_replicate

/-- A disabled cache has no set, so no line of it is valid. -/
theorem disableCache_is_cold (m : MemSys) : m.disableCache.cold = true := by
  simp [cold_iff]

/-- Settles O20: either toggle leaves a cold cache, which reads as RAM, and updates `mem` alone. -/
theorem togglesDiscard : Obligations.TogglesDiscard := by
  intro s
  refine ⟨rfl, rfl, rfl, rfl, ?disabledView, rfl, enableCache_sets_length s.mem s.params, ?enabledSets, rfl, rfl,
    ?enabledView, rfl, rfl⟩
  case disabledView => exact view_of_cold (disableCache_is_cold s.mem) s.params
  case enabledView => exact view_of_cold (enableCache_is_cold s.mem s.params) s.params
  case enabledSets =>
    intro c hc
    obtain rfl := eq_cold_of_mem_enableCache_sets hc
    exact ⟨cold_order s.params, cold_lines_length s.params, fun _ hl => cold_line_invalid hl⟩

end Sys2Proof.Proofs.MemoryAccess

/-! Decode, the opcode map and the codec (spec/30_encoding.md R105, R113, R115): decode by opcode, what the mask `0xFC000000` and
the layouts select, and `get` after `set`. -/

namespace Sys2Proof.Proofs.Encoding

/-! ### Decode, row by row -/

section DecodeRows

variable {w : Word}

theorem decode_of_opcode_nop (h : opcodeOf w = 0) : decode w = .ok .nop := by rw [decode, h]; rfl

theorem decode_of_opcode_ldr (h : opcodeOf w = 1) : decode w = .ok (.ldr (rdOf w) (rnOf w) (immOf w)) := by
  rw [decode, h]; rfl

theorem decode_of_opcode_str (h : opcodeOf w = 2) : decode w = .ok (.str (rdOf w) (rnOf w) (immOf w)) := by
  rw [decode, h]; rfl

theorem decode_of_opcode_addi (h : opcodeOf w = 3) : decode w = .ok (.addi (rdOf w) (rnOf w) (immOf w)) := by
  rw [decode, h]; rfl

theorem decode_of_opcode_add (h : opcodeOf w = 4) : decode w = .ok (.add (rdOf w) (rnOf w) (rmOf w)) := by
  rw [decode, h]; rfl

theorem decode_of_opcode_sub (h : opcodeOf w = 5) : decode w = .ok (.sub (rdOf w) (rnOf w) (rmOf w)) := by
  rw [decode, h]; rfl

theorem decode_of_opcode_b (h : opcodeOf w = 6) : decode w = .ok (.b (targetOf w)) := by rw [decode, h]; rfl

theorem decode_of_opcode_beq (h : opcodeOf w = 7) : decode w = .ok (.beq (targetOf w)) := by rw [decode, h]; rfl

theorem decode_of_opcode_bne (h : opcodeOf w = 8) : decode w = .ok (.bne (targetOf w)) := by rw [decode, h]; rfl

theorem decode_of_opcode_halt (h : opcodeOf w = 63) : decode w = .ok .halt := by rw [decode, h]; rfl

/-- The opcode of a decoded instruction is the opcode field of its Word. -/
theorem opcodeOf_of_decode {i : Instr} (h : decode w = .ok i) : opcodeOf w = i.opcode := by
  apply BitVec.eq_of_toNat_eq
  unfold decode at h
  split at h
  case h_11 => cases h
  all_goals
    next hop =>
      cases h
      exact hop

/-- Decode fails exactly on the reserved opcodes (R116), and its error names the opcode. -/
theorem decode_error_iff :
    9 ≤ (opcodeOf w).toNat ∧ (opcodeOf w).toNat ≤ 62 ↔ decode w = .error (.unallocatedOpcode (opcodeOf w)) := by
  have hlt : (opcodeOf w).toNat < 64 := (opcodeOf w).isLt
  unfold decode
  split
  case h_11 =>
    simp only [iff_true, imp_false] at *
    omega
  all_goals
    next hop => simp only [hop, reduceCtorEq, iff_false]; omega

end DecodeRows

/-! ### The opcode under the mask -/

theorem opcodeOf_append_targetOf (w : Word) : opcodeOf w ++ targetOf w = w :=
  BitVec.extractLsb'_append_extractLsb' (w := 6) (len := 26)

/-- `0xFC000000` keeps the opcode field and clears the 26 bits below it. -/
theorem and_opcodeMask (w : Word) : w &&& 0xFC000000 = encodeN (opcodeOf w) := by
  calc w &&& 0xFC000000
      = (opcodeOf w ++ targetOf w) &&& (BitVec.allOnes 6 ++ 0#26) := by rw [opcodeOf_append_targetOf]; rfl
    _ = (opcodeOf w &&& BitVec.allOnes 6) ++ (targetOf w &&& 0#26) := BitVec.and_append
    _ = encodeN (opcodeOf w) := by rw [BitVec.and_allOnes, BitVec.and_zero, encodeN]

/-- A row of R113: under the mask the Word is the row's `match`, the row's opcode above zeros, exactly when that opcode is in its
opcode field. -/
theorem and_opcodeMask_eq_iff (w : Word) (op : Opcode) : w &&& 0xFC000000 = encodeN op ↔ opcodeOf w = op := by
  rw [and_opcodeMask, encodeN, encodeN, BitVec.append_left_inj]

/-- A row of R113 holds when its opcode makes Decode answer `P` and `P` fixes the opcode. -/
theorem opcodeRow {w : Word} {op : Opcode} {P : Prop} (hto : opcodeOf w = op → P) (hfrom : P → opcodeOf w = op) :
    w &&& 0xFC000000 = encodeN op ↔ P :=
  (and_opcodeMask_eq_iff w op).trans ⟨hto, hfrom⟩

/-! ### The layout of an opcode -/

theorem layoutOf_reserved {op : Opcode} (hlo : 9 ≤ op.toNat) (hhi : op.toNat ≤ 62) : layoutOf op = none := by
  unfold layoutOf
  split
  case h_11 => rfl
  all_goals omega

theorem layoutOf_eq_layoutN_iff {op : Opcode} : layoutOf op = some layoutN ↔ op = 0 ∨ op = 63 := by
  revert op
  decide

theorem layoutOf_eq_layoutR_iff {op : Opcode} : layoutOf op = some layoutR ↔ op = 4 ∨ op = 5 := by
  revert op
  decide

/-- Settles O3: each row from the equation of Decode for its opcode and from the opcode of the instruction decoded. -/
theorem opcodeMapRows : Obligations.OpcodeMapRows := by
  refine ⟨fun w => ⟨?nop, ?ldr, ?str, ?addi, ?add, ?sub, ?b, ?beq, ?bne, ?halt, decode_error_iff⟩,
    rfl, rfl, rfl, rfl, rfl, rfl, rfl, rfl, rfl, rfl, fun _ => layoutOf_reserved⟩
  case nop => exact opcodeRow (op := 0) decode_of_opcode_nop opcodeOf_of_decode
  case ldr =>
    exact opcodeRow (op := 1) (fun h => ⟨_, _, _, decode_of_opcode_ldr h⟩) (fun ⟨_, _, _, h⟩ => opcodeOf_of_decode h)
  case str =>
    exact opcodeRow (op := 2) (fun h => ⟨_, _, _, decode_of_opcode_str h⟩) (fun ⟨_, _, _, h⟩ => opcodeOf_of_decode h)
  case addi =>
    exact opcodeRow (op := 3) (fun h => ⟨_, _, _, decode_of_opcode_addi h⟩) (fun ⟨_, _, _, h⟩ => opcodeOf_of_decode h)
  case add =>
    exact opcodeRow (op := 4) (fun h => ⟨_, _, _, decode_of_opcode_add h⟩) (fun ⟨_, _, _, h⟩ => opcodeOf_of_decode h)
  case sub =>
    exact opcodeRow (op := 5) (fun h => ⟨_, _, _, decode_of_opcode_sub h⟩) (fun ⟨_, _, _, h⟩ => opcodeOf_of_decode h)
  case b => exact opcodeRow (op := 6) (fun h => ⟨_, decode_of_opcode_b h⟩) (fun ⟨_, h⟩ => opcodeOf_of_decode h)
  case beq => exact opcodeRow (op := 7) (fun h => ⟨_, decode_of_opcode_beq h⟩) (fun ⟨_, h⟩ => opcodeOf_of_decode h)
  case bne => exact opcodeRow (op := 8) (fun h => ⟨_, decode_of_opcode_bne h⟩) (fun ⟨_, h⟩ => opcodeOf_of_decode h)
  case halt => exact opcodeRow (op := 63) decode_of_opcode_halt opcodeOf_of_decode

/-! ### Unallocated bits -/

/-- Taking bits out of bits taken out is taking them out at the sum of the starts, when they lie inside. -/
theorem extractLsb'_extractLsb'_of_add_le {n start len start' len' : Nat} (x : BitVec n) (h : start' + len' ≤ len) :
    (x.extractLsb' start len).extractLsb' start' len' = x.extractLsb' (start + start') len' := by
  ext i hi
  have hin : start' + i < len := by omega
  simp [hin, Nat.add_assoc]

/-- The three register fields of format R lie in bits 25 to 14. -/
theorem registers_eq_of_extractLsb'_eq {w v : Word} (h : w.extractLsb' 14 12 = v.extractLsb' 14 12) :
    rdOf w = rdOf v ∧ rnOf w = rnOf v ∧ rmOf w = rmOf v := by
  have hfield (k : Nat) (hk : k + 4 ≤ 12) : w.extractLsb' (14 + k) 4 = v.extractLsb' (14 + k) 4 := by
    rw [← extractLsb'_extractLsb'_of_add_le w hk, h, extractLsb'_extractLsb'_of_add_le v hk]
  exact ⟨hfield 8 (by decide), hfield 4 (by decide), hfield 0 (by decide)⟩

theorem decode_eq_of_layoutN {w v : Word} (hop : opcodeOf w = opcodeOf v)
    (hlayout : layoutOf (opcodeOf w) = some layoutN) : decode w = decode v := by
  rcases layoutOf_eq_layoutN_iff.1 hlayout with h | h
  · rw [decode_of_opcode_nop h, decode_of_opcode_nop (hop ▸ h)]
  · rw [decode_of_opcode_halt h, decode_of_opcode_halt (hop ▸ h)]

theorem decode_eq_of_layoutR {w v : Word} (hop : opcodeOf w = opcodeOf v)
    (hlayout : layoutOf (opcodeOf w) = some layoutR) (hbits : w.extractLsb' 14 12 = v.extractLsb' 14 12) :
    decode w = decode v := by
  obtain ⟨hrd, hrn, hrm⟩ := registers_eq_of_extractLsb'_eq hbits
  rcases layoutOf_eq_layoutR_iff.1 hlayout with h | h
  · rw [decode_of_opcode_add h, decode_of_opcode_add (hop ▸ h), hrd, hrn, hrm]
  · rw [decode_of_opcode_sub h, decode_of_opcode_sub (hop ▸ h), hrd, hrn, hrm]

theorem encodeN_low_zero (op : Opcode) : (encodeN op).extractLsb' 0 26 = 0 :=
  BitVec.extractLsb'_append_eq_right

theorem encodeR_low_zero (op : Opcode) (rd rn rm : RegNum) : (encodeR op rd rn rm).extractLsb' 0 14 = 0 := by
  have hrest : (rd ++ (rn ++ (rm ++ 0#14))).extractLsb' 0 14 = 0#14 := by
    rw [BitVec.extractLsb'_append_eq_of_add_le (by decide), BitVec.extractLsb'_append_eq_of_add_le (by decide),
      BitVec.extractLsb'_append_eq_right]
  exact (BitVec.extractLsb'_append_eq_of_add_le (by decide)).trans hrest

theorem encode_low_zero_of_layoutN {i : Instr} (h : layoutOf i.opcode = some layoutN) :
    (encode i).extractLsb' 0 26 = 0 := by
  have hop := layoutOf_eq_layoutN_iff.1 h
  cases i with
  | nop => exact encodeN_low_zero _
  | halt => exact encodeN_low_zero _
  | _ => exact absurd hop (by simp [Instr.opcode])

theorem encode_low_zero_of_layoutR {i : Instr} (h : layoutOf i.opcode = some layoutR) :
    (encode i).extractLsb' 0 14 = 0 := by
  have hop := layoutOf_eq_layoutR_iff.1 h
  cases i with
  | add rd rn rm => exact encodeR_low_zero _ rd rn rm
  | sub rd rn rm => exact encodeR_low_zero _ rd rn rm
  | _ => exact absurd hop (by simp [Instr.opcode])

/-- Settles O4: formats N and R each have two rows, whose Decode reads no bit below the opcode or below `rm`. -/
theorem unallocatedBitsIgnored : Obligations.UnallocatedBitsIgnored :=
  ⟨fun _ _ hop => ⟨decode_eq_of_layoutN hop, decode_eq_of_layoutR hop⟩,
    fun _ => ⟨encode_low_zero_of_layoutN, encode_low_zero_of_layoutR⟩⟩

/-! ### The codec -/

/-- What `set` makes of the bits of a word of `size` bits: the span of the field cleared, `n` in its place (R105). -/
def replaceBits (f : FieldDescriptor) (size bits n : Nat) : Nat :=
  (bits &&& ((2 ^ size - 1) ^^^ (f.mask <<< f.startBit))) ||| (n <<< f.startBit)

section Codec

variable {l : WordLayout} {f : FieldDescriptor}

/-- Names are distinct in a well-formed layout, so a field is found by its own name. -/
theorem find_name_of_wf (hwf : l.wf) (hf : f ∈ l.fields) : l.find f.name = some f := by
  obtain ⟨hnames, -, -, -⟩ := hwf
  cases hfind : l.find f.name with
  | none => simpa using List.find?_eq_none.1 hfind f hf
  | some g =>
    have hname : g.name = f.name := by simpa using List.find?_some hfind
    have hg : g ∈ l.fields := List.mem_of_find?_eq_some hfind
    rw [List.inj_on_of_nodup_map hnames hg hf hname]

theorem get_of_find {name : String} (h : l.find name = some f) (bits : Nat) :
    l.get bits name = .ok ((bits >>> f.startBit) &&& f.mask) := by
  rw [WordLayout.get, h]

theorem set_of_find_of_inRange {name : String} {v : Int} (h : l.find name = some f) (bits : Nat) (hlo : 0 ≤ v)
    (hhi : v ≤ (f.mask : Int)) :
    l.set bits name v = .ok (replaceBits f l.size bits v.toNat) := by
  have hrange : ¬ (v < 0 ∨ (f.mask : Int) < v) := by omega
  simp only [WordLayout.set, h, if_neg hrange, replaceBits]

theorem set_of_find_of_outOfRange {name : String} {v : Int} (h : l.find name = some f) (bits : Nat)
    (hout : v < 0 ∨ (f.mask : Int) < v) : l.set bits name v = .error .rangeError := by
  simp only [WordLayout.set, h, if_pos hout]

@[simp] theorem testBit_mask (f : FieldDescriptor) (k : Nat) : f.mask.testBit k = decide (k < f.widthBits) :=
  Nat.testBit_two_pow_sub_one _ _

/-- A value that fits a field has no bit at or above the field's width. -/
theorem testBit_eq_false_of_le_mask {n k : Nat} (hn : n ≤ f.mask) (hk : f.widthBits ≤ k) : n.testBit k = false := by
  have hpos : 0 < 2 ^ f.widthBits := Nat.two_pow_pos _
  have hlt : n < 2 ^ f.widthBits := by
    rw [FieldDescriptor.mask] at hn
    omega
  exact Nat.testBit_lt_two_pow (hlt.trans_le (Nat.pow_le_pow_right (by decide) hk))

/-- Inside the field stand the bits of the value, outside it those of the word. -/
theorem testBit_replaceBits {size n k : Nat} (bits : Nat) (hn : n ≤ f.mask) (hk : k < size) :
    (replaceBits f size bits n).testBit k =
      if f.startBit ≤ k ∧ k < f.stopBit then n.testBit (k - f.startBit) else bits.testBit k := by
  simp only [replaceBits, Nat.testBit_or, Nat.testBit_and, Nat.testBit_xor, Nat.testBit_two_pow_sub_one, Nat.testBit_shiftLeft,
    testBit_mask, hk, FieldDescriptor.stopBit]
  rcases Nat.lt_or_ge k f.startBit with hbelow | hfrom
  · simp [Nat.not_le.2 hbelow]
  · rcases Nat.lt_or_ge k (f.startBit + f.widthBits) with hin | habove
    · have hwidth : k - f.startBit < f.widthBits := by omega
      simp [hfrom, hin, hwidth]
    · have hwidth : f.widthBits ≤ k - f.startBit := by omega
      simp [hfrom, Nat.not_lt.2 habove, Nat.not_lt.2 hwidth, testBit_eq_false_of_le_mask hn hwidth]

/-- The mask `get` applies reads the value back. -/
theorem readField_replaceBits {size n : Nat} (bits : Nat) (hfits : f.stopBit ≤ size) (hn : n ≤ f.mask) :
    (replaceBits f size bits n >>> f.startBit) &&& f.mask = n := by
  apply Nat.eq_of_testBit_eq
  intro j
  rw [Nat.testBit_and, Nat.testBit_shiftRight, testBit_mask]
  rcases Nat.lt_or_ge j f.widthBits with hin | habove
  · have hstop : f.startBit + j < f.stopBit := Nat.add_lt_add_left hin _
    rw [testBit_replaceBits bits hn (hstop.trans_le hfits)]
    simp [hin, hstop]
  · simp [Nat.not_lt.2 habove, testBit_eq_false_of_le_mask hn habove]

end Codec

/-- Settles O8: `set` finds the field by its name and replaces its bits alone. -/
theorem setThenGet : Obligations.SetThenGet := by
  intro l hwf f hf bits v
  have hfind := find_name_of_wf hwf hf
  obtain ⟨-, hfits, -, -⟩ := hwf
  refine ⟨fun hlo hhi => ?inRange, set_of_find_of_outOfRange hfind bits⟩
  have hn : v.toNat ≤ f.mask := by omega
  refine ⟨_, set_of_find_of_inRange hfind bits hlo hhi, ?get, fun k hk hout => ?outside⟩
  case get => rw [get_of_find hfind, readField_replaceBits bits (hfits f hf) hn]
  case outside => rw [testBit_replaceBits bits hn hk, if_neg (by omega)]

end Sys2Proof.Proofs.Encoding

/-! What one call of `advance()` is (spec/40_pipeline_engine.md R130), and what a pipelined advance adds to `cycles` (R140). -/

namespace Sys2Proof.Proofs.Engine

open Sys2Proof.Machine Sys2Proof.Laws

variable {s : State}

/-! ### The dispatch on the latches and the mode -/

theorem stopped_iff : s.stopped = true ↔ s.halted = true ∨ s.fault ≠ none := by
  simp [State.stopped, Option.isSome_iff_ne_none]

theorem fault_eq_none_of_running (h : s.stopped = false) : s.fault = none := by
  by_contra hfault
  simp [stopped_iff.2 (Or.inr hfault)] at h

theorem step_of_stopped (h : s.stopped = true) : step s = .next s := by
  rw [step, advance, if_pos h]

theorem step_of_pipelining (h : s.pipelining) : step s = .next (advancePipelined s) := by
  obtain ⟨hrunning, hoverlapped⟩ := h
  rw [step, advance, if_neg (by simp [hrunning]), if_pos hoverlapped]

theorem step_of_sequencing (h : s.sequencing) : step s = advanceSequential s := by
  obtain ⟨hrunning, hsequential⟩ := h
  rw [step, advance, if_neg (by simp [hrunning]), if_neg (by simp [hsequential])]

theorem advanceStatus_not_performed_of_stopped (h : s.stopped = true) : s.advanceStatus.performed = false := by
  rw [State.advanceStatus, if_pos h]

/-- Settles O52: the latches are what `stopped` tests, and the three clauses are the three branches of the dispatch. -/
theorem stoppedCoreDoesNothing : Obligations.StoppedCoreDoesNothing := by
  intro s
  rw [← stopped_iff, Bool.not_eq_true]
  exact ⟨fun hstopped => ⟨step_of_stopped hstopped, advanceStatus_not_performed_of_stopped hstopped⟩,
    fun hrunning => ⟨fun hmode => step_of_pipelining ⟨hrunning, hmode⟩, fun hmode => step_of_sequencing ⟨hrunning, hmode⟩⟩⟩

/-! ### The cycle count of a pipelined advance -/

/-- Writeback, HALT's included, neither counts a cycle nor latches a fault. -/
theorem step1Writeback_cycles_fault (s : State) :
    (step1Writeback s).cycles = s.cycles ∧ (step1Writeback s).fault = s.fault := by
  rw [step1Writeback_eq_applyRetire]
  exact ⟨rfl, rfl⟩

theorem step2Memory_cycles_fault {t : State} (h : step2Memory s = .ok t) : t.cycles = s.cycles ∧ t.fault = s.fault := by
  obtain ⟨-, -, -, -, -, hcycles, hfault, -⟩ := step2Memory_frame h
  exact ⟨hcycles, hfault⟩

theorem step3Execute_cycles_fault {t : State} (h : step3Execute s = .ok t) : t.cycles = s.cycles ∧ t.fault = s.fault := by
  obtain ⟨-, -, -, hcycles, hfault, -⟩ := step3Execute_frame h
  exact ⟨hcycles, hfault⟩

theorem step4Decode_cycles_fault (s : State) : (step4Decode s).cycles = s.cycles ∧ (step4Decode s).fault = s.fault := by
  obtain ⟨-, -, -, -, -, hcycles, hfault, -⟩ := step4Decode_frame s
  exact ⟨hcycles, hfault⟩

theorem step5Fetch_cycles_fault {t : State} (h : step5Fetch s = .ok t) : t.cycles = s.cycles ∧ t.fault = s.fault := by
  obtain ⟨-, -, -, -, hcycles, hfault, -⟩ := step5Fetch_frame h
  exact ⟨hcycles, hfault⟩

/-- Only the end of a completed advance counts (R140); a step that raises ends the advance before it (R148). -/
theorem advancePipelined_cycles_fault (s : State) :
    ((advancePipelined s).cycles = s.cycles + 1 ∧ (advancePipelined s).fault = s.fault) ∨
    ((advancePipelined s).cycles = s.cycles ∧ (advancePipelined s).fault ≠ none) := by
  obtain ⟨hc1, hf1⟩ := step1Writeback_cycles_fault s
  rcases advancePipelined_cases s with ⟨f, -, e⟩ | ⟨s2, f, h2, -, e⟩ | ⟨s2, s3, f, h2, h3, -, e⟩ | ⟨s2, s3, s5, h2, h3, h5, e⟩
  · -- Memory raises.
    right
    simp [e, hc1]
  · -- Execute raises.
    right
    obtain ⟨hc2, -⟩ := step2Memory_cycles_fault h2
    simp [e, hc2, hc1]
  · -- Fetch raises.
    right
    obtain ⟨hc2, -⟩ := step2Memory_cycles_fault h2
    obtain ⟨hc3, -⟩ := step3Execute_cycles_fault h3
    obtain ⟨hc4, -⟩ := step4Decode_cycles_fault s3
    simp [e, hc4, hc3, hc2, hc1]
  · -- All five steps complete.
    left
    obtain ⟨hc2, hf2⟩ := step2Memory_cycles_fault h2
    obtain ⟨hc3, hf3⟩ := step3Execute_cycles_fault h3
    obtain ⟨hc4, hf4⟩ := step4Decode_cycles_fault s3
    obtain ⟨hc5, hf5⟩ := step5Fetch_cycles_fault h5
    simp [e, hc5, hc4, hc3, hc2, hc1, hf5, hf4, hf3, hf2, hf1]

/-- Settles O50: a running core has no fault latched, so which of the two ends the advance took shows in the latch. -/
theorem cycleCountPipelined : Obligations.CycleCountPipelined := by
  intro s t hpipelining hstep
  obtain rfl : advancePipelined s = t := by simpa [step_of_pipelining hpipelining] using hstep
  obtain ⟨hrunning, -⟩ := hpipelining
  have hnofault : s.fault = none := fault_eq_none_of_running hrunning
  rcases advancePipelined_cycles_fault s with ⟨hcycles, hfault⟩ | ⟨hcycles, hfault⟩
  · exact ⟨fun _ => hcycles, fun hlatched => absurd (hfault.trans hnofault) hlatched⟩
  · exact ⟨fun hnone => absurd hnone hfault, fun _ => hcycles⟩

end Sys2Proof.Proofs.Engine

/-! NOP and HALT (spec/41_system.md R170, R171): an instruction whose `Exec` and `MemOp` do nothing run whole, what a Writeback of
each does, and which Words they are. -/

namespace Sys2Proof.Proofs.System

open Sys2Proof.Machine Sys2Proof.Laws Sys2Proof.Proofs.Encoding Sys2Proof.Proofs.Engine

/-! ### Instructions that do nothing before Writeback -/

/-- With no effect of `Exec` and no memory operation, all a whole instruction does is retire and count five cycle units (R149,
R150). -/
theorem runWhole_of_retireOnly {f : InstrStages} (hexec : ∀ x flags, f.exec x flags = ExecOut.nothing)
    (hmemOp : f.memOp = noMemOp) (s : State) :
    runWhole f s = .next { s.applyRetire (f.retire none) with cycles := s.cycles + 5 } := by
  rw [runWhole, hexec, hmemOp]
  rfl

theorem applyRetire_nothing (s : State) : s.applyRetire RetireOut.nothing = s := by
  simp [State.applyRetire, RetireOut.nothing]

theorem applyRetire_halt (s : State) : s.applyRetire { write := none, halts := true } = { s with halted := true } := by
  simp [State.applyRetire]

theorem exec_nop (s : State) : exec .nop s = .next { s with cycles := s.cycles + 5 } := by
  have hretire : s.applyRetire (nopStages.retire none) = s := applyRetire_nothing s
  rw [exec_eq_runWhole, stagesOf, runWhole_of_retireOnly (fun _ _ => rfl) rfl, hretire]

theorem exec_halt (s : State) : exec .halt s = .next { s with halted := true, cycles := s.cycles + 5 } := by
  have hretire : s.applyRetire (haltStages.retire none) = { s with halted := true } := applyRetire_halt s
  rw [exec_eq_runWhole, stagesOf, runWhole_of_retireOnly (fun _ _ => rfl) rfl, hretire]

/-! ### The Words of opcodes 0 and 63 -/

theorem opcodeOf_toNat (w : Word) : (opcodeOf w).toNat = w.toNat / 0x04000000 := by
  have hlt : w.toNat < 2 ^ 32 := w.isLt
  rw [opcodeOf, BitVec.extractLsb'_toNat, Nat.shiftRight_eq_div_pow]
  omega

theorem decode_nop_of_lt {w : Word} (h : w.toNat < 0x04000000) : decode w = .ok .nop := by
  apply decode_of_opcode_nop
  apply BitVec.eq_of_toNat_eq
  rw [opcodeOf_toNat]
  exact Nat.div_eq_of_lt h

theorem decode_halt_of_le {w : Word} (h : 0xFC000000 ≤ w.toNat) : decode w = .ok .halt := by
  have hlt : w.toNat < 2 ^ 32 := w.isLt
  have hopcode : w.toNat / 0x04000000 = 63 := by omega
  apply decode_of_opcode_halt
  apply BitVec.eq_of_toNat_eq
  rw [opcodeOf_toNat, hopcode]
  rfl

/-! ### Writeback of a known instruction -/

theorem stages_of_effective {r : InstrRecord} {i : Instr} (h : r.effective = some i) : r.stages = stagesOf i := by
  rw [InstrRecord.stages, h]

theorem retireOut_of_effective {s : State} {r : InstrRecord} {i : Instr} (hslot : s.slotW = .instr r)
    (heffective : r.effective = some i) : s.slotW.retireOut = (stagesOf i).retire r.computed := by
  rw [hslot, Slot.retireOut, stages_of_effective heffective]

/-- A pipelined advance reports the instruction that was in `slot[W]` as retired (R152). -/
theorem advanceStatus_retired_of_pipelining {s : State} (h : s.pipelining) : s.advanceStatus.retired = s.slotW.record := by
  obtain ⟨hrunning, hoverlapped⟩ := h
  rw [State.advanceStatus, if_neg (by simp [hrunning])]
  exact if_pos hoverlapped

/-- Only step 1 of an advance can set the `halted` latch, and an error in a later step leaves it as step 1 set it (R132, R148). -/
theorem advancePipelined_halted (s : State) :
    (advancePipelined s).halted = (s.halted || s.slotW.retireOut.halts) := by
  have h1 : (step1Writeback s).halted = (s.halted || s.slotW.retireOut.halts) := by
    rw [step1Writeback_eq_applyRetire, applyRetire_halted]
  rw [← h1]
  rcases advancePipelined_cases s with ⟨f, -, e⟩ | ⟨s2, f, h2, -, e⟩ | ⟨s2, s3, f, h2, h3, -, e⟩ | ⟨s2, s3, s5, h2, h3, h5, e⟩
  · -- Memory raises.
    rw [e, raise_halted]
  · -- Execute raises.
    obtain ⟨-, hh2, -⟩ := step2Memory_frame h2
    rw [e, raise_halted, hh2]
  · -- Fetch raises.
    obtain ⟨-, hh2, -⟩ := step2Memory_frame h2
    obtain ⟨-, hh3, -⟩ := step3Execute_frame h3
    obtain ⟨-, hh4, -⟩ := step4Decode_frame s3
    rw [e, raise_halted, hh4, hh3, hh2]
  · -- All five steps complete.
    obtain ⟨-, hh2, -⟩ := step2Memory_frame h2
    obtain ⟨-, hh3, -⟩ := step3Execute_frame h3
    obtain ⟨-, hh4, -⟩ := step4Decode_frame s3
    obtain ⟨-, hh5, -⟩ := step5Fetch_frame h5
    rw [e, hh5, hh4, hh3, hh2]

/-- An advance that finds `HALT` in `slot[W]` ends halted (R171), whichever of its later steps raises. -/
theorem step_halts_of_halt_in_slotW {s : State} {r : InstrRecord} (hpipelining : s.pipelining) (hslot : s.slotW = .instr r)
    (heffective : r.effective = some .halt) : ∃ t, step s = .next t ∧ t.halted = true := by
  have hhalts : s.slotW.retireOut.halts = true := by rw [retireOut_of_effective hslot heffective]; rfl
  exact ⟨advancePipelined s, step_of_pipelining hpipelining, by rw [advancePipelined_halted, hhalts, Bool.or_true]⟩

theorem eq_of_step_of_halted {s t : State} (hhalted : s.halted = true) (hstep : step s = .next t) : t = s := by
  rw [step_of_stopped (stopped_iff.2 (.inl hhalted))] at hstep
  cases hstep
  rfl

/-! ### The two rules -/

/-- Settles O25: the row of the interface table by definition, the rest from the lemmas above, a clause each. -/
theorem nopRule : Obligations.NopRule := by
  refine ⟨rfl, rfl, rfl, rfl, fun _ _ => rfl, fun _ _ _ _ => rfl, fun _ => rfl, exec_nop, fun _ => decode_nop_of_lt, ?_⟩
  intro s r hpipelining hslot heffective
  constructor
  · exact retireOut_of_effective hslot heffective
  · rw [advanceStatus_retired_of_pipelining hpipelining, hslot]
    rfl

/-- Settles O26: the row of the interface table by definition, the rest from the lemmas above, a clause each. -/
theorem haltRule : Obligations.HaltRule :=
  ⟨rfl, rfl, rfl, rfl, fun _ _ => rfl, fun _ _ _ _ => rfl, fun _ => rfl, exec_halt, fun _ => decode_halt_of_le,
    fun _ _ => step_halts_of_halt_in_slotW, fun _ _ => eq_of_step_of_halted⟩

end Sys2Proof.Proofs.System


/-! LDR and STR (spec/42_load_store.md R181, R182): the opcode of an encoded instruction, an instruction whose `Exec` writes only its
record run whole, and what the memory operations of the two answer. -/

namespace Sys2Proof.Proofs.LoadStore

open Sys2Proof.Machine Sys2Proof.Laws Sys2Proof.Proofs.Encoding Sys2Proof.Proofs.System

/-! ### The opcode of an encoded instruction -/

/-- Every format has the opcode above all other fields. -/
theorem opcodeOf_encode (i : Instr) : opcodeOf (encode i) = i.opcode := by
  cases i <;> exact BitVec.extractLsb'_append_eq_left

/-- An encoded instruction under the mask is the `match` of its row of R113. -/
theorem encode_and_opcodeMask {i : Instr} {op : Opcode} (h : i.opcode = op) : encode i &&& 0xFC000000 = encodeN op :=
  (and_opcodeMask_eq_iff (encode i) op).2 ((opcodeOf_encode i).trans h)

/-! ### Instructions whose `Exec` writes only `computed` and `ea` -/

section RecordOnly

variable {f : InstrStages} {s : State} {c ea : Option Word}

theorem applyExec_recordOnly (s : State) (c ea : Option Word) :
    s.applyExec { computed := c, ea := ea, flags := none, redirect := none } = s := rfl

/-- Such an instruction, run whole, accesses memory, retires, and counts five cycle units and the latency (R149, R150). -/
theorem runWhole_of_recordOnly_of_ok {o : MemOut}
    (hexec : f.exec s.x s.flags = { computed := c, ea := ea, flags := none, redirect := none })
    (hmemOp : f.memOp s.params s.mem ea c = .ok o) :
    runWhole f s = .next { ({ s with mem := o.mem } : State).applyRetire (f.retire o.computed) with
      cycles := s.cycles + 5 + o.latency } := by
  simp only [runWhole, hexec, hmemOp, applyExec_recordOnly, applyRetire_cycles]

/-- When its memory operation raises, such an instruction only latches the error (R148, R149). -/
theorem runWhole_of_recordOnly_of_error {e : FaultRecord}
    (hexec : f.exec s.x s.flags = { computed := c, ea := ea, flags := none, redirect := none })
    (hmemOp : f.memOp s.params s.mem ea c = .error e) : runWhole f s = .next (s.raise e) := by
  simp only [runWhole, hexec, hmemOp, applyExec_recordOnly]

end RecordOnly

theorem applyRetire_write (s : State) (rd : RegNum) (v : Word) :
    s.applyRetire { write := some (rd, v), halts := false } = { s with x := RegFile.write s.x rd v } := by
  simp [State.applyRetire]

/-! ### The memory operations -/

section MemoryOperations

variable {p : Params} {m : MemSys} {a v : Word}

theorem exists_memRead_ok (h : a.toNat < p.ramCapacity) (m : MemSys) : ∃ r, memRead p m a = .ok r :=
  ⟨_, memRead_ok_iff.2 ⟨h, rfl⟩⟩

theorem exists_memWrite_ok (h : a.toNat < p.ramCapacity) (m : MemSys) (v : Word) : ∃ r, memWrite p m a v = .ok r :=
  ⟨_, memWrite_ok_iff.2 ⟨h, rfl⟩⟩

theorem loadMemOp_of_memRead_ok {r : ReadResult} (h : memRead p m a = .ok r) (c : Option Word) :
    loadMemOp p m (some a) c = .ok { computed := some r.word, latency := r.latency, mem := r.mem } := by
  simp only [loadMemOp, h]

theorem storeMemOp_of_memWrite_ok {r : WriteResult} (h : memWrite p m a v = .ok r) :
    storeMemOp p m (some a) (some v) = .ok { computed := some v, latency := r.latency, mem := r.mem } := by
  simp only [storeMemOp, h]

theorem loadMemOp_of_outOfRange (h : p.ramCapacity ≤ a.toNat) (m : MemSys) (c : Option Word) :
    loadMemOp p m (some a) c = .error { kind := .addressOutOfRange, addr := a, stage := .M } := by
  have hread : memRead p m a = .error .addressOutOfRange := memRead_error_iff.2 ⟨h, rfl⟩
  simp only [loadMemOp, hread]

theorem storeMemOp_of_outOfRange (h : p.ramCapacity ≤ a.toNat) (m : MemSys) (v : Word) :
    storeMemOp p m (some a) (some v) = .error { kind := .addressOutOfRange, addr := a, stage := .M } := by
  have hwrite : memWrite p m a v = .error .addressOutOfRange := memWrite_error_iff.2 ⟨h, rfl⟩
  simp only [storeMemOp, hwrite]

end MemoryOperations

/-! ### LDR and STR run whole -/

section Whole

variable {rd rn : RegNum} {imm : Imm18} {s : State}

theorem exec_ldr_of_memRead_ok {r : ReadResult} (h : memRead s.params s.mem (effectiveAddress s.x rn imm) = .ok r) :
    exec (.ldr rd rn imm) s = .next { s with
      x := RegFile.write s.x rd r.word, mem := r.mem, cycles := s.cycles + 5 + r.latency } := by
  have hretire (u : State) : u.applyRetire ((ldrStages rd rn imm).retire (some r.word)) =
      { u with x := RegFile.write u.x rd r.word } := applyRetire_write u rd r.word
  rw [exec_eq_runWhole, stagesOf, runWhole_of_recordOnly_of_ok rfl (loadMemOp_of_memRead_ok h none), hretire]

theorem exec_str_of_memWrite_ok {r : WriteResult}
    (h : memWrite s.params s.mem (effectiveAddress s.x rn imm) (RegFile.read s.x rd) = .ok r) :
    exec (.str rd rn imm) s = .next { s with mem := r.mem, cycles := s.cycles + 5 + r.latency } := by
  have hretire (u : State) (c : Option Word) : u.applyRetire ((strStages rd rn imm).retire c) = u := applyRetire_nothing u
  rw [exec_eq_runWhole, stagesOf, runWhole_of_recordOnly_of_ok rfl (storeMemOp_of_memWrite_ok h), hretire]

theorem exec_ldr_of_outOfRange (rd : RegNum) (h : s.params.ramCapacity ≤ (effectiveAddress s.x rn imm).toNat) :
    exec (.ldr rd rn imm) s =
      .next (s.raise { kind := .addressOutOfRange, addr := effectiveAddress s.x rn imm, stage := .M }) := by
  rw [exec_eq_runWhole, stagesOf, runWhole_of_recordOnly_of_error rfl (loadMemOp_of_outOfRange h _ none)]

theorem exec_str_of_outOfRange (rd : RegNum) (h : s.params.ramCapacity ≤ (effectiveAddress s.x rn imm).toNat) :
    exec (.str rd rn imm) s =
      .next (s.raise { kind := .addressOutOfRange, addr := effectiveAddress s.x rn imm, stage := .M }) := by
  rw [exec_eq_runWhole, stagesOf, runWhole_of_recordOnly_of_error rfl (storeMemOp_of_outOfRange h _ _)]

end Whole

/-! ### The two rules -/

/-- Settles O27: in range `MemRead` answers what the cache does, out of range it raises; the lemmas above say what `MemOp` and the
whole instruction make of either. -/
theorem ldrRule : Obligations.LdrRule := by
  intro rd rn imm
  refine ⟨rfl, encode_and_opcodeMask (op := 1) rfl, rfl, rfl, fun _ _ => rfl,
    fun p m a c => ⟨fun hin => ?memOp, fun hout => ?memOpError⟩, fun _ => rfl,
    fun s => ⟨fun hin => ?whole, exec_ldr_of_outOfRange rd, rfl⟩⟩
  case memOp =>
    obtain ⟨r, hread⟩ := exists_memRead_ok hin m
    exact ⟨r, hread, loadMemOp_of_memRead_ok hread c⟩
  case memOpError => exact loadMemOp_of_outOfRange hout m c
  case whole =>
    obtain ⟨r, hread⟩ := exists_memRead_ok hin s.mem
    exact ⟨r, hread, exec_ldr_of_memRead_ok hread⟩

/-- Settles O28: as for `LDR`, with `MemWrite` of the register `rd` captured by `Exec`. -/
theorem strRule : Obligations.StrRule := by
  intro rd rn imm
  refine ⟨rfl, encode_and_opcodeMask (op := 2) rfl, rfl, rfl, fun _ _ => rfl,
    fun p m a v => ⟨fun hin => ?memOp, fun hout => ?memOpError⟩, fun _ => rfl,
    fun s => ⟨fun hin => ?whole, exec_str_of_outOfRange rd, rfl⟩⟩
  case memOp =>
    obtain ⟨r, hwrite⟩ := exists_memWrite_ok hin m v
    exact ⟨r, hwrite, storeMemOp_of_memWrite_ok hwrite⟩
  case memOpError => exact storeMemOp_of_outOfRange hout m v
  case whole =>
    obtain ⟨r, hwrite⟩ := exists_memWrite_ok hin s.mem (RegFile.read s.x rd)
    exact ⟨r, hwrite, exec_str_of_memWrite_ok hwrite⟩

end Sys2Proof.Proofs.LoadStore

/-! ADDI, ADD and SUB (spec/43_arithmetic.md R190 to R193): an instruction that computes a result and retires it run whole, Decode of
a Word of format R whatever stands in its unallocated bits, and the flags of a result. -/

namespace Sys2Proof.Proofs.Arithmetic

open Sys2Proof.Machine Sys2Proof.Laws Sys2Proof.Proofs.Encoding Sys2Proof.Proofs.System Sys2Proof.Proofs.LoadStore

/-! ### Instructions that compute a result and retire it -/

/-- What an arithmetic instruction with the result `v` does, run whole: the result in `rd`, its flags, five cycle units (R149,
R190). -/
theorem runWhole_of_result {f : InstrStages} {rd : RegNum} {v : Word} {s : State}
    (hexec : f.exec s.x s.flags = ExecOut.result v) (hmemOp : f.memOp = noMemOp) (hretire : f.retire = retireTo rd) :
    runWhole f s = .next { s with
      x := RegFile.write s.x rd v, flags := nzFlags v, cycles := s.cycles + 5 } := by
  have happly (u : State) : u.applyRetire (retireTo rd (some v)) = { u with x := RegFile.write u.x rd v } :=
    applyRetire_write u rd v
  simp only [runWhole, hexec, hmemOp, hretire, ExecOut.result, noMemOp, happly]
  rfl

theorem exec_addi (rd rn : RegNum) (imm : Imm18) (s : State) :
    exec (.addi rd rn imm) s = .next { s with
      x := RegFile.write s.x rd (RegFile.read s.x rn + signedImm imm)
      flags := nzFlags (RegFile.read s.x rn + signedImm imm)
      cycles := s.cycles + 5 } :=
  (exec_eq_runWhole _ s).trans (runWhole_of_result rfl rfl rfl)

theorem exec_add (rd rn rm : RegNum) (s : State) :
    exec (.add rd rn rm) s = .next { s with
      x := RegFile.write s.x rd (RegFile.read s.x rn + RegFile.read s.x rm)
      flags := nzFlags (RegFile.read s.x rn + RegFile.read s.x rm)
      cycles := s.cycles + 5 } :=
  (exec_eq_runWhole _ s).trans (runWhole_of_result rfl rfl rfl)

theorem exec_sub (rd rn rm : RegNum) (s : State) :
    exec (.sub rd rn rm) s = .next { s with
      x := RegFile.write s.x rd (RegFile.read s.x rn - RegFile.read s.x rm)
      flags := nzFlags (RegFile.read s.x rn - RegFile.read s.x rm)
      cycles := s.cycles + 5 } :=
  (exec_eq_runWhole _ s).trans (runWhole_of_result rfl rfl rfl)

/-! ### The fields of a Word of format R -/

section FormatR

variable (op : Opcode) (rd rn rm : RegNum)

theorem rdOf_encodeR : rdOf (encodeR op rd rn rm) = rd :=
  calc rdOf (encodeR op rd rn rm)
      = (rd ++ (rn ++ (rm ++ 0#14))).extractLsb' 22 4 := BitVec.extractLsb'_append_eq_of_add_le (by decide)
    _ = rd := BitVec.extractLsb'_append_eq_left

theorem rnOf_encodeR : rnOf (encodeR op rd rn rm) = rn :=
  calc rnOf (encodeR op rd rn rm)
      = (rd ++ (rn ++ (rm ++ 0#14))).extractLsb' 18 4 := BitVec.extractLsb'_append_eq_of_add_le (by decide)
    _ = (rn ++ (rm ++ 0#14)).extractLsb' 18 4 := BitVec.extractLsb'_append_eq_of_add_le (by decide)
    _ = rn := BitVec.extractLsb'_append_eq_left

theorem rmOf_encodeR : rmOf (encodeR op rd rn rm) = rm :=
  calc rmOf (encodeR op rd rn rm)
      = (rd ++ (rn ++ (rm ++ 0#14))).extractLsb' 14 4 := BitVec.extractLsb'_append_eq_of_add_le (by decide)
    _ = (rn ++ (rm ++ 0#14)).extractLsb' 14 4 := BitVec.extractLsb'_append_eq_of_add_le (by decide)
    _ = (rm ++ 0#14).extractLsb' 14 4 := BitVec.extractLsb'_append_eq_of_add_le (by decide)
    _ = rm := BitVec.extractLsb'_append_eq_left

end FormatR

/-! ### Bits below a field -/

/-- Bits or-ed in below a field leave the field as it was. -/
theorem extractLsb'_or_setWidth_of_le {n : Nat} (w : Word) (low : BitVec n) {start : Nat} (len : Nat) (h : n ≤ start) :
    (w ||| low.setWidth 32).extractLsb' start len = w.extractLsb' start len := by
  ext i hi
  have hclear : low.getLsbD (start + i) = false := BitVec.getLsbD_of_ge low _ (by omega)
  simp [hclear]

/-- The Word of an instruction of format R decodes the same with any bits in its unallocated bits 13 to 0 (R115). -/
theorem decode_encode_or_low {i : Instr} (h : layoutOf i.opcode = some layoutR) (low : BitVec 14) :
    decode (encode i ||| low.setWidth 32) = decode (encode i) := by
  have hop : opcodeOf (encode i ||| low.setWidth 32) = opcodeOf (encode i) :=
    extractLsb'_or_setWidth_of_le _ low 6 (by decide)
  have hlayout : layoutOf (opcodeOf (encode i ||| low.setWidth 32)) = some layoutR := by
    rw [hop, opcodeOf_encode, h]
  exact decode_eq_of_layoutR hop hlayout (extractLsb'_or_setWidth_of_le _ low 12 (Nat.le_refl 14))

theorem decode_add_or_low (rd rn rm : RegNum) (low : BitVec 14) :
    decode (encode (.add rd rn rm) ||| low.setWidth 32) = .ok (.add rd rn rm) := by
  rw [decode_encode_or_low rfl, decode_of_opcode_add (opcodeOf_encode _), encode, rdOf_encodeR, rnOf_encodeR,
    rmOf_encodeR]

theorem decode_sub_or_low (rd rn rm : RegNum) (low : BitVec 14) :
    decode (encode (.sub rd rn rm) ||| low.setWidth 32) = .ok (.sub rd rn rm) := by
  rw [decode_encode_or_low rfl, decode_of_opcode_sub (opcodeOf_encode _), encode, rdOf_encodeR, rnOf_encodeR,
    rmOf_encodeR]

/-! ### The flags of a result -/

@[simp] theorem flagZ_flagsWord (z n : Bool) : flagZ (flagsWord z n) = z := by
  cases z <;> cases n <;> rfl

@[simp] theorem flagN_flagsWord (z n : Bool) : flagN (flagsWord z n) = n := by
  cases z <;> cases n <;> rfl

theorem flagZ_nzFlags (r : Word) : flagZ (nzFlags r) = (r == 0) := flagZ_flagsWord _ _

theorem flagN_nzFlags (r : Word) : flagN (nzFlags r) = r.getLsbD 31 := flagN_flagsWord _ _

theorem sub_self_flags (a : Word) :
    a - a = 0 ∧ flagZ (nzFlags (a - a)) = true ∧ flagN (nzFlags (a - a)) = false := by
  rw [flagZ_nzFlags, flagN_nzFlags, BitVec.sub_self]
  exact ⟨rfl, rfl, rfl⟩

/-! ### The three rules -/

/-- Settles O29: the row of the interface table by definition, the mask and the whole instruction from the lemmas above. -/
theorem addiRule : Obligations.AddiRule := fun rd rn imm =>
  ⟨rfl, encode_and_opcodeMask (op := 3) rfl, rfl, rfl, fun _ _ => rfl, fun _ _ _ _ => rfl, fun _ => rfl,
    exec_addi rd rn imm, rfl, rfl⟩

/-- Settles O30: as for `ADDI`; Decode reads the three registers back and no bit below them. -/
theorem addRule : Obligations.AddRule := fun rd rn rm =>
  ⟨rfl, encode_and_opcodeMask (op := 4) rfl, rfl, rfl, fun _ _ => rfl, fun _ _ _ _ => rfl, fun _ => rfl,
    exec_add rd rn rm, decode_add_or_low rd rn rm, rfl⟩

/-- Settles O31: as for `ADD`, and `Z` and `N` read back from the flags of a zero difference. -/
theorem subRule : Obligations.SubRule := fun rd rn rm =>
  ⟨rfl, encode_and_opcodeMask (op := 5) rfl, rfl, rfl, fun _ _ => rfl, fun _ _ _ _ => rfl, fun _ => rfl,
    exec_sub rd rn rm, decode_sub_or_low rd rn rm, sub_self_flags, rfl⟩

end Sys2Proof.Proofs.Arithmetic

/-! B, BEQ and BNE (spec/44_branch.md R200 to R203): a branch run whole, and the bubble that a redirection costs in a pipelined
advance (spec/40_pipeline_engine.md R146). -/

namespace Sys2Proof.Proofs.Branch

open Sys2Proof.Machine Sys2Proof.Laws Sys2Proof.Proofs.Reset Sys2Proof.Proofs.Encoding Sys2Proof.Proofs.System
  Sys2Proof.Proofs.LoadStore

/-! ### A branch run whole -/

theorem applyExec_branch (s : State) (taken : Bool) (t : Target) :
    s.applyExec (ExecOut.branch taken t) = { s with pc := if taken then branchTarget t else s.pc } := by
  cases taken with
  | false => rfl
  | true => rfl

/-- All a branch does, run whole, is to write pc when it is taken and to count five cycle units (R149, R200). -/
theorem runWhole_of_branch {f : InstrStages} {s : State} {taken : Bool} {t : Target}
    (hexec : f.exec s.x s.flags = ExecOut.branch taken t) (hmemOp : f.memOp = noMemOp) (hretire : f.retire = noRetire) :
    runWhole f s = .next { s with pc := if taken then branchTarget t else s.pc, cycles := s.cycles + 5 } := by
  simp only [runWhole, hexec, hmemOp, hretire, noMemOp, noRetire, applyRetire_nothing, applyExec_branch]

theorem exec_b (t : Target) (s : State) :
    exec (.b t) s = .next { s with pc := branchTarget t, cycles := s.cycles + 5 } :=
  (exec_eq_runWhole _ s).trans (runWhole_of_branch (taken := true) rfl rfl rfl)

theorem exec_beq (t : Target) (s : State) :
    exec (.beq t) s = .next { s with
      pc := if flagZ s.flags = true then branchTarget t else s.pc, cycles := s.cycles + 5 } :=
  (exec_eq_runWhole _ s).trans (runWhole_of_branch (taken := flagZ s.flags) rfl rfl rfl)

theorem exec_bne (t : Target) (s : State) :
    exec (.bne t) s = .next { s with
      pc := if flagZ s.flags = false then branchTarget t else s.pc, cycles := s.cycles + 5 } := by
  rw [exec_eq_runWhole, runWhole_of_branch (taken := !flagZ s.flags) rfl rfl rfl]
  simp only [Bool.not_eq_true']

/-! ### What `Exec` of BEQ and BNE returns -/

theorem bneStages_exec (t : Target) (x : RegFile) (flags : Word) :
    (bneStages t).exec x flags =
      { computed := none, ea := none, flags := none
        redirect := if flagZ flags = false then some (branchTarget t) else none } := by
  simp only [bneStages, ExecOut.branch, Bool.not_eq_true']

theorem beq_redirect_of_reset (t : Target) (p : Params) (x : RegFile) :
    ((beqStages t).exec x (State.resetWith p).flags).redirect = none := by
  simp only [beqStages, ExecOut.branch, reset_flagZ_clear, Bool.false_eq_true, if_false]

theorem bne_redirect_of_reset (t : Target) (p : Params) (x : RegFile) :
    ((bneStages t).exec x (State.resetWith p).flags).redirect = some (branchTarget t) := by
  rw [bneStages_exec, reset_flagZ_clear, if_pos rfl]

/-! ### A redirection in a pipelined advance -/

section Redirection

variable {s u : State}

theorem executeOut_of_effective {r : InstrRecord} {i : Instr} (hslot : s.slotE = .instr r)
    (heffective : r.effective = some i) : s.executeOut = (stagesOf i).exec s.executeRegs s.flags := by
  rw [State.executeOut, hslot, Slot.execOut, stages_of_effective heffective]

/-- Only step 2 of an advance decides whether Memory stalls. -/
theorem steps_3_to_5_stalledMemory {s2 s3 s5 : State} (h3 : step3Execute s2 = .ok s3)
    (h5 : step5Fetch (step4Decode s3) = .ok s5) : s5.stalledMemory = s2.stalledMemory := by
  obtain ⟨-, -, -, -, -, -, -, -, -, -, hst3, -⟩ := step3Execute_frame h3
  obtain ⟨-, -, -, -, -, -, -, -, -, -, -, -, -, hst4, -⟩ := step4Decode_frame s3
  obtain ⟨-, -, -, -, -, -, -, -, -, -, -, -, hst5⟩ := step5Fetch_frame h5
  rw [hst5, hst4, hst3]

/-- The one bubble of a redirection (R146): Decode finds `slot[D]` squashed, and Fetch reads at the new pc. -/
theorem bubble_of_redirect {a : Word} (hpipelining : s.pipelining) (hstep : step s = .next u) (hfault : u.fault = none)
    (hunstalled : u.stalledMemory = false) (hredirect : s.executeOut.redirect = some a) :
    u.slotE = .bubble ∧ u.pc = a + 1 := by
  obtain ⟨s2, s3, s5, h2, h3, h5, rfl⟩ := advance_without_error hpipelining hstep hfault
  obtain ⟨-, -, -, -, -, -, -, -, -, -, -, -, hstalls⟩ := step2Memory_frame h2
  have hunstalled2 : s2.stalledMemory = false := (steps_3_to_5_stalledMemory h3 h5).symm.trans hunstalled
  have hexecute : (s2.slotE.execOut s2.x s2.flags).redirect = some a := by
    obtain ⟨hout, -⟩ := executeOut_eq h2
    rw [← hout, hredirect]
  obtain ⟨-, -, hslotE, hpc, -⟩ := steps_3_to_5_unstalled hstalls hunstalled2 h3 h5
  simp only [hexecute, Option.isSome_some, if_true, Option.getD_some] at hslotE hpc
  exact ⟨hslotE, hpc⟩

theorem bubble_of_b {r : InstrRecord} {t : Target} (hpipelining : s.pipelining) (hslot : s.slotE = .instr r)
    (heffective : r.effective = some (.b t)) (hstep : step s = .next u) (hfault : u.fault = none)
    (hunstalled : u.stalledMemory = false) : u.slotE = .bubble ∧ u.pc = branchTarget t + 1 := by
  have hredirect : s.executeOut.redirect = some (branchTarget t) := by
    rw [executeOut_of_effective hslot heffective]
    rfl
  exact bubble_of_redirect hpipelining hstep hfault hunstalled hredirect

end Redirection

/-! ### The three rules -/

/-- Settles O32: the row of the interface table by definition, the mask, the whole instruction and the bubble from the lemmas above. -/
theorem bRule : Obligations.BRule := fun t =>
  ⟨rfl, encode_and_opcodeMask (op := 6) rfl, rfl, rfl, fun _ _ => rfl, fun _ _ _ _ => rfl, fun _ => rfl, exec_b t,
    fun _ _ _ => bubble_of_b, rfl⟩

/-- Settles O33: as for `B`, with pc kept when `Z` is 0, as it is in the flags of reset. -/
theorem beqRule : Obligations.BeqRule := fun t =>
  ⟨rfl, encode_and_opcodeMask (op := 7) rfl, rfl, rfl, fun _ _ => rfl, fun _ _ _ _ => rfl, fun _ => rfl, exec_beq t,
    beq_redirect_of_reset t, rfl⟩

/-- Settles O34: as for `BEQ`, with the two cases of `Z` exchanged. -/
theorem bneRule : Obligations.BneRule := fun t =>
  ⟨rfl, encode_and_opcodeMask (op := 8) rfl, rfl, rfl, bneStages_exec t, fun _ _ _ _ => rfl, fun _ => rfl, exec_bne t,
    bne_redirect_of_reset t, rfl⟩

end Sys2Proof.Proofs.Branch

/-! `cycle(n)` (spec/45_host_operations.md R211): it iterates `advance()`, a stopped core is a fixed point of it, and a sequential
advance that raises nothing counts at least five cycle units (spec/40_pipeline_engine.md R150). -/

namespace Sys2Proof.Proofs.Driver

open Sys2Proof.Machine Sys2Proof.Laws Sys2Proof.Proofs.Engine

/-! ### Iterated advances -/

theorem advanced_of_step {s t : State} (h : step s = .next t) : s.advanced = t := by
  rw [State.advanced, h]

theorem advanced_of_stopped {s : State} (h : s.stopped = true) : s.advanced = s :=
  advanced_of_step (step_of_stopped h)

theorem cycle_eq_iterate (n : Nat) (s : State) :
    cycle n s = ((List.range n).map (fun k => (State.advanced^[k] s).advanceStatus), State.advanced^[n] s) := by
  induction n generalizing s with
  | zero => rfl
  | succ n ih =>
    -- Advance `k + 1` from `s` is advance `k` from `s.advanced`.
    rw [cycle, ih, List.range_succ_eq_map, List.map_cons, List.map_map]
    rfl

theorem iterate_advanced_of_stopped {n k : Nat} {s : State} (hstopped : (State.advanced^[k] s).stopped = true)
    (hle : k ≤ n) : State.advanced^[n] s = State.advanced^[k] s :=
  calc State.advanced^[n] s
      = State.advanced^[n - k + k] s := by rw [Nat.sub_add_cancel hle]
    _ = State.advanced^[n - k] (State.advanced^[k] s) := Function.iterate_add_apply _ _ _ _
    _ = State.advanced^[k] s := Function.iterate_fixed (advanced_of_stopped hstopped) _

/-! ### The cycle count of a sequential advance -/

theorem fetchWord_cycles {s u : State} {w : Word} (h : fetchWord s = .ok (w, u)) : u.cycles = s.cycles := by
  obtain ⟨-, -, rfl⟩ := fetchWord_ok_iff.1 h
  rfl

/-- A whole instruction counts five cycle units and its latency unless its `MemOp` raises (R150). -/
theorem add_five_le_cycles_of_runWhole {f : InstrStages} {s t : State} (h : runWhole f s = .next t)
    (hfault : t.fault = none) : s.cycles + 5 ≤ t.cycles := by
  rcases runWhole_cases f s with ⟨o, -, hdone⟩ | ⟨r, -, hraised⟩
  · obtain rfl := Host.Outcome.next.inj (hdone.symm.trans h)
    exact Nat.le_add_right _ _
  · obtain rfl := Host.Outcome.next.inj (hraised.symm.trans h)
    simp at hfault

/-- A sequential advance is a fetch that raises, or a fetch and a whole instruction, the inert one included (R149). -/
theorem step_cases_of_sequencing {s : State} (h : s.sequencing) :
    (∃ r, step s = .next (s.raise r)) ∨ ∃ f w u, fetchWord s = .ok (w, u) ∧ step s = runWhole f u := by
  obtain ⟨hrunning, hsequential⟩ := h
  rcases step_cases s with ⟨hstopped, -⟩ | ⟨⟨-, hoverlapped⟩, -⟩ |
    ⟨-, ⟨r, -, hraised⟩ | ⟨w, u, i, hfetch, -, hrun⟩ | ⟨w, u, e, hfetch, -, hrun⟩⟩
  · simp [hrunning] at hstopped
  · simp [hsequential] at hoverlapped
  · exact Or.inl ⟨r, hraised⟩
  · exact Or.inr ⟨stagesOf i, w, u, hfetch, hrun⟩
  · exact Or.inr ⟨inertStages, w, u, hfetch, hrun⟩

theorem add_five_le_cycles_of_sequencing {s t : State} (hsequencing : s.sequencing) (hstep : step s = .next t)
    (hfault : t.fault = none) : s.cycles + 5 ≤ t.cycles := by
  rcases step_cases_of_sequencing hsequencing with ⟨r, hraised⟩ | ⟨f, w, u, hfetch, hrun⟩
  · obtain rfl := Host.Outcome.next.inj (hraised.symm.trans hstep)
    simp at hfault
  · rw [← fetchWord_cycles hfetch]
    exact add_five_le_cycles_of_runWhole (hrun.symm.trans hstep) hfault

/-- Settles O57: the driver is the iteration, a stopped core stays where it is, and the count is that of a whole instruction. -/
theorem cycleIsRepeatedAdvance : Obligations.CycleIsRepeatedAdvance := by
  refine ⟨cycle_eq_iterate, fun n k s hstopped hle => ?_, fun _ _ => add_five_le_cycles_of_sequencing⟩
  rw [cycle_eq_iterate, cycle_eq_iterate]
  exact iterate_advanced_of_stopped hstopped hle

end Sys2Proof.Proofs.Driver

/-! Decode after encode, the assembler against the encoding formulas, and the fields Decode reads (spec/30_encoding.md R105,
R107 to R111, R114, R117, R119, R120). -/

namespace Sys2Proof.Proofs.Assembler

open Sys2Proof.Proofs.Encoding Sys2Proof.Proofs.System Sys2Proof.Proofs.LoadStore Sys2Proof.Proofs.Arithmetic

/-! ### The fields of a Word of formats RI and J -/

section Fields

variable (op : Opcode) (rd rn : RegNum) (imm : Imm18)

theorem rdOf_encodeRI : rdOf (encodeRI op rd rn imm) = rd :=
  calc rdOf (encodeRI op rd rn imm)
      = (rd ++ (rn ++ imm)).extractLsb' 22 4 := BitVec.extractLsb'_append_eq_of_add_le (by decide)
    _ = rd := BitVec.extractLsb'_append_eq_left

theorem rnOf_encodeRI : rnOf (encodeRI op rd rn imm) = rn :=
  calc rnOf (encodeRI op rd rn imm)
      = (rd ++ (rn ++ imm)).extractLsb' 18 4 := BitVec.extractLsb'_append_eq_of_add_le (by decide)
    _ = (rn ++ imm).extractLsb' 18 4 := BitVec.extractLsb'_append_eq_of_add_le (by decide)
    _ = rn := BitVec.extractLsb'_append_eq_left

theorem immOf_encodeRI : immOf (encodeRI op rd rn imm) = imm :=
  calc immOf (encodeRI op rd rn imm)
      = (rd ++ (rn ++ imm)).extractLsb' 0 18 := BitVec.extractLsb'_append_eq_of_add_le (by decide)
    _ = (rn ++ imm).extractLsb' 0 18 := BitVec.extractLsb'_append_eq_of_add_le (by decide)
    _ = imm := BitVec.extractLsb'_append_eq_right

theorem targetOf_encodeJ (target : Target) : targetOf (encodeJ op target) = target :=
  BitVec.extractLsb'_append_eq_right

end Fields

/-- Settles O1: the opcode read back selects the row, and the fields of its format read back are the operands. -/
theorem decodeEncode : Obligations.DecodeEncode := by
  intro i
  have hop := opcodeOf_encode i
  cases i with
  | nop => exact decode_of_opcode_nop hop
  | ldr rd rn imm => rw [decode_of_opcode_ldr hop, encode, rdOf_encodeRI, rnOf_encodeRI, immOf_encodeRI]
  | str rd rn imm => rw [decode_of_opcode_str hop, encode, rdOf_encodeRI, rnOf_encodeRI, immOf_encodeRI]
  | addi rd rn imm => rw [decode_of_opcode_addi hop, encode, rdOf_encodeRI, rnOf_encodeRI, immOf_encodeRI]
  | add rd rn rm => rw [decode_of_opcode_add hop, encode, rdOf_encodeR, rnOf_encodeR, rmOf_encodeR]
  | sub rd rn rm => rw [decode_of_opcode_sub hop, encode, rdOf_encodeR, rnOf_encodeR, rmOf_encodeR]
  | b target => rw [decode_of_opcode_b hop, encode, targetOf_encodeJ]
  | beq target => rw [decode_of_opcode_beq hop, encode, targetOf_encodeJ]
  | bne target => rw [decode_of_opcode_bne hop, encode, targetOf_encodeJ]
  | halt => exact decode_of_opcode_halt hop

/-- Settles O5: the two ranges are those of the opcodes 0 and 63. -/
theorem nopAndHaltAliases : Obligations.NopAndHaltAliases := fun _ => ⟨decode_nop_of_lt, decode_halt_of_le⟩

/-- Settles O6: twelve closed Words, decoded by evaluation. -/
theorem sampleWordsDecode : Obligations.SampleWordsDecode := by
  unfold Obligations.SampleWordsDecode
  decide

/-! ### The fields Decode reads -/

section FieldsRead

variable {w : Word}

/-- `get` of a field of a Word is the field taken out of the Word. -/
theorem get_toNat_of_find {l : WordLayout} {name : String} {f : FieldDescriptor} (h : l.find name = some f) (w : Word) :
    l.get w.toNat name = .ok (w.extractLsb' f.startBit f.widthBits).toNat := by
  rw [get_of_find h, FieldDescriptor.mask, Nat.and_two_pow_sub_one_eq_mod, BitVec.extractLsb'_toNat]

theorem get_opcode_layoutN (w : Word) : layoutN.get w.toNat "opcode" = .ok (opcodeOf w).toNat :=
  get_toNat_of_find (f := ⟨"opcode", 26, 6⟩) rfl w

theorem get_fields_layoutRI (w : Word) :
    ∀ f ∈ [("opcode", (opcodeOf w).toNat), ("rd", (rdOf w).toNat), ("rn", (rnOf w).toNat), ("imm18", (immOf w).toNat)],
      layoutRI.get w.toNat f.1 = .ok f.2 := by
  have hopcode := get_toNat_of_find (l := layoutRI) (name := "opcode") (f := ⟨"opcode", 26, 6⟩) rfl w
  have hrd := get_toNat_of_find (l := layoutRI) (name := "rd") (f := ⟨"rd", 22, 4⟩) rfl w
  have hrn := get_toNat_of_find (l := layoutRI) (name := "rn") (f := ⟨"rn", 18, 4⟩) rfl w
  have himm := get_toNat_of_find (l := layoutRI) (name := "imm18") (f := ⟨"imm18", 0, 18⟩) rfl w
  simpa only [List.forall_mem_cons, List.not_mem_nil, false_imp_iff, implies_true, and_true] using
    ⟨hopcode, hrd, hrn, himm⟩

theorem get_fields_layoutR (w : Word) :
    ∀ f ∈ [("opcode", (opcodeOf w).toNat), ("rd", (rdOf w).toNat), ("rn", (rnOf w).toNat), ("rm", (rmOf w).toNat)],
      layoutR.get w.toNat f.1 = .ok f.2 := by
  have hopcode := get_toNat_of_find (l := layoutR) (name := "opcode") (f := ⟨"opcode", 26, 6⟩) rfl w
  have hrd := get_toNat_of_find (l := layoutR) (name := "rd") (f := ⟨"rd", 22, 4⟩) rfl w
  have hrn := get_toNat_of_find (l := layoutR) (name := "rn") (f := ⟨"rn", 18, 4⟩) rfl w
  have hrm := get_toNat_of_find (l := layoutR) (name := "rm") (f := ⟨"rm", 14, 4⟩) rfl w
  simpa only [List.forall_mem_cons, List.not_mem_nil, false_imp_iff, implies_true, and_true] using
    ⟨hopcode, hrd, hrn, hrm⟩

theorem get_fields_layoutJ (w : Word) :
    ∀ f ∈ [("opcode", (opcodeOf w).toNat), ("target", (targetOf w).toNat)], layoutJ.get w.toNat f.1 = .ok f.2 := by
  have hopcode := get_toNat_of_find (l := layoutJ) (name := "opcode") (f := ⟨"opcode", 26, 6⟩) rfl w
  have htarget := get_toNat_of_find (l := layoutJ) (name := "target") (f := ⟨"target", 0, 26⟩) rfl w
  simpa only [List.forall_mem_cons, List.not_mem_nil, false_imp_iff, implies_true, and_true] using ⟨hopcode, htarget⟩

/-- What Decode answers are the fields of the layout its opcode selects, as `get` reads them, in the layout's order. -/
def ReadsLayout (w : Word) (i : Instr) : Prop :=
  ∃ l, layoutOf (opcodeOf w) = some l ∧ i.fieldValues.map Prod.fst = l.fields.map (·.name) ∧
    ∀ f ∈ i.fieldValues, l.get w.toNat f.1 = .ok f.2

theorem readsLayout_N {i : Instr} (hop : opcodeOf w = i.opcode) (hlayout : layoutOf (opcodeOf w) = some layoutN)
    (hvalues : i.fieldValues = [("opcode", i.opcode.toNat)]) : ReadsLayout w i := by
  refine ⟨layoutN, hlayout, by rw [hvalues]; rfl, fun f hf => ?_⟩
  rw [hvalues, List.mem_singleton] at hf
  rw [hf, ← hop, get_opcode_layoutN]

theorem readsLayout_RI {i : Instr} (hlayout : layoutOf (opcodeOf w) = some layoutRI)
    (hvalues : i.fieldValues =
      [("opcode", (opcodeOf w).toNat), ("rd", (rdOf w).toNat), ("rn", (rnOf w).toNat), ("imm18", (immOf w).toNat)]) :
    ReadsLayout w i :=
  ⟨layoutRI, hlayout, by rw [hvalues]; rfl, hvalues ▸ get_fields_layoutRI w⟩

theorem readsLayout_R {i : Instr} (hlayout : layoutOf (opcodeOf w) = some layoutR)
    (hvalues : i.fieldValues =
      [("opcode", (opcodeOf w).toNat), ("rd", (rdOf w).toNat), ("rn", (rnOf w).toNat), ("rm", (rmOf w).toNat)]) :
    ReadsLayout w i :=
  ⟨layoutR, hlayout, by rw [hvalues]; rfl, hvalues ▸ get_fields_layoutR w⟩

theorem readsLayout_J {i : Instr} (hlayout : layoutOf (opcodeOf w) = some layoutJ)
    (hvalues : i.fieldValues = [("opcode", (opcodeOf w).toNat), ("target", (targetOf w).toNat)]) : ReadsLayout w i :=
  ⟨layoutJ, hlayout, by rw [hvalues]; rfl, hvalues ▸ get_fields_layoutJ w⟩

theorem readsLayout_of_decode {i : Instr} (h : decode w = .ok i) : ReadsLayout w i := by
  have hop := opcodeOf_of_decode h
  cases i with
  | nop => exact readsLayout_N hop (by rw [hop]; rfl) rfl
  | halt => exact readsLayout_N hop (by rw [hop]; rfl) rfl
  | ldr =>
    cases (decode_of_opcode_ldr hop).symm.trans h
    exact readsLayout_RI (by rw [hop]; rfl) (by rw [hop]; rfl)
  | str =>
    cases (decode_of_opcode_str hop).symm.trans h
    exact readsLayout_RI (by rw [hop]; rfl) (by rw [hop]; rfl)
  | addi =>
    cases (decode_of_opcode_addi hop).symm.trans h
    exact readsLayout_RI (by rw [hop]; rfl) (by rw [hop]; rfl)
  | add =>
    cases (decode_of_opcode_add hop).symm.trans h
    exact readsLayout_R (by rw [hop]; rfl) (by rw [hop]; rfl)
  | sub =>
    cases (decode_of_opcode_sub hop).symm.trans h
    exact readsLayout_R (by rw [hop]; rfl) (by rw [hop]; rfl)
  | b =>
    cases (decode_of_opcode_b hop).symm.trans h
    exact readsLayout_J (by rw [hop]; rfl) (by rw [hop]; rfl)
  | beq =>
    cases (decode_of_opcode_beq hop).symm.trans h
    exact readsLayout_J (by rw [hop]; rfl) (by rw [hop]; rfl)
  | bne =>
    cases (decode_of_opcode_bne hop).symm.trans h
    exact readsLayout_J (by rw [hop]; rfl) (by rw [hop]; rfl)

end FieldsRead

/-- Settles O7: row by row, each field `get` reads is the one Decode took out. -/
theorem decodeReadsLayoutFields : Obligations.DecodeReadsLayoutFields := fun _ _ h =>
  ⟨(opcodeOf_of_decode h).symm, readsLayout_of_decode h⟩

/-! ### Setting the fields of a Word from the zero Word -/

section SetFields

variable {l : WordLayout} {f : FieldDescriptor} {lo hi bits n : Nat}

/-- Every bit of the number that is set lies in `[lo, hi)`. -/
def BitsWithin (lo hi bits : Nat) : Prop := ∀ k, bits.testBit k = true → lo ≤ k ∧ k < hi

theorem bitsWithin_zero (lo hi : Nat) : BitsWithin lo hi 0 := by
  intro k hk
  simp at hk

/-- A field set below all the bits of a word is or-ed in: there is nothing to clear. -/
theorem replaceBits_of_bitsWithin (h : BitsWithin f.stopBit hi bits) (n : Nat) :
    replaceBits f hi bits n = bits ||| n <<< f.startBit := by
  have hclear : bits &&& ((2 ^ hi - 1) ^^^ (f.mask <<< f.startBit)) = bits := by
    apply Nat.eq_of_testBit_eq
    intro k
    rw [Nat.testBit_and, Nat.testBit_xor, Nat.testBit_two_pow_sub_one, Nat.testBit_shiftLeft, testBit_mask]
    cases hk : bits.testBit k with
    | false => rfl
    | true =>
      obtain ⟨hstop, hhi⟩ := h k hk
      have hwidth : ¬ k - f.startBit < f.widthBits := by
        rw [FieldDescriptor.stopBit] at hstop
        omega
      simp [hhi, hwidth]
  rw [replaceBits, hclear]

theorem bitsWithin_or_shiftLeft (h : BitsWithin f.stopBit hi bits) (hn : n ≤ f.mask) (hfits : f.stopBit ≤ hi) :
    BitsWithin f.startBit hi (bits ||| n <<< f.startBit) := by
  intro k hk
  rw [Nat.testBit_or, Nat.testBit_shiftLeft, Bool.or_eq_true, Bool.and_eq_true, decide_eq_true_eq] at hk
  rcases hk with hk | ⟨hstart, hk⟩
  · obtain ⟨hstop, hhi⟩ := h k hk
    rw [FieldDescriptor.stopBit] at hstop
    omega
  · have hwidth : k - f.startBit < f.widthBits := by
      by_contra hge
      simp [testBit_eq_false_of_le_mask hn (Nat.le_of_not_lt hge)] at hk
    rw [FieldDescriptor.stopBit] at hfits
    omega

/-- Fields of the layout that lie one below the other, the first below bit `lo`, each with a value that fits it. -/
def Descends (l : WordLayout) (lo : Nat) : List (FieldDescriptor × Nat) → Prop
  | [] => True
  | (f, n) :: rest => l.find f.name = some f ∧ f.stopBit ≤ lo ∧ n ≤ f.mask ∧ Descends l f.startBit rest

/-- The values or-ed in at the places of their fields. -/
def orFields (bits : Nat) : List (FieldDescriptor × Nat) → Nat
  | [] => bits
  | (f, n) :: rest => orFields (bits ||| n <<< f.startBit) rest

/-- Setting fields from the top of the word downwards: each value in range is or-ed in at its place. -/
theorem setAll_eq_orFields {fs : List (FieldDescriptor × Nat)} (hbits : BitsWithin lo l.size bits) (hlo : lo ≤ l.size)
    (hfs : Descends l lo fs) :
    l.setAll bits (fs.map fun q => (q.1.name, (q.2 : Int))) = .ok (orFields bits fs) := by
  induction fs generalizing bits lo with
  | nil => rfl
  | cons q rest ih =>
    obtain ⟨f, n⟩ := q
    obtain ⟨hfind, hstop, hn, hrest⟩ := hfs
    have hbelow : BitsWithin f.stopBit l.size bits := fun k hk => ⟨hstop.trans (hbits k hk).1, (hbits k hk).2⟩
    have hstart : f.startBit ≤ f.stopBit := Nat.le_add_right _ _
    rw [List.map_cons, WordLayout.setAll, set_of_find_of_inRange hfind bits (Int.natCast_nonneg n) (by omega),
      Int.toNat_natCast, replaceBits_of_bitsWithin hbelow]
    exact ih (bitsWithin_or_shiftLeft hbelow hn (hstop.trans hlo)) (by omega) hrest

/-- One operand out of its field's range makes the whole sequence fail with `RangeError`. -/
theorem setAll_error_of_outOfRange {fs : List (String × Int)} (hknown : ∀ q ∈ fs, (l.find q.1).isSome = true)
    (hout : ∃ q ∈ fs, ∃ g, l.find q.1 = some g ∧ (q.2 < 0 ∨ (g.mask : Int) < q.2)) :
    l.setAll bits fs = .error .rangeError := by
  induction fs generalizing bits with
  | nil => simp at hout
  | cons q rest ih =>
    obtain ⟨name, v⟩ := q
    obtain ⟨hq, hrest⟩ := List.forall_mem_cons.1 hknown
    obtain ⟨f, hf⟩ := Option.isSome_iff_exists.1 hq
    by_cases hv : v < 0 ∨ (f.mask : Int) < v
    · rw [WordLayout.setAll, set_of_find_of_outOfRange hf bits hv]
    · rw [WordLayout.setAll, set_of_find_of_inRange hf bits (by omega) (by omega)]
      refine ih hrest ?_
      obtain ⟨q, hmem, g, hg, hgout⟩ := hout
      rcases List.mem_cons.1 hmem with rfl | hmem
      · obtain rfl := Option.some.inj (hf.symm.trans hg)
        exact absurd hgout hv
      · exact ⟨q, hmem, g, hg, hgout⟩

end SetFields

/-! ### The assembler, format by format -/

theorem assemble_of_setAll {a : Asm} {l : WordLayout} {fs : List (String × Int)} {bits : Nat} (ha : a.fields = .ok (l, fs))
    (hset : l.setAll 0 fs = .ok bits) : assemble a = .ok (BitVec.ofNat 32 bits) := by
  simp only [assemble, ha, hset]

theorem assemble_error_of_setAll {a : Asm} {l : WordLayout} {fs : List (String × Int)} {e : CodecError}
    (ha : a.fields = .ok (l, fs)) (hset : l.setAll 0 fs = .error e) : assemble a = .error e := by
  simp only [assemble, ha, hset]

theorem encodeN_eq_ofNat (op : Opcode) : encodeN op = BitVec.ofNat 32 (op.toNat <<< 26) := by
  have h : (encodeN op).toNat = op.toNat <<< 26 := by
    simp only [encodeN, BitVec.toNat_append, BitVec.toNat_ofNat, Nat.zero_mod, Nat.or_zero]
  rw [← h, BitVec.ofNat_toNat, BitVec.setWidth_eq]

theorem encodeRI_eq_ofNat (op : Opcode) (rd rn : RegNum) (imm : Imm18) : encodeRI op rd rn imm =
    BitVec.ofNat 32 (op.toNat <<< 26 ||| rd.toNat <<< 22 ||| rn.toNat <<< 18 ||| imm.toNat) := by
  have h : (encodeRI op rd rn imm).toNat = op.toNat <<< 26 ||| rd.toNat <<< 22 ||| rn.toNat <<< 18 ||| imm.toNat := by
    simp only [encodeRI, BitVec.toNat_append, Nat.or_assoc]
  rw [← h, BitVec.ofNat_toNat, BitVec.setWidth_eq]

theorem encodeR_eq_ofNat (op : Opcode) (rd rn rm : RegNum) : encodeR op rd rn rm =
    BitVec.ofNat 32 (op.toNat <<< 26 ||| rd.toNat <<< 22 ||| rn.toNat <<< 18 ||| rm.toNat <<< 14) := by
  have h : (encodeR op rd rn rm).toNat =
      op.toNat <<< 26 ||| rd.toNat <<< 22 ||| rn.toNat <<< 18 ||| rm.toNat <<< 14 := by
    simp only [encodeR, BitVec.toNat_append, BitVec.toNat_ofNat, Nat.zero_mod, Nat.or_zero, Nat.or_assoc]
  rw [← h, BitVec.ofNat_toNat, BitVec.setWidth_eq]

theorem encodeJ_eq_ofNat (op : Opcode) (target : Target) :
    encodeJ op target = BitVec.ofNat 32 (op.toNat <<< 26 ||| target.toNat) := by
  have h : (encodeJ op target).toNat = op.toNat <<< 26 ||| target.toNat := by simp only [encodeJ, BitVec.toNat_append]
  rw [← h, BitVec.ofNat_toNat, BitVec.setWidth_eq]

section Formats

variable {a : Asm} {op : Opcode} {rd rn rm target : Nat} {simm : Int}

/-- The opcode fits its field, whatever the format. -/
theorem opcode_le_mask (op : Opcode) : op.toNat ≤ (⟨"opcode", 26, 6⟩ : FieldDescriptor).mask := Nat.le_pred_of_lt op.isLt

theorem assemble_N (hfields : a.fields = .ok (layoutN, [("opcode", (op.toNat : Int))]))
    (hencode : encode a.toInstr = encodeN op) :
    assemble a = .ok (BitVec.ofNat 32 (op.toNat <<< 26)) ∧ assemble a = .ok (encode a.toInstr) := by
  have hset : layoutN.setAll 0 [("opcode", (op.toNat : Int))] = .ok (0 ||| op.toNat <<< 26) :=
    setAll_eq_orFields (fs := [(⟨"opcode", 26, 6⟩, op.toNat)]) (bitsWithin_zero 32 32) (Nat.le_refl 32)
      ⟨rfl, Nat.le_refl 32, opcode_le_mask op, trivial⟩
  rw [hencode, encodeN_eq_ofNat, assemble_of_setAll hfields hset, Nat.zero_or, and_self]

theorem assemble_RI (hfields : a.fields = (Asm.fieldsRI op.toNat rd rn simm).map (layoutRI, ·))
    (hencode : encode a.toInstr = encodeRI op (BitVec.ofNat 4 rd) (BitVec.ofNat 4 rn) (BitVec.ofInt 18 simm))
    (hrd : rd < 16) (hrn : rn < 16) (hsimm : Asm.simmOk simm = true) :
    assemble a = .ok (BitVec.ofNat 32 (op.toNat <<< 26 ||| rd <<< 22 ||| rn <<< 18 ||| (simm % 2 ^ 18).toNat)) ∧
      assemble a = .ok (encode a.toInstr) := by
  have himm : ((simm % 262144).toNat : Int) = simm % 262144 := Int.toNat_of_nonneg (Int.emod_nonneg _ (by decide))
  have hvalues : a.fields = .ok (layoutRI, [("opcode", (op.toNat : Int)), ("rd", (rd : Int)), ("rn", (rn : Int)),
      ("imm18", ((simm % 262144).toNat : Int))]) := by
    rw [hfields, Asm.fieldsRI, Asm.imm18, if_pos hsimm, himm]
    rfl
  have hset := setAll_eq_orFields (l := layoutRI)
    (fs := [(⟨"opcode", 26, 6⟩, op.toNat), (⟨"rd", 22, 4⟩, rd), (⟨"rn", 18, 4⟩, rn),
      (⟨"imm18", 0, 18⟩, (simm % 262144).toNat)])
    (bitsWithin_zero 32 32) (Nat.le_refl 32)
    ⟨rfl, Nat.le_refl 32, opcode_le_mask op, rfl, Nat.le_refl 26, Nat.le_pred_of_lt hrd, rfl, Nat.le_refl 22,
      Nat.le_pred_of_lt hrn, rfl, Nat.le_refl 18, show (simm % 262144).toNat ≤ 262143 by omega, trivial⟩
  have hassemble := assemble_of_setAll hvalues hset
  simp only [orFields, Nat.zero_or, Nat.shiftLeft_zero] at hassemble
  rw [hencode, encodeRI_eq_ofNat, BitVec.toNat_ofNat, BitVec.toNat_ofNat, BitVec.toNat_ofInt, Nat.mod_eq_of_lt hrd,
    Nat.mod_eq_of_lt hrn]
  exact ⟨hassemble, hassemble⟩

theorem assemble_R
    (hfields : a.fields =
      .ok (layoutR, [("opcode", (op.toNat : Int)), ("rd", (rd : Int)), ("rn", (rn : Int)), ("rm", (rm : Int))]))
    (hencode : encode a.toInstr = encodeR op (BitVec.ofNat 4 rd) (BitVec.ofNat 4 rn) (BitVec.ofNat 4 rm))
    (hrd : rd < 16) (hrn : rn < 16) (hrm : rm < 16) :
    assemble a = .ok (BitVec.ofNat 32 (op.toNat <<< 26 ||| rd <<< 22 ||| rn <<< 18 ||| rm <<< 14)) ∧
      assemble a = .ok (encode a.toInstr) := by
  have hset := setAll_eq_orFields (l := layoutR)
    (fs := [(⟨"opcode", 26, 6⟩, op.toNat), (⟨"rd", 22, 4⟩, rd), (⟨"rn", 18, 4⟩, rn), (⟨"rm", 14, 4⟩, rm)])
    (bitsWithin_zero 32 32) (Nat.le_refl 32)
    ⟨rfl, Nat.le_refl 32, opcode_le_mask op, rfl, Nat.le_refl 26, Nat.le_pred_of_lt hrd, rfl, Nat.le_refl 22,
      Nat.le_pred_of_lt hrn, rfl, Nat.le_refl 18, Nat.le_pred_of_lt hrm, trivial⟩
  have hassemble := assemble_of_setAll hfields hset
  simp only [orFields, Nat.zero_or] at hassemble
  rw [hencode, encodeR_eq_ofNat, BitVec.toNat_ofNat, BitVec.toNat_ofNat, BitVec.toNat_ofNat, Nat.mod_eq_of_lt hrd,
    Nat.mod_eq_of_lt hrn, Nat.mod_eq_of_lt hrm]
  exact ⟨hassemble, hassemble⟩

theorem assemble_J (hfields : a.fields = .ok (layoutJ, [("opcode", (op.toNat : Int)), ("target", (target : Int))]))
    (hencode : encode a.toInstr = encodeJ op (BitVec.ofNat 26 target)) (htarget : target < 67108864) :
    assemble a = .ok (BitVec.ofNat 32 (op.toNat <<< 26 ||| target)) ∧ assemble a = .ok (encode a.toInstr) := by
  have hset := setAll_eq_orFields (l := layoutJ) (fs := [(⟨"opcode", 26, 6⟩, op.toNat), (⟨"target", 0, 26⟩, target)])
    (bitsWithin_zero 32 32) (Nat.le_refl 32)
    ⟨rfl, Nat.le_refl 32, opcode_le_mask op, rfl, Nat.le_refl 26, Nat.le_pred_of_lt htarget, trivial⟩
  have hassemble := assemble_of_setAll hfields hset
  simp only [orFields, Nat.zero_or, Nat.shiftLeft_zero] at hassemble
  rw [hencode, encodeJ_eq_ofNat, BitVec.toNat_ofNat, Nat.mod_eq_of_lt htarget]
  exact ⟨hassemble, hassemble⟩

/-! ### Operands out of range -/

/-- A register operand beyond 15 does not fit its four bits. -/
theorem register_outOfRange {r : Nat} (name : String) (start : Nat) (h : ¬ r < 16) :
    (r : Int) < 0 ∨ ((⟨name, start, 4⟩ : FieldDescriptor).mask : Int) < (r : Int) :=
  Or.inr (Int.ofNat_lt.2 (show 15 < r by omega))

theorem assemble_RI_error (hfields : a.fields = (Asm.fieldsRI op.toNat rd rn simm).map (layoutRI, ·))
    (hout : ¬ (rd < 16 ∧ rn < 16 ∧ Asm.simmOk simm = true)) : assemble a = .error .rangeError := by
  by_cases hsimm : Asm.simmOk simm = true
  · have hvalues : a.fields = .ok (layoutRI, [("opcode", (op.toNat : Int)), ("rd", (rd : Int)), ("rn", (rn : Int)),
        ("imm18", simm % 262144)]) := by
      rw [hfields, Asm.fieldsRI, Asm.imm18, if_pos hsimm]
      rfl
    refine assemble_error_of_setAll hvalues (setAll_error_of_outOfRange
      (by simp [layoutRI, WordLayout.find]) ?_)
    by_cases hrd : rd < 16
    · exact ⟨("rn", rn), by simp, ⟨"rn", 18, 4⟩, rfl, register_outOfRange _ _ fun hrn => hout ⟨hrd, hrn, hsimm⟩⟩
    · exact ⟨("rd", rd), by simp, ⟨"rd", 22, 4⟩, rfl, register_outOfRange _ _ hrd⟩
  · have hvalues : a.fields = .error .rangeError := by
      rw [hfields, Asm.fieldsRI, Asm.imm18, if_neg hsimm]
      rfl
    simp only [assemble, hvalues]

theorem assemble_R_error
    (hfields : a.fields =
      .ok (layoutR, [("opcode", (op.toNat : Int)), ("rd", (rd : Int)), ("rn", (rn : Int)), ("rm", (rm : Int))]))
    (hout : ¬ (rd < 16 ∧ rn < 16 ∧ rm < 16)) : assemble a = .error .rangeError := by
  refine assemble_error_of_setAll hfields (setAll_error_of_outOfRange (by simp [layoutR, WordLayout.find]) ?_)
  by_cases hrd : rd < 16
  · by_cases hrn : rn < 16
    · exact ⟨("rm", rm), by simp, ⟨"rm", 14, 4⟩, rfl, register_outOfRange _ _ fun hrm => hout ⟨hrd, hrn, hrm⟩⟩
    · exact ⟨("rn", rn), by simp, ⟨"rn", 18, 4⟩, rfl, register_outOfRange _ _ hrn⟩
  · exact ⟨("rd", rd), by simp, ⟨"rd", 22, 4⟩, rfl, register_outOfRange _ _ hrd⟩

theorem assemble_J_error (hfields : a.fields = .ok (layoutJ, [("opcode", (op.toNat : Int)), ("target", (target : Int))]))
    (hout : ¬ target < 67108864) : assemble a = .error .rangeError := by
  refine assemble_error_of_setAll hfields (setAll_error_of_outOfRange (by simp [layoutJ, WordLayout.find]) ?_)
  exact ⟨("target", target), by simp, ⟨"target", 0, 26⟩, rfl,
    Or.inr (Int.ofNat_lt.2 (show 67108863 < target by omega))⟩

end Formats

/-! ### The operand ranges -/

theorem wellFormed_RI_iff {rd rn : Nat} {simm : Int} :
    (Asm.regOk rd && Asm.regOk rn && Asm.simmOk simm) = true ↔ rd < 16 ∧ rn < 16 ∧ Asm.simmOk simm = true := by
  rw [Bool.and_eq_true, Bool.and_eq_true, decide_eq_true_eq, decide_eq_true_eq, and_assoc]

theorem wellFormed_R_iff {rd rn rm : Nat} :
    (Asm.regOk rd && Asm.regOk rn && Asm.regOk rm) = true ↔ rd < 16 ∧ rn < 16 ∧ rm < 16 := by
  rw [Bool.and_eq_true, Bool.and_eq_true, decide_eq_true_eq, decide_eq_true_eq, decide_eq_true_eq, and_assoc]

/-- Every line whose operands are not in range fails with `RangeError` (R120). -/
theorem assemble_error_of_not_wellFormed {a : Asm} (h : a.wellFormed = false) : assemble a = .error .rangeError := by
  rw [← Bool.not_eq_true] at h
  cases a with
  | nop => exact absurd rfl h
  | halt => exact absurd rfl h
  | ldr => exact assemble_RI_error (op := 1) rfl (mt wellFormed_RI_iff.2 h)
  | str => exact assemble_RI_error (op := 2) rfl (mt wellFormed_RI_iff.2 h)
  | addi => exact assemble_RI_error (op := 3) rfl (mt wellFormed_RI_iff.2 h)
  | add => exact assemble_R_error (op := 4) rfl (mt wellFormed_R_iff.2 h)
  | sub => exact assemble_R_error (op := 5) rfl (mt wellFormed_R_iff.2 h)
  | b => exact assemble_J_error (op := 6) rfl (mt decide_eq_true h)
  | beq => exact assemble_J_error (op := 7) rfl (mt decide_eq_true h)
  | bne => exact assemble_J_error (op := 8) rfl (mt decide_eq_true h)

/-- Settles O2: each format sets its fields from the top down, which or-s them together; a field too small for its operand
refuses. -/
theorem assembleBuildsTheWord : Obligations.AssembleBuildsTheWord := by
  refine ⟨fun a h => ?formulas, fun a => assemble_error_of_not_wellFormed, by decide⟩
  cases a with
  | nop => exact assemble_N (op := 0) rfl rfl
  | halt => exact assemble_N (op := 63) rfl rfl
  | ldr =>
    obtain ⟨hrd, hrn, hsimm⟩ := wellFormed_RI_iff.1 h
    exact assemble_RI (op := 1) rfl rfl hrd hrn hsimm
  | str =>
    obtain ⟨hrd, hrn, hsimm⟩ := wellFormed_RI_iff.1 h
    exact assemble_RI (op := 2) rfl rfl hrd hrn hsimm
  | addi =>
    obtain ⟨hrd, hrn, hsimm⟩ := wellFormed_RI_iff.1 h
    exact assemble_RI (op := 3) rfl rfl hrd hrn hsimm
  | add =>
    obtain ⟨hrd, hrn, hrm⟩ := wellFormed_R_iff.1 h
    exact assemble_R (op := 4) rfl rfl hrd hrn hrm
  | sub =>
    obtain ⟨hrd, hrn, hrm⟩ := wellFormed_R_iff.1 h
    exact assemble_R (op := 5) rfl rfl hrd hrn hrm
  | b => exact assemble_J (op := 6) rfl rfl (of_decide_eq_true h)
  | beq => exact assemble_J (op := 7) rfl rfl (of_decide_eq_true h)
  | bne => exact assemble_J (op := 8) rfl rfl (of_decide_eq_true h)

end Sys2Proof.Proofs.Assembler

/-! `add_field` and `derive_layout` keep the partition of the word into fields and unallocated ranges (spec/30_encoding.md R101 to
R103, R107 to R111). -/

namespace Sys2Proof.Proofs.Layouts

/-! ### Bits held by fields and ranges -/

/-- The test by which `holders` counts the unallocated ranges. -/
def rangeHolds (b : Nat) (r : Nat × Nat) : Bool := decide (r.1 ≤ b) && decide (b < r.2)

/-- The test by which `holders` counts the fields. -/
def fieldHolds (b : Nat) (f : FieldDescriptor) : Bool := decide (f.startBit ≤ b) && decide (b < f.stopBit)

theorem rangeHolds_iff {b : Nat} {r : Nat × Nat} : rangeHolds b r = true ↔ r.1 ≤ b ∧ b < r.2 := by simp [rangeHolds]

theorem fieldHolds_iff {b : Nat} {f : FieldDescriptor} : fieldHolds b f = true ↔ f.startBit ≤ b ∧ b < f.stopBit := by
  simp [fieldHolds]

theorem holders_eq (l : WordLayout) (b : Nat) :
    l.holders b = l.fields.countP (fieldHolds b) + l.free.countP (rangeHolds b) := rfl

theorem meets_iff {f : FieldDescriptor} {lo hi : Nat} :
    f.meets lo hi = true ↔ ∃ b, lo ≤ b ∧ b < hi ∧ f.startBit ≤ b ∧ b < f.stopBit := by
  rw [FieldDescriptor.meets, decide_eq_true_eq]
  constructor
  · intro h
    exact ⟨max f.startBit lo, by omega⟩
  · rintro ⟨b, h⟩
    omega

/-- No field lies beyond the word. -/
theorem countP_fieldHolds_of_size_le {l : WordLayout} (h : ∀ f ∈ l.fields, f.stopBit ≤ l.size) {b : Nat} (hb : l.size ≤ b) :
    l.fields.countP (fieldHolds b) = 0 := by
  refine List.countP_eq_zero.2 fun f hf => ?_
  have := h f hf
  rw [fieldHolds_iff]
  omega

/-- No unallocated range lies beyond the word. -/
theorem countP_rangeHolds_of_size_le {l : WordLayout} (h : ∀ r ∈ l.free, r.2 ≤ l.size) {b : Nat} (hb : l.size ≤ b) :
    l.free.countP (rangeHolds b) = 0 := by
  refine List.countP_eq_zero.2 fun r hr => ?_
  have := h r hr
  rw [rangeHolds_iff]
  omega

/-! ### Carving a range -/

section Carve

variable {lo hi b : Nat}

theorem length_carveRange_le (lo hi : Nat) (r : Nat × Nat) : (carveRange lo hi r).length ≤ 2 :=
  List.length_filter_le _ _

/-- What is left of a range lies inside it. -/
theorem carveRange_snd_le {r q : Nat × Nat} (h : q ∈ carveRange lo hi r) : q.2 ≤ r.2 := by
  simp only [carveRange, List.mem_filter, List.mem_cons, List.not_mem_nil, or_false] at h
  obtain ⟨rfl | rfl, -⟩ := h
  · exact Nat.min_le_left _ _
  · exact Nat.le_refl _

/-- A bit of the range stays in exactly one of its pieces, unless it is carved out. -/
theorem countP_carveRange (hle : lo ≤ hi) (r : Nat × Nat) :
    (carveRange lo hi r).countP (rangeHolds b) = if lo ≤ b ∧ b < hi then 0 else if rangeHolds b r then 1 else 0 := by
  rw [carveRange, List.countP_filter]
  simp only [List.countP_cons, List.countP_nil, Bool.and_eq_true, decide_eq_true_eq, rangeHolds_iff]
  split_ifs <;> omega

theorem countP_flatMap_carveRange (hle : lo ≤ hi) (free : List (Nat × Nat)) :
    (free.flatMap (carveRange lo hi)).countP (rangeHolds b) =
      if lo ≤ b ∧ b < hi then 0 else free.countP (rangeHolds b) := by
  induction free with
  | nil => simp
  | cons r free ih =>
    rw [List.flatMap_cons, List.countP_append, countP_carveRange hle, ih, List.countP_cons]
    split_ifs <;> omega

/-- The ranges after carving hold the bits they held, without those carved out. -/
theorem exists_flatMap_carveRange_iff (hle : lo ≤ hi) (free : List (Nat × Nat)) :
    (∃ r ∈ free.flatMap (carveRange lo hi), r.1 ≤ b ∧ b < r.2) ↔
      (∃ r ∈ free, r.1 ≤ b ∧ b < r.2) ∧ ¬ (lo ≤ b ∧ b < hi) := by
  simp only [← rangeHolds_iff, ← List.countP_pos_iff, countP_flatMap_carveRange hle]
  split_ifs with h <;> simp [h]

end Carve

/-! ### `add_field` -/

section AddField

variable {l : WordLayout} {name : String} {start width : Nat}

/-- The causes for which `add_field` fails at a start that is a bit number (R102). -/
def AddFieldBlocked (l : WordLayout) (name : String) (start width : Nat) : Prop :=
  l.size < start + width ∨
    (∃ f ∈ l.fields, ∃ b, start ≤ b ∧ b < start + width ∧ f.startBit ≤ b ∧ b < f.stopBit) ∨ ∃ f ∈ l.fields, f.name = name

/-- The layout `add_field` answers. -/
def withField (l : WordLayout) (name : String) (start width : Nat) : WordLayout :=
  { l with
    fields := l.fields ++ [{ name := name, startBit := start, widthBits := width }]
    free := l.free.flatMap (carveRange start (start + width)) }

theorem any_meets_or_name_iff :
    l.fields.any (fun f => f.meets start (start + width) || f.name == name) = true ↔
      (∃ f ∈ l.fields, ∃ b, start ≤ b ∧ b < start + width ∧ f.startBit ≤ b ∧ b < f.stopBit) ∨
        ∃ f ∈ l.fields, f.name = name := by
  simp only [List.any_eq_true, Bool.or_eq_true, meets_iff, beq_iff_eq, and_or_left, exists_or]

theorem addField_of_blocked (h : AddFieldBlocked l name start width) :
    l.addField name start width = .error .layoutError := by
  rcases h with hsize | hfields
  · rw [WordLayout.addField, if_pos (by omega)]
  · rw [WordLayout.addField, Int.toNat_natCast, if_pos (any_meets_or_name_iff.2 hfields), ite_self]

theorem addField_of_not_blocked (h : ¬ AddFieldBlocked l name start width) :
    l.addField name start width = .ok (withField l name start width) := by
  obtain ⟨hsize, hfields⟩ := not_or.1 h
  rw [WordLayout.addField, Int.toNat_natCast, if_neg (by omega), if_neg (mt any_meets_or_name_iff.1 hfields)]
  rfl

/-- The fields and ranges still partition the word: a bit of the new field was in a range and is carved out of it. -/
theorem holders_withField (hwf : l.wf) (h : ¬ AddFieldBlocked l name start width) {b : Nat} (hb : b < l.size) :
    (withField l name start width).holders b = 1 := by
  obtain ⟨-, -, -, hpartition⟩ := hwf
  have hone := hpartition b hb
  rw [holders_eq] at hone
  rw [holders_eq, withField, List.countP_append, countP_flatMap_carveRange (Nat.le_add_right _ _), List.countP_singleton]
  by_cases hin : start ≤ b ∧ b < start + width
  · have hnone : l.fields.countP (fieldHolds b) = 0 := List.countP_eq_zero.2 fun f hf hholds =>
      h (Or.inr (Or.inl ⟨f, hf, b, hin.1, hin.2, fieldHolds_iff.1 hholds⟩))
    rw [hnone, if_pos (fieldHolds_iff.2 hin), if_pos hin]
  · rw [if_neg (mt fieldHolds_iff.1 hin), if_neg hin, Nat.add_zero, hone]

theorem wf_withField (hwf : l.wf) (h : ¬ AddFieldBlocked l name start width) : (withField l name start width).wf := by
  refine ⟨?names, ?fields, ?free, fun b hb => holders_withField hwf h hb⟩
  all_goals obtain ⟨hnames, hstops, hfree, -⟩ := hwf
  case names =>
    rw [withField, List.map_append, List.nodup_append]
    refine ⟨hnames, List.nodup_singleton _, fun n hn m hm heq => ?_⟩
    obtain ⟨f, hf, rfl⟩ := List.mem_map.1 hn
    rw [List.map_singleton, List.mem_singleton] at hm
    exact h (Or.inr (Or.inr ⟨f, hf, heq.trans hm⟩))
  case fields =>
    intro f hf
    rcases List.mem_append.1 hf with hf | hf
    · exact hstops f hf
    · rw [List.mem_singleton.1 hf]
      exact Nat.le_of_not_lt fun hsize => h (Or.inl hsize)
  case free =>
    intro q hq
    obtain ⟨r, hr, hqr⟩ := List.mem_flatMap.1 hq
    exact (carveRange_snd_le hqr).trans (hfree r hr)

end AddField

/-- The causes of a failure as the statement lists them, at a start that is a bit number. -/
theorem addFieldBlocked_iff {l : WordLayout} {name : String} {start width : Nat} :
    AddFieldBlocked l name start width ↔
      ((start : Int) < 0 ∨ (l.size : Int) < (start : Int) + width ∨
        (∃ f ∈ l.fields, ∃ b : Nat, (start : Int) ≤ (b : Int) ∧ (b : Int) < (start : Int) + width ∧
          f.startBit ≤ b ∧ b < f.stopBit) ∨
        ∃ f ∈ l.fields, f.name = name) := by
  have hneg : ¬ (start : Int) < 0 := by omega
  simp only [AddFieldBlocked, hneg, false_or, ← Int.natCast_add, Int.ofNat_lt, Int.ofNat_le]

/-- Settles O9: at a negative start nothing else matters; at a bit number the outcome is decided by `AddFieldBlocked`. The
constant layouts are closed values. -/
theorem addFieldPartitions : Obligations.AddFieldPartitions := by
  refine ⟨fun l hwf name start width => ?general, by decide, by decide, by decide, by decide, by decide, by decide,
    rfl, rfl, rfl, rfl, rfl, rfl⟩
  rcases Int.lt_or_le start 0 with hneg | hnonneg
  · refine ⟨fun _ => ?_, fun h => absurd (Or.inl hneg) h⟩
    rw [WordLayout.addField, if_pos (Or.inl hneg)]
  · obtain ⟨n, rfl⟩ := Int.eq_ofNat_of_zero_le hnonneg
    rw [← addFieldBlocked_iff]
    refine ⟨addField_of_blocked, fun h => ⟨_, addField_of_not_blocked h, wf_withField hwf h, rfl, rfl, fun b => ?_, rfl,
      length_carveRange_le _ _⟩⟩
    have hcarved := exists_flatMap_carveRange_iff (b := b) (Nat.le_add_right n width) l.free
    simp only [← Int.natCast_add, Int.ofNat_lt, Int.ofNat_le]
    exact hcarved

/-! ### `derive_layout` -/

section Derive

variable {l : WordLayout} {name : String} {w : Nat}

theorem derive_of_cut (h : ∃ f ∈ l.fields, w < f.stopBit) : l.derive name (some w) = .error .layoutError := by
  have hany : l.fields.any (fun f => decide (w < f.stopBit)) = true := by simpa using h
  simp only [WordLayout.derive, if_pos hany]

/-- The copy `derive_layout` answers when it widens the word. -/
def widened (l : WordLayout) (name : String) (w : Nat) : WordLayout :=
  { l with name := name, size := w, free := l.free ++ [(l.size, w)] }

/-- The copy `derive_layout` answers when it narrows the word, or keeps its width. -/
def narrowed (l : WordLayout) (name : String) (w : Nat) : WordLayout :=
  { l with
    name := name
    size := w
    free := (l.free.map (fun r => (r.1, min r.2 w))).filter (fun q => q.1 < q.2) }

theorem derive_of_fits (h : ∀ f ∈ l.fields, f.stopBit ≤ w) :
    l.derive name (some w) = .ok (if l.size < w then widened l name w else narrowed l name w) := by
  have hany : ¬ l.fields.any (fun f => decide (w < f.stopBit)) = true := by simpa using h
  rw [WordLayout.derive, if_neg hany]
  split_ifs <;> rfl

/-- The new bits are the new range's. -/
theorem wf_widened (hwf : l.wf) (hw : l.size < w) : (widened l name w).wf := by
  obtain ⟨hnames, hstops, hfree, hpartition⟩ := hwf
  refine ⟨hnames, fun f hf => (hstops f hf).trans hw.le, fun r hr => ?_, fun b hb => ?_⟩
  · rcases List.mem_append.1 hr with hr | hr
    · exact (hfree r hr).trans hw.le
    · rw [List.mem_singleton.1 hr]
      exact Nat.le_refl w
  · have hb : b < w := hb
    rw [holders_eq, widened, List.countP_append, List.countP_singleton, ← Nat.add_assoc]
    rcases Nat.lt_or_ge b l.size with hold | hnew
    · rw [if_neg (by rw [rangeHolds_iff]; omega)]
      exact hpartition b hold
    · rw [countP_fieldHolds_of_size_le hstops hnew, countP_rangeHolds_of_size_le hfree hnew,
        if_pos (rangeHolds_iff.2 ⟨hnew, hb⟩)]

/-- Cutting a range at the new width keeps the bits below it. -/
theorem countP_cut {b : Nat} (hb : b < w) (free : List (Nat × Nat)) :
    ((free.map (fun r => (r.1, min r.2 w))).filter (fun q => q.1 < q.2)).countP (rangeHolds b) =
      free.countP (rangeHolds b) := by
  rw [List.countP_filter, List.countP_map]
  refine List.countP_congr fun r _ => ?_
  simp only [Function.comp_apply, Bool.and_eq_true, decide_eq_true_eq, rangeHolds_iff]
  omega

theorem wf_narrowed (hwf : l.wf) (hfits : ∀ f ∈ l.fields, f.stopBit ≤ w) (hw : w ≤ l.size) : (narrowed l name w).wf := by
  obtain ⟨hnames, -, -, hpartition⟩ := hwf
  refine ⟨hnames, hfits, fun q hq => ?_, fun b hb => ?_⟩
  · obtain ⟨r, -, rfl⟩ := List.mem_map.1 (List.mem_filter.1 hq).1
    exact Nat.min_le_right _ _
  · have hb : b < w := hb
    rw [holders_eq, narrowed, countP_cut hb]
    exact hpartition b (hb.trans_le hw)

end Derive

/-- Settles O10: with a width that cuts no field the copy is the widened or the narrowed layout. -/
theorem deriveKeepsPartition : Obligations.DeriveKeepsPartition := by
  refine fun l hwf name => ⟨rfl, fun w => ⟨derive_of_cut, fun hfits => ?_⟩⟩
  by_cases hw : l.size < w
  · exact ⟨widened l name w, by rw [derive_of_fits hfits, if_pos hw], wf_widened hwf hw, rfl, rfl, rfl⟩
  · exact ⟨narrowed l name w, by rw [derive_of_fits hfits, if_neg hw], wf_narrowed hwf hfits (Nat.le_of_not_lt hw),
      rfl, rfl, rfl⟩

end Sys2Proof.Proofs.Layouts

/-! The cache under an access: an install and a store keep the memory invariant, an install changes no view, a store changes one
(spec/20_memory.md R57 to R70, R76). -/

namespace Sys2Proof.Proofs.Cache

open Sys2Proof.Machine Sys2Proof.Laws Sys2Proof.Proofs.MemoryAccess

/-! ### The way that holds an address -/

/-- Way `w` of the address's set holds the line of the address. -/
def Holds (m : MemSys) (p : Params) (b w : Nat) : Prop :=
  w < p.nways ∧ ((m.cacheSet (indexOf p b)).line w).valid = true ∧ ((m.cacheSet (indexOf p b)).line w).tag = tagOf p b

section Holds

variable {m n : MemSys} {p : Params} {b w u : Nat}

theorem hitWay_eq_some_iff (hl : p.legal) (hI : m.Inv p) (he : m.cacheEnabled = true) :
    (m.cacheSet (indexOf p b)).hitWay (tagOf p b) = some w ↔ Holds m p b w := by
  have hset := cacheSet_inv hI he (indexOf_lt hl b)
  constructor
  · intro h
    obtain ⟨hw, hv, ht⟩ := hitWay_some h
    exact ⟨hset.1 ▸ hw, hv, ht⟩
  · rintro ⟨hw, hv, ht⟩
    rw [← ht]
    exact hitWay_own_tag hset hw hv

theorem hitWay_eq_none_iff (hl : p.legal) (hI : m.Inv p) (he : m.cacheEnabled = true) :
    (m.cacheSet (indexOf p b)).hitWay (tagOf p b) = none ↔ ∀ w, ¬ Holds m p b w := by
  simp only [Option.eq_none_iff_forall_ne_some, ne_eq, hitWay_eq_some_iff hl hI he]

/-- At most one way holds an address (R68). -/
theorem holds_unique (hl : p.legal) (hI : m.Inv p) (he : m.cacheEnabled = true) (hw : Holds m p b w)
    (hu : Holds m p b u) : w = u := by
  have hsome := (hitWay_eq_some_iff hl hI he).2 hw
  exact Option.some.inj (hsome.symm.trans ((hitWay_eq_some_iff hl hI he).2 hu))

theorem view_of_holds (hl : p.legal) (hI : m.Inv p) (he : m.cacheEnabled = true) (h : Holds m p b w) :
    m.view p b = m.lineWord (indexOf p b) w (offsetOf p b) := by
  simp only [MemSys.view, he, if_true, (hitWay_eq_some_iff hl hI he).2 h]

theorem view_of_not_holds (hl : p.legal) (hI : m.Inv p) (he : m.cacheEnabled = true) (h : ∀ w, ¬ Holds m p b w) :
    m.view p b = m.ram.read b :=
  view_of_miss he ((hitWay_eq_none_iff hl hI he).2 h)

theorem view_of_disabled (he : m.cacheEnabled = false) (p : Params) (b : Nat) : m.view p b = m.ram.read b := by
  simp [MemSys.view, he]

/-- Whether a way holds an address depends on the address's set alone. -/
theorem holds_congr (h : n.cacheSet (indexOf p b) = m.cacheSet (indexOf p b)) : Holds n p b w ↔ Holds m p b w := by
  rw [Holds, Holds, h]

theorem lineWord_congr {i off : Nat} (h : (n.cacheSet i).line w = (m.cacheSet i).line w) :
    n.lineWord i w off = m.lineWord i w off := by
  rw [MemSys.lineWord, MemSys.lineWord, h]

/-- Two memories read the same at an address that the same set and the same Word of RAM stand behind. -/
theorem view_congr (he : n.cacheEnabled = m.cacheEnabled)
    (hset : n.cacheSet (indexOf p b) = m.cacheSet (indexOf p b)) (hram : n.ram.read b = m.ram.read b) :
    n.view p b = m.view p b := by
  simp only [MemSys.view, MemSys.lineWord, he, hset, hram]

/-- A clean line reads as RAM. -/
theorem lineWord_of_clean (hl : p.legal) (hI : m.Inv p) (he : m.cacheEnabled = true) (h : Holds m p b w)
    (hclean : ((m.cacheSet (indexOf p b)).line w).dirty = false) :
    m.lineWord (indexOf p b) w (offsetOf p b) = m.ram.read b := by
  obtain ⟨hw, hv, ht⟩ := h
  obtain ⟨-, -, -, hlines, -⟩ := cacheSet_inv_iff.1 (cacheSet_inv hI he (indexOf_lt hl b))
  obtain ⟨-, -, -, hdata⟩ := hlines w hw
  rw [MemSys.lineWord, hdata hv hclean, ht, getD_readAll _ (offsetOf_lt hl b), lineAddr_add_offset]

end Holds

/-! ### Addresses of a line -/

/-- An address of a line has the line's index and tag. -/
theorem index_tag_of_mem_line {p : Params} {t s b : Nat} (hs : s < p.nsets) (hlo : lineAddr p t s ≤ b)
    (hhi : b < lineAddr p t s + p.lineWords) : indexOf p b = s ∧ tagOf p b = t := by
  obtain ⟨k, rfl⟩ := Nat.exists_eq_add_of_le hlo
  obtain ⟨-, hindex, htag⟩ := decompose_lineAddr p (t := t) hs (Nat.lt_of_add_lt_add_left hhi)
  exact ⟨hindex, htag⟩

/-- Addresses with the same index, tag and offset are the same. -/
theorem address_ext {p : Params} {a b : Nat} (hi : indexOf p b = indexOf p a) (ht : tagOf p b = tagOf p a)
    (ho : offsetOf p b = offsetOf p a) : b = a := by
  rw [← lineAddr_add_offset p b, hi, ht, ho, lineAddr_add_offset]

/-! ### Keeping the invariant -/

section Invariant

variable {m n : MemSys} {p : Params}

/-- One set replaced by a sound one. -/
theorem inv_setSet (hI : m.Inv p) {s : Nat} {c : CacheSet} (hc : c.Inv p m.ram s) : (m.setSet s c).Inv p := by
  obtain ⟨hwf, hrange, hlen, hsets, hlog⟩ := hI
  refine ⟨hwf, hrange, by rw [length_setSet]; exact hlen, fun j hj => ?_, hlog⟩
  rw [length_setSet] at hj
  by_cases hjs : j = s
  · subst hjs
    rw [cacheSet_setSet_same m c hj]
    exact hc
  · rw [cacheSet_setSet_ne m c hjs]
    exact hsets j hj

/-- RAM and the log changed, no clean line's Words among what changed. -/
theorem inv_of_sets_eq (hI : m.Inv p) (hsets : n.sets = m.sets) (he : n.cacheEnabled = m.cacheEnabled) (hwf : n.ram.wf)
    (hrange : ∀ c ∈ n.ram, c.1 < p.ramCapacity) (hlog : ∀ e ∈ n.evictions, e.2.length = p.lineWords)
    (hclean : ∀ s < m.sets.length, ∀ l ∈ (m.cacheSet s).lines, l.valid = true → l.dirty = false →
      ∀ k < p.lineWords, n.ram.read (lineAddr p l.tag s + k) = m.ram.read (lineAddr p l.tag s + k)) : n.Inv p := by
  obtain ⟨-, -, hlen, hinv, -⟩ := hI
  refine ⟨hwf, hrange, by rw [hsets, he]; exact hlen, fun s hs => ?_, hlog⟩
  rw [hsets] at hs
  rw [cacheSet_congr hsets]
  exact cacheSet_inv_of_ram (hinv s hs) (hclean s hs)

end Invariant

/-! ### Evicting the victim -/

section Evict

variable {m : MemSys} {p : Params} {s w : Nat}

/-- An eviction changes RAM only in the line of a valid dirty victim. -/
theorem evict_ram_of_outside (hI : m.Inv p) (he : m.cacheEnabled = true) (hs : s < p.nsets) (hw : w < p.nways) {b : Nat}
    (h : ¬ (((m.cacheSet s).line w).valid = true ∧ ((m.cacheSet s).line w).dirty = true ∧ indexOf p b = s ∧
      tagOf p b = ((m.cacheSet s).line w).tag)) :
    (m.evict p s ((m.cacheSet s).line w)).ram.read b = m.ram.read b := by
  obtain ⟨-, hout, -⟩ := evict_spec hI he hs hw
  refine hout b ?_
  by_contra hc
  simp only [not_or, Bool.not_eq_false, Bool.and_eq_true, not_lt, not_le] at hc
  obtain ⟨⟨hv, hd⟩, hlo, hhi⟩ := hc
  exact h ⟨hv, hd, index_tag_of_mem_line hs hlo hhi⟩

/-- After an eviction RAM holds the victim's Words, whether it was dirty or clean. -/
theorem evict_ram_of_holds (hl : p.legal) (hI : m.Inv p) (he : m.cacheEnabled = true) {b : Nat} (h : Holds m p b w) :
    (m.evict p (indexOf p b) ((m.cacheSet (indexOf p b)).line w)).ram.read b =
      m.lineWord (indexOf p b) w (offsetOf p b) := by
  have hs := indexOf_lt hl b
  obtain ⟨hw, hv, ht⟩ := id h
  cases hd : ((m.cacheSet (indexOf p b)).line w).dirty with
  | false =>
    rw [evict_ram_of_outside hI he hs hw (by simp [hd]), lineWord_of_clean hl hI he h hd]
  | true =>
    obtain ⟨hin, -⟩ := evict_spec hI he hs hw
    have hread := hin (by simp [hv, hd]) _ (offsetOf_lt hl b)
    rw [ht, lineAddr_add_offset] at hread
    exact hread

theorem evict_inv (hI : m.Inv p) (he : m.cacheEnabled = true) (hs : s < p.nsets) (hw : w < p.nways) :
    (m.evict p s ((m.cacheSet s).line w)).Inv p := by
  obtain ⟨-, -, hlog, hwf, hrange⟩ := evict_spec hI he hs hw
  refine inv_of_sets_eq hI (evict_sets m p s _) (evict_cacheEnabled m p s _) hwf hrange (fun e hmem => ?log)
    (fun s' hs' l hl hv hd k hk => ?clean)
  case log =>
    obtain ⟨-, -, -, hlines, -⟩ := cacheSet_inv_iff.1 (cacheSet_inv hI he hs)
    obtain ⟨-, -, -, -, hlengths⟩ := hI
    rw [hlog, List.mem_append] at hmem
    rcases hmem with hold | hnew
    · exact hlengths e hold
    · split_ifs at hnew
      · rw [List.mem_singleton.1 hnew]
        exact (hlines w hw).1
      · simp at hnew
  case clean =>
    rw [sets_length hI he] at hs'
    have hset := cacheSet_inv hI he hs'
    obtain ⟨u, hu, rfl⟩ := exists_way hset hl
    refine evict_ram_of_outside hI he hs hw fun ⟨hv', hd', hindex, htag⟩ => ?_
    obtain ⟨-, hindex', htag'⟩ := decompose_lineAddr p (t := ((m.cacheSet s').line u).tag) hs' hk
    obtain rfl : s' = s := hindex'.symm.trans hindex
    obtain ⟨-, -, -, -, hunique⟩ := cacheSet_inv_iff.1 hset
    rw [hunique u hu w hw hv hv' (htag'.symm.trans htag), hd'] at hd
    exact absurd hd (by decide)

end Evict

/-! ### Installing a line -/

/-- A way given a valid line that holds what RAM holds under a new tag, and touched. -/
theorem setLine_touch_inv {p : Params} {ram : Memory} {s w : Nat} {c : CacheSet} {l : Line} (h : c.Inv p ram s)
    (hw : w < p.nways) (hv : l.valid = true) (hin : lineAddr p l.tag s + p.lineWords ≤ p.ramCapacity)
    (hdata : l.data = ram.readAll (lineAddr p l.tag s) p.lineWords)
    (hnew : ∀ u < p.nways, (c.line u).valid = true → (c.line u).tag ≠ l.tag) :
    ((c.setLine w l).touch w).Inv p ram s := by
  rw [cacheSet_inv_iff] at h ⊢
  obtain ⟨hlen, hperm, hpair, hlines, hunique⟩ := h
  have hline (u : Nat) : ((c.setLine w l).touch w).line u = if u = w then l else c.line u :=
    line_setLine c l (by omega)
  refine ⟨by simpa using hlen, touch_perm hperm hw, ?order, fun u hu => ?lines, fun i hi j hj => ?unique⟩
  case order =>
    have hrest : ((c.order.filter (· != w)).map fun u => (c.line u).valid).Pairwise (fun a b => a = true → b = true) :=
      hpair.sublist (List.filter_sublist.map _)
    rw [touch_order, setLine_order, List.map_append, List.pairwise_append]
    refine ⟨pairwise_map_congr hrest fun u hu => ?_, List.pairwise_singleton _ _, fun _ _ b hb _ => ?_⟩
    · have hne : u ≠ w := by simpa using (List.mem_filter.1 hu).2
      rw [hline, if_neg hne]
    · rw [List.map_singleton, List.mem_singleton, hline, if_pos rfl] at hb
      rw [hb, hv]
  case lines =>
    rw [hline]
    split_ifs with huw
    · exact ⟨by rw [hdata, length_readAll], fun _ => hv, fun _ => hin, fun _ _ => hdata⟩
    · exact hlines u hu
  case unique =>
    rw [hline, hline]
    split_ifs with hiw hjw hjw
    · exact fun _ _ _ => hiw.trans hjw.symm
    · exact fun _ hvj ht => absurd ht.symm (hnew j hj hvj)
    · exact fun hvi _ ht => absurd ht (hnew i hi hvi)
    · exact hunique i hi j hj

section Install

variable {m : MemSys} {p : Params} {a : Nat}

theorem install_inv (hl : p.legal) (hI : m.Inv p) (he : m.cacheEnabled = true) (ha : a < p.ramCapacity)
    (hmiss : ∀ w, ¬ Holds m p a w) : (m.install p a).1.Inv p := by
  have hs := indexOf_lt hl a
  obtain ⟨-, hw⟩ := victim_spec hl (cacheSet_inv hI he hs)
  have hIe := evict_inv hI he hs hw
  have hset := cacheSet_inv hIe (by rw [evict_cacheEnabled, he]) hs
  rw [cacheSet_congr (evict_sets m p _ _)] at hset
  have hbase : lineAddr p (tagOf p a) (indexOf p a) = baseOf p a := lineAddr_tag_index p a
  refine inv_setSet hIe (setLine_touch_inv hset hw rfl ?_ ?_ fun u hu hv ht => hmiss u ⟨hu, hv, ht⟩)
  · rw [fill_tag, hbase]
    exact line_in_ram hl ha
  · rw [fill_tag, fill_data, hbase]

/-- An install changes what no address reads as: the Words it evicts are RAM's now, those it loads were RAM's before. -/
theorem install_view (hl : p.legal) (hI : m.Inv p) (he : m.cacheEnabled = true) (ha : a < p.ramCapacity)
    (hmiss : ∀ w, ¬ Holds m p a w) (b : Nat) : (m.install p a).1.view p b = m.view p b := by
  have hIn := install_inv hl hI he ha hmiss
  have hs := indexOf_lt hl a
  obtain ⟨hvictim, hw, hen, -, hsets, -, -, hfilled, hlines, hram, -⟩ := install_spec hl hI he a
  generalize (m.install p a).1 = n at *
  generalize (m.install p a).2 = w at *
  -- An address that no way holds is in no line, so the eviction has not changed RAM there.
  have hramOut (hout : ∀ u, ¬ Holds m p b u) : n.ram.read b = m.ram.read b := by
    rw [hram]
    refine evict_ram_of_outside hI he hs hw fun ⟨hv, _, hindex, htag⟩ => hout w ?_
    rw [Holds, hindex]
    exact ⟨hw, hv, htag.symm⟩
  by_cases hi : indexOf p b = indexOf p a
  · by_cases ht : tagOf p b = tagOf p a
    · -- An address of the line loaded: nothing held it before, the filled line holds it now.
      have hbefore : ∀ u, ¬ Holds m p b u := fun u hu => hmiss u (by rwa [Holds, hi, ht] at hu)
      have hafter : Holds n p b w := by
        rw [Holds, hi, hfilled, ht]
        exact ⟨hw, rfl, rfl⟩
      have hb : baseOf p a + offsetOf p b = b := by
        rw [← lineAddr_tag_index, ← hi, ← ht, lineAddr_add_offset]
      rw [view_of_holds hl hIn hen hafter, view_of_not_holds hl hI he hbefore, MemSys.lineWord, hi, hfilled,
        getD_readAll _ (offsetOf_lt hl b), hb, hramOut hbefore]
    · -- Another line of the same set: way `u` holds it before exactly if it does after, unless `u` is the victim's way.
      have hnotw : ¬ Holds n p b w := fun hh => by
        rw [Holds, hi, hfilled] at hh
        exact ht hh.2.2.symm
      have hother {u : Nat} (hu : u ≠ w) : Holds n p b u ↔ Holds m p b u := by
        rw [Holds, Holds, hi, hlines u hu]
      by_cases hheld : ∃ u, Holds m p b u
      · obtain ⟨u, hu⟩ := hheld
        rw [view_of_holds hl hI he hu]
        by_cases huw : u = w
        · have hafter : ∀ u', ¬ Holds n p b u' := fun u' hu' => by
            by_cases hw' : u' = w
            · exact hnotw (hw' ▸ hu')
            · exact hw' ((holds_unique hl hI he ((hother hw').1 hu') hu).trans huw)
          rw [view_of_not_holds hl hIn hen hafter, hram, ← hi, ← huw]
          exact evict_ram_of_holds hl hI he hu
        · rw [view_of_holds hl hIn hen ((hother huw).2 hu)]
          exact lineWord_congr (by rw [hi, hlines u huw])
      · have hbefore : ∀ u, ¬ Holds m p b u := fun u hu => hheld ⟨u, hu⟩
        have hafter : ∀ u, ¬ Holds n p b u := fun u hu => by
          by_cases huw : u = w
          · exact hnotw (huw ▸ hu)
          · exact hbefore u ((hother huw).1 hu)
        rw [view_of_not_holds hl hI he hbefore, view_of_not_holds hl hIn hen hafter, hramOut hbefore]
  · -- Another set: not touched, and the victim's line has no address in it.
    refine view_congr (hen.trans he.symm) (hsets _ hi) ?_
    rw [hram]
    exact evict_ram_of_outside hI he hs hw fun ⟨_, _, hindex, _⟩ => hi hindex

end Install

/-! ### The two accesses, hit and miss -/

section Equations

variable {m : MemSys} {p : Params} {a : Nat}

theorem cacheRead_of_hit {w : Nat} (he : m.cacheEnabled = true)
    (h : (m.cacheSet (indexOf p a)).hitWay (tagOf p a) = some w) :
    m.cacheRead p a =
      { word := m.lineWord (indexOf p a) w (offsetOf p a)
        latency := p.readLatency
        mem := m.setSet (indexOf p a) ((m.cacheSet (indexOf p a)).touch w) } := by
  simp only [MemSys.cacheRead, he, if_true, h]

theorem cacheRead_of_miss (he : m.cacheEnabled = true) (h : (m.cacheSet (indexOf p a)).hitWay (tagOf p a) = none) :
    m.cacheRead p a =
      { word := (m.install p a).1.lineWord (indexOf p a) (m.install p a).2 (offsetOf p a)
        latency := p.readLatency + p.missPenalty
        mem := (m.install p a).1 } := by
  simp only [MemSys.cacheRead, he, if_true, h]

/-- A write hit stores into what a read hit leaves. -/
theorem cacheWrite_of_hit {w : Nat} (he : m.cacheEnabled = true)
    (h : (m.cacheSet (indexOf p a)).hitWay (tagOf p a) = some w) (v : Word) :
    m.cacheWrite p a v =
      { latency := p.writeLatency
        mem := (m.setSet (indexOf p a) ((m.cacheSet (indexOf p a)).touch w)).storeLine (indexOf p a) w
          (offsetOf p a) v } := by
  simp only [MemSys.cacheWrite, he, if_true, h]

/-- A write miss stores into what a read miss leaves. -/
theorem cacheWrite_of_miss (he : m.cacheEnabled = true) (h : (m.cacheSet (indexOf p a)).hitWay (tagOf p a) = none)
    (v : Word) :
    m.cacheWrite p a v =
      { latency := p.writeLatency + p.missPenalty
        mem := ((m.install p a).1.storeLine (indexOf p a) (m.install p a).2 (offsetOf p a) v).writeMissUpdate p a v } := by
  simp only [MemSys.cacheWrite, he, if_true, h]

end Equations

/-! ### Touching the way hit -/

section Touch

variable {m : MemSys} {p : Params} {a w : Nat}

theorem index_lt_sets_length (hl : p.legal) (hI : m.Inv p) (he : m.cacheEnabled = true) (a : Nat) :
    indexOf p a < m.sets.length := by
  rw [sets_length hI he]
  exact indexOf_lt hl a

theorem setSet_touch_inv (hl : p.legal) (hI : m.Inv p) (he : m.cacheEnabled = true) (h : Holds m p a w) :
    (m.setSet (indexOf p a) ((m.cacheSet (indexOf p a)).touch w)).Inv p := by
  obtain ⟨hw, hv, -⟩ := h
  exact inv_setSet hI (touch_inv (cacheSet_inv hI he (indexOf_lt hl a)) hw hv)

/-- Touching a way changes no line. -/
theorem line_setSet_touch (m : MemSys) (i w j u : Nat) :
    ((m.setSet i ((m.cacheSet i).touch w)).cacheSet j).line u = (m.cacheSet j).line u := by
  by_cases hj : j = i
  · subst hj
    by_cases hs : j < m.sets.length
    · rw [cacheSet_setSet_same m _ hs, touch_line]
    · have hsets : (m.setSet j ((m.cacheSet j).touch w)).sets = m.sets := by
        rw [setSet_sets, List.set_eq_of_length_le (Nat.le_of_not_lt hs)]
      rw [cacheSet_congr hsets]
  · rw [cacheSet_setSet_ne m _ hj]

theorem setSet_touch_view (hl : p.legal) (hI : m.Inv p) (he : m.cacheEnabled = true) (w b : Nat) :
    (m.setSet (indexOf p a) ((m.cacheSet (indexOf p a)).touch w)).view p b = m.view p b := by
  have hs := index_lt_sets_length hl hI he a
  by_cases hi : indexOf p b = indexOf p a
  · simp only [MemSys.view, MemSys.lineWord, hi, cacheSet_setSet_same m _ hs, hitWay_touch, touch_line, setSet_ram,
      setSet_cacheEnabled]
  · exact view_congr rfl (cacheSet_setSet_ne m _ hi) rfl

end Touch

/-! ### Storing into the line that holds an address -/

section Store

variable {m : MemSys} {p : Params} {a w : Nat} {v : Word}

theorem line_storeLine (hl : p.legal) (hI : m.Inv p) (he : m.cacheEnabled = true) (hw : w < p.nways) (off : Nat) (u : Nat) :
    ((m.storeLine (indexOf p a) w off v).cacheSet (indexOf p a)).line u =
      if u = w then ((m.cacheSet (indexOf p a)).line w).store off v else (m.cacheSet (indexOf p a)).line u := by
  have hlen := (cacheSet_inv hI he (indexOf_lt hl a)).1
  rw [MemSys.storeLine, cacheSet_setSet_same m _ (index_lt_sets_length hl hI he a), line_setLine _ _ (by omega)]

theorem cacheSet_storeLine_ne {i j off : Nat} (h : j ≠ i) : (m.storeLine i w off v).cacheSet j = m.cacheSet j :=
  cacheSet_setSet_ne m _ h

theorem storeLine_inv (hl : p.legal) (hI : m.Inv p) (he : m.cacheEnabled = true) (h : Holds m p a w) (off : Nat) :
    (m.storeLine (indexOf p a) w off v).Inv p := by
  obtain ⟨hw, hv, -⟩ := h
  exact inv_setSet hI (store_inv (cacheSet_inv hI he (indexOf_lt hl a)) hw hv off v)

/-- A store moves no line: the same ways hold the same addresses. -/
theorem holds_storeLine (hl : p.legal) (hI : m.Inv p) (he : m.cacheEnabled = true) (hw : w < p.nways) (off b u : Nat) :
    Holds (m.storeLine (indexOf p a) w off v) p b u ↔ Holds m p b u := by
  by_cases hi : indexOf p b = indexOf p a
  · rw [Holds, Holds, hi, line_storeLine hl hI he hw]
    split_ifs with huw
    · rw [huw, store_valid, store_tag]
    · rfl
  · exact holds_congr (cacheSet_storeLine_ne hi)

theorem storeLine_view_same (hl : p.legal) (hI : m.Inv p) (he : m.cacheEnabled = true) (h : Holds m p a w) :
    (m.storeLine (indexOf p a) w (offsetOf p a) v).view p a = v := by
  obtain ⟨hw, -, -⟩ := id h
  obtain ⟨-, -, -, hlines, -⟩ := cacheSet_inv_iff.1 (cacheSet_inv hI he (indexOf_lt hl a))
  have hlen : offsetOf p a < ((m.cacheSet (indexOf p a)).line w).data.length := by
    rw [(hlines w hw).1]
    exact offsetOf_lt hl a
  rw [view_of_holds hl (storeLine_inv hl hI he h _) he ((holds_storeLine hl hI he hw _ a w).2 h), MemSys.lineWord,
    line_storeLine hl hI he hw, if_pos rfl, store_data]
  simp [List.getD, hlen]

theorem storeLine_view_ne (hl : p.legal) (hI : m.Inv p) (he : m.cacheEnabled = true) (h : Holds m p a w) {b : Nat}
    (hb : b ≠ a) : (m.storeLine (indexOf p a) w (offsetOf p a) v).view p b = m.view p b := by
  have hIs := storeLine_inv (v := v) hl hI he h (offsetOf p a)
  obtain ⟨hw, -, ht⟩ := id h
  by_cases hheld : ∃ u, Holds m p b u
  · obtain ⟨u, hu⟩ := hheld
    rw [view_of_holds hl hIs he ((holds_storeLine hl hI he hw _ b u).2 hu), view_of_holds hl hI he hu]
    by_cases hi : indexOf p b = indexOf p a
    · rw [MemSys.lineWord, hi, line_storeLine hl hI he hw]
      split_ifs with huw
      · -- The line stored into: the two addresses differ in their offset.
        obtain ⟨-, -, htb⟩ := hu
        rw [hi, huw, ht] at htb
        have hoff : offsetOf p a ≠ offsetOf p b := fun ho => hb (address_ext hi htb.symm ho.symm)
        rw [store_data, MemSys.lineWord, huw]
        simp [List.getD, List.getElem?_set_ne hoff]
      · rfl
    · exact lineWord_congr (by rw [cacheSet_storeLine_ne hi])
  · have hbefore : ∀ u, ¬ Holds m p b u := fun u hu => hheld ⟨u, hu⟩
    rw [view_of_not_holds hl hI he hbefore,
      view_of_not_holds hl hIs he fun u hu => hbefore u ((holds_storeLine hl hI he hw _ b u).1 hu)]
    rfl

/-- RAM written behind a dirty line: the invariant holds, and no view changes. -/
theorem ram_write_behind_dirty (hl : p.legal) (hI : m.Inv p) (he : m.cacheEnabled = true) (ha : a < p.ramCapacity)
    (h : Holds m p a w) (hd : ((m.cacheSet (indexOf p a)).line w).dirty = true) (v : Word) :
    ({ m with ram := m.ram.write a v } : MemSys).Inv p ∧
      ∀ b, ({ m with ram := m.ram.write a v } : MemSys).view p b = m.view p b := by
  obtain ⟨hwf, hrange, -, -, hlog⟩ := id hI
  have hIw : ({ m with ram := m.ram.write a v } : MemSys).Inv p := by
    refine inv_of_sets_eq hI rfl rfl (wf_write hwf a v) (range_write hrange ha) hlog fun s hs l hmem hv hclean k hk => ?_
    rw [sets_length hI he] at hs
    obtain ⟨u, hu, rfl⟩ := exists_way (cacheSet_inv hI he hs) hmem
    refine read_write_ne _ _ fun heq => ?_
    obtain ⟨-, hindex, htag⟩ := decompose_lineAddr p (t := ((m.cacheSet s).line u).tag) hs hk
    rw [heq] at hindex htag
    subst hindex
    rw [holds_unique hl hI he (u := w) ⟨hu, hv, htag.symm⟩ h, hd] at hclean
    exact absurd hclean (by decide)
  refine ⟨hIw, fun b => ?_⟩
  by_cases hb : b = a
  · subst hb
    have hview := view_of_holds hl hIw he h
    rw [hview, view_of_holds hl hI he h]
    rfl
  · exact view_congr rfl rfl (read_write_ne _ _ hb)

@[simp] theorem writeMissUpdate_sets (m : MemSys) (p : Params) (a : Nat) (v : Word) :
    (m.writeMissUpdate p a v).sets = m.sets := by
  rw [MemSys.writeMissUpdate]
  split_ifs <;> rfl

@[simp] theorem writeMissUpdate_cacheEnabled (m : MemSys) (p : Params) (a : Nat) (v : Word) :
    (m.writeMissUpdate p a v).cacheEnabled = m.cacheEnabled := by
  rw [MemSys.writeMissUpdate]
  split_ifs <;> rfl

@[simp] theorem writeMissUpdate_evictions (m : MemSys) (p : Params) (a : Nat) (v : Word) :
    (m.writeMissUpdate p a v).evictions = m.evictions := by
  rw [MemSys.writeMissUpdate]
  split_ifs <;> rfl

theorem writeMissUpdate_ram (m : MemSys) (p : Params) (a : Nat) (v : Word) :
    (m.writeMissUpdate p a v).ram = if p.writeMissRamUpdate then m.ram.write a v else m.ram := by
  rw [MemSys.writeMissUpdate]
  split_ifs <;> rfl

theorem writeMissUpdate_inv_view (hl : p.legal) (hI : m.Inv p) (he : m.cacheEnabled = true) (ha : a < p.ramCapacity)
    (h : Holds m p a w) (hd : ((m.cacheSet (indexOf p a)).line w).dirty = true) (v : Word) :
    (m.writeMissUpdate p a v).Inv p ∧ ∀ b, (m.writeMissUpdate p a v).view p b = m.view p b := by
  rw [MemSys.writeMissUpdate]
  split_ifs
  · exact ram_write_behind_dirty hl hI he ha h hd v
  · exact ⟨hI, fun _ => rfl⟩

end Store

/-! ### Reads -/

section Access

variable {m : MemSys} {p : Params} {a : Nat}

/-- An enabled cache after a read: sound, reading as before, with a way that holds the address and the Word answered in it. -/
theorem cacheRead_of_enabled (hl : p.legal) (hI : m.Inv p) (he : m.cacheEnabled = true) (ha : a < p.ramCapacity) :
    (m.cacheRead p a).mem.Inv p ∧ (m.cacheRead p a).mem.cacheEnabled = true ∧
      (∀ b, (m.cacheRead p a).mem.view p b = m.view p b) ∧ (m.cacheRead p a).word = m.view p a ∧
      ∃ w, Holds (m.cacheRead p a).mem p a w ∧
        ∀ v, (m.cacheWrite p a v).mem = (m.cacheRead p a).mem.storeLine (indexOf p a) w (offsetOf p a) v ∨
          (m.cacheWrite p a v).mem =
            ((m.cacheRead p a).mem.storeLine (indexOf p a) w (offsetOf p a) v).writeMissUpdate p a v := by
  cases hhit : (m.cacheSet (indexOf p a)).hitWay (tagOf p a) with
  | some w =>
    have hholds := (hitWay_eq_some_iff hl hI he).1 hhit
    rw [cacheRead_of_hit he hhit]
    refine ⟨setSet_touch_inv hl hI he hholds, he, setSet_touch_view hl hI he w, (view_of_holds hl hI he hholds).symm,
      w, ?_, fun v => Or.inl (by rw [cacheWrite_of_hit he hhit])⟩
    rw [Holds, line_setSet_touch]
    exact hholds
  | none =>
    have hmiss := (hitWay_eq_none_iff hl hI he).1 hhit
    have hIn := install_inv hl hI he ha hmiss
    have hview := install_view hl hI he ha hmiss
    obtain ⟨-, hw, hen, -, -, -, -, hfilled, -⟩ := install_spec hl hI he a
    have hholds : Holds (m.install p a).1 p a (m.install p a).2 := by
      rw [Holds, hfilled]
      exact ⟨hw, rfl, rfl⟩
    rw [cacheRead_of_miss he hhit]
    refine ⟨hIn, hen, hview, ?_, _, hholds, fun v => Or.inr (by rw [cacheWrite_of_miss he hhit])⟩
    rw [← hview a, view_of_holds hl hIn hen hholds]

theorem cacheRead_inv (hl : p.legal) (hI : m.Inv p) (ha : a < p.ramCapacity) : (m.cacheRead p a).mem.Inv p := by
  cases he : m.cacheEnabled with
  | false => rw [cacheRead_of_disabled he]; exact hI
  | true => exact (cacheRead_of_enabled hl hI he ha).1

theorem cacheRead_view (hl : p.legal) (hI : m.Inv p) (ha : a < p.ramCapacity) (b : Nat) :
    (m.cacheRead p a).mem.view p b = m.view p b := by
  cases he : m.cacheEnabled with
  | false => rw [cacheRead_of_disabled he]
  | true =>
    obtain ⟨-, -, hview, -⟩ := cacheRead_of_enabled hl hI he ha
    exact hview b

theorem cacheRead_word (hl : p.legal) (hI : m.Inv p) (ha : a < p.ramCapacity) : (m.cacheRead p a).word = m.view p a := by
  cases he : m.cacheEnabled with
  | false => rw [cacheRead_of_disabled he, view_of_disabled he]
  | true =>
    obtain ⟨-, -, -, hword, -⟩ := cacheRead_of_enabled hl hI he ha
    exact hword

/-! ### Writes -/

/-- An enabled cache after a write: sound, holding the address, with the Word in it and every other view as before. -/
theorem cacheWrite_of_enabled (hl : p.legal) (hI : m.Inv p) (he : m.cacheEnabled = true) (ha : a < p.ramCapacity) (v : Word) :
    (m.cacheWrite p a v).mem.Inv p ∧ (m.cacheWrite p a v).mem.cacheEnabled = true ∧
      (m.cacheWrite p a v).mem.view p a = v ∧
      (∀ b, b ≠ a → (m.cacheWrite p a v).mem.view p b = m.view p b) ∧ ∃ w, Holds (m.cacheWrite p a v).mem p a w := by
  obtain ⟨hIr, her, hview, -, w, hholds, hwrite⟩ := cacheRead_of_enabled hl hI he ha
  obtain ⟨hw, -⟩ := id hholds
  have hIs := storeLine_inv (v := v) hl hIr her hholds (offsetOf p a)
  have hsame := storeLine_view_same (v := v) hl hIr her hholds
  have hne (b : Nat) (hb : b ≠ a) := (storeLine_view_ne (v := v) hl hIr her hholds hb).trans (hview b)
  have hheld := (holds_storeLine (a := a) (v := v) hl hIr her hw (offsetOf p a) a w).2 hholds
  have hdirty : (((((m.cacheRead p a).mem.storeLine (indexOf p a) w (offsetOf p a) v).cacheSet (indexOf p a)).line w)).dirty
      = true := by
    rw [line_storeLine hl hIr her hw, if_pos rfl, store_dirty]
  obtain ⟨hIu, hviewu⟩ := writeMissUpdate_inv_view hl hIs her ha hheld hdirty v
  rcases hwrite v with hmem | hmem
  · rw [hmem]
    exact ⟨hIs, her, hsame, hne, w, hheld⟩
  · rw [hmem]
    refine ⟨hIu, (writeMissUpdate_cacheEnabled _ p a v).trans her, (hviewu a).trans hsame,
      fun b hb => (hviewu b).trans (hne b hb), w, ?_⟩
    exact (holds_congr (cacheSet_congr (writeMissUpdate_sets _ p a v) _)).2 hheld

theorem cacheWrite_inv (hl : p.legal) (hI : m.Inv p) (ha : a < p.ramCapacity) (v : Word) :
    (m.cacheWrite p a v).mem.Inv p := by
  cases he : m.cacheEnabled with
  | false =>
    rw [cacheWrite_of_disabled he]
    obtain ⟨hwf, hrange, hlen, -, hlog⟩ := id hI
    have hempty : m.sets.length = 0 := by simpa [he] using hlen
    exact inv_of_sets_eq hI rfl rfl (wf_write hwf a v) (range_write hrange ha) hlog fun s hs => by omega
  | true => exact (cacheWrite_of_enabled hl hI he ha v).1

theorem cacheWrite_view_same (hl : p.legal) (hI : m.Inv p) (ha : a < p.ramCapacity) (v : Word) :
    (m.cacheWrite p a v).mem.view p a = v := by
  cases he : m.cacheEnabled with
  | false =>
    rw [cacheWrite_of_disabled he, view_of_disabled (by exact he)]
    exact read_write_same hI.1 a v
  | true =>
    obtain ⟨-, -, hsame, -⟩ := cacheWrite_of_enabled hl hI he ha v
    exact hsame

theorem cacheWrite_view_ne (hl : p.legal) (hI : m.Inv p) (ha : a < p.ramCapacity) (v : Word) {b : Nat} (hb : b ≠ a) :
    (m.cacheWrite p a v).mem.view p b = m.view p b := by
  cases he : m.cacheEnabled with
  | false =>
    rw [cacheWrite_of_disabled he]
    exact view_congr rfl rfl (read_write_ne _ _ hb)
  | true =>
    obtain ⟨-, -, -, hne, -⟩ := cacheWrite_of_enabled hl hI he ha v
    exact hne b hb

end Access

/-- Settles O18. -/
theorem memReadAnswersAndKeepsView : Obligations.MemReadAnswersAndKeepsView := fun _ _ _ hl hI ha =>
  ⟨_, memRead_ok_iff.2 ⟨ha, rfl⟩, cacheRead_word hl hI ha, fun b _ => cacheRead_view hl hI ha b⟩

/-- Settles O19. -/
theorem memWriteSetsView : Obligations.MemWriteSetsView := fun _ _ _ v hl hI ha =>
  ⟨_, memWrite_ok_iff.2 ⟨ha, rfl⟩, cacheWrite_view_same hl hI ha v, fun _ _ hb => cacheWrite_view_ne hl hI ha v hb⟩

/-- Settles O21. -/
theorem accessesKeepMemoryInvariant : Obligations.AccessesKeepMemoryInvariant := by
  refine fun p m a v hl hI => ⟨fun r hr => ?_, fun r hr => ?_⟩
  · obtain ⟨ha, rfl⟩ := memRead_ok_iff.1 hr
    exact cacheRead_inv hl hI ha
  · obtain ⟨ha, rfl⟩ := memWrite_ok_iff.1 hr
    exact cacheWrite_inv hl hI ha v

end Sys2Proof.Proofs.Cache

/-! Latencies, what a miss and a hit replace, and that no access depends on the content of an invalid line (spec/20_memory.md R60 to
R67, R76, R77; spec/10_state.md R34). -/

namespace Sys2Proof.Proofs.CacheBehaviour

open Sys2Proof.Machine Sys2Proof.Laws Sys2Proof.Proofs.MemoryAccess Sys2Proof.Proofs.Cache

/-! ### Latencies -/

/-- Settles O17: the equations of the disabled cache, a hit and a miss. -/
theorem latencyTable : Obligations.LatencyTable := by
  refine ⟨fun p m a v => ⟨fun he => ?disabled, fun he hhit => ?hit, fun he hmiss => ?miss⟩, rfl, rfl, rfl, rfl, rfl, rfl⟩
  case disabled =>
    rw [cacheRead_of_disabled he, cacheWrite_of_disabled he]
    exact ⟨rfl, rfl⟩
  case hit =>
    obtain ⟨w, hw⟩ := Option.isSome_iff_exists.1 hhit
    rw [cacheRead_of_hit he hw, cacheWrite_of_hit he hw]
    exact ⟨rfl, rfl⟩
  case miss =>
    have hnone := Option.isSome_eq_false_iff.1 hmiss
    rw [Option.isNone_iff_eq_none] at hnone
    rw [cacheRead_of_miss he hnone, cacheWrite_of_miss he hnone]
    exact ⟨rfl, rfl⟩

/-! ### A miss -/

section Miss

variable {m : MemSys} {p : Params} {a w : Nat} {v : Word}

theorem order_storeLine {i off : Nat} (h : i < m.sets.length) :
    ((m.storeLine i w off v).cacheSet i).order = (m.cacheSet i).order := by
  rw [MemSys.storeLine, cacheSet_setSet_same m _ h, setLine_order]

theorem cacheSet_writeMissUpdate (m : MemSys) (p : Params) (a : Nat) (v : Word) (i : Nat) :
    (m.writeMissUpdate p a v).cacheSet i = m.cacheSet i :=
  cacheSet_congr (writeMissUpdate_sets m p a v) i

theorem writeMissUpdate_ram_ne {b : Nat} (hb : b ≠ a) : (m.writeMissUpdate p a v).ram.read b = m.ram.read b := by
  rw [writeMissUpdate_ram]
  split_ifs
  · exact read_write_ne _ _ hb
  · rfl

/-- Settles O22: the read is `install`, of which the laws say everything; the write stores into the line it loaded. -/
theorem missReplacesLeastRecent : Obligations.MissReplacesLeastRecent := by
  intro p m a v hl hI he ha hmiss
  have hs := indexOf_lt hl a
  have hIn := install_inv hl hI he ha ((hitWay_eq_none_iff hl hI he).1 hmiss)
  obtain ⟨horder, -⟩ := victim_spec hl (cacheSet_inv hI he hs)
  obtain ⟨hvictim, hw, hen, hlen, hsets, -, hnorder, hfilled, hlines, hram, hlog⟩ := install_spec hl hI he a
  rw [cacheRead_of_miss he hmiss, cacheWrite_of_miss he hmiss]
  generalize (m.install p a).1 = n at *
  generalize (m.install p a).2 = w at *
  obtain ⟨hin, hout, hevictions, -⟩ := evict_spec hI he hs hw
  have hstored := line_storeLine (a := a) (v := v) hl hIn hen hw (offsetOf p a)
  have hramA : n.ram.read a = m.ram.read a := by
    rw [hram]
    exact evict_ram_of_outside hI he hs hw fun ⟨hv, _, _, ht⟩ => (hitWay_none.1 hmiss) w
      (by rw [(cacheSet_inv hI he hs).1]; exact hw) hv ht.symm
  refine ⟨w, by rw [horder, hvictim]; rfl, hlog.trans hevictions, fun hd k hk => ?_, fun b hb => ?_, hnorder, hfilled,
    hlines, hsets, ?_, fun b hb => writeMissUpdate_ram_ne hb, fun hoff => ?_, fun hon => ?_, ?_, ?_, fun u hu => ?_,
    fun j hj => ?_⟩
  · rw [hram]
    exact hin hd k hk
  · rw [hram]
    exact hout b hb
  · rw [writeMissUpdate_evictions, storeLine_evictions]
    exact hlog.trans hevictions
  · rw [writeMissUpdate_ram, hoff]
    exact hramA
  · rw [writeMissUpdate_ram, hon]
    exact read_write_same hIn.1 a v
  · rw [cacheSet_writeMissUpdate, order_storeLine (by rw [hlen]; exact hs), hnorder]
  · rw [cacheSet_writeMissUpdate, hstored, if_pos rfl, hfilled]
    rfl
  · rw [cacheSet_writeMissUpdate, hstored, if_neg hu, hlines u hu]
  · rw [cacheSet_writeMissUpdate, cacheSet_storeLine_ne hj, hsets j hj]

end Miss

/-! ### A hit -/

section Hit

variable {m : MemSys} {p : Params} {a w : Nat} {v : Word}

/-- In an enabled cache that holds the address, both accesses take the hit latency. -/
theorem latency_of_holds (hl : p.legal) (hI : m.Inv p) (he : m.cacheEnabled = true) (h : Holds m p a w) (v : Word) :
    (m.cacheRead p a).latency = p.readLatency ∧ (m.cacheWrite p a v).latency = p.writeLatency := by
  have hhit := (hitWay_eq_some_iff hl hI he).2 h
  rw [cacheRead_of_hit he hhit, cacheWrite_of_hit he hhit]
  exact ⟨rfl, rfl⟩

/-- What a hit leaves (R60, R64, R65): the way most recently used, its line stored into by a write, and all else as it was. -/
theorem hit_replaces_order_only (hl : p.legal) (hI : m.Inv p) (he : m.cacheEnabled = true)
    (hhit : (m.cacheSet (indexOf p a)).hitWay (tagOf p a) = some w) (v : Word) :
    let c := m.cacheSet (indexOf p a)
    let n := (m.cacheRead p a).mem
    let k := (m.cacheWrite p a v).mem
    (m.cacheRead p a).word = (c.line w).data.getD (offsetOf p a) 0 ∧
    (n.cacheSet (indexOf p a)).order = c.order.erase w ++ [w] ∧
    (n.cacheSet (indexOf p a)).lines = c.lines ∧
    (∀ j, j ≠ indexOf p a → n.cacheSet j = m.cacheSet j) ∧
    n.ram = m.ram ∧ n.evictions = m.evictions ∧ n.cacheEnabled = true ∧
    (k.cacheSet (indexOf p a)).order = c.order.erase w ++ [w] ∧
    (k.cacheSet (indexOf p a)).line w =
      { c.line w with data := (c.line w).data.set (offsetOf p a) v, dirty := true } ∧
    (∀ u, u ≠ w → (k.cacheSet (indexOf p a)).line u = c.line u) ∧
    (∀ j, j ≠ indexOf p a → k.cacheSet j = m.cacheSet j) ∧
    k.ram = m.ram ∧ k.evictions = m.evictions ∧ k.cacheEnabled = true := by
  have hholds := (hitWay_eq_some_iff hl hI he).1 hhit
  have hslen := index_lt_sets_length hl hI he a
  obtain ⟨-, -, hperm, -⟩ := cacheSet_inv hI he (indexOf_lt hl a)
  have hnodup : (m.cacheSet (indexOf p a)).order.Nodup := hperm.nodup_iff.2 List.nodup_range
  have hIt := setSet_touch_inv hl hI he hholds
  have htouched := cacheSet_setSet_same m ((m.cacheSet (indexOf p a)).touch w) hslen
  have hothers (j : Nat) (hj : j ≠ indexOf p a) :=
    cacheSet_setSet_ne m ((m.cacheSet (indexOf p a)).touch w) hj
  obtain ⟨hw, -⟩ := hholds
  have hstored := line_storeLine (a := a) (v := v) hl hIt he hw (offsetOf p a)
  rw [cacheRead_of_hit he hhit, cacheWrite_of_hit he hhit]
  refine ⟨rfl, ?_, by rw [htouched, touch_lines], hothers, rfl, rfl, he, ?_, ?_, fun u hu => ?_, fun j hj => ?_, rfl, rfl, he⟩
  · rw [htouched, touch_order_erase hnodup]
  · rw [order_storeLine (by rw [length_setSet]; exact hslen), htouched, touch_order_erase hnodup]
  · rw [hstored, if_pos rfl, htouched]
    rfl
  · rw [hstored, if_neg hu, htouched, touch_line]
  · rw [cacheSet_storeLine_ne hj, hothers j hj]

end Hit

/-- Settles O23: after an access some way holds the address, so the next one hits; and the equations of a hit. -/
theorem repeatedAccessHits : Obligations.RepeatedAccessHits := by
  refine ⟨fun p m a v u hl hI he ha => ?_, fun p m a v w hl hI he _ hhit => hit_replaces_order_only hl hI he hhit v⟩
  obtain ⟨hIr, her, hviewr, hword, wr, hheldr, -⟩ := cacheRead_of_enabled hl hI he ha
  obtain ⟨hIw, hew, hvieww, -, ww, hheldw⟩ := cacheWrite_of_enabled hl hI he ha v
  obtain ⟨hlatr, hlatr'⟩ := latency_of_holds hl hIr her hheldr u
  obtain ⟨hlatw, hlatw'⟩ := latency_of_holds hl hIw hew hheldw u
  refine ⟨_, _, memRead_ok_iff.2 ⟨ha, rfl⟩, memWrite_ok_iff.2 ⟨ha, rfl⟩, ⟨_, memRead_ok_iff.2 ⟨ha, rfl⟩, ?_, hlatr⟩,
    ⟨_, memRead_ok_iff.2 ⟨ha, rfl⟩, ?_, hlatw⟩, ⟨_, memWrite_ok_iff.2 ⟨ha, rfl⟩, hlatr'⟩,
    ⟨_, memWrite_ok_iff.2 ⟨ha, rfl⟩, hlatw'⟩⟩
  · rw [cacheRead_word hl hIr ha, hviewr, hword]
  · rw [cacheRead_word hl hIw ha, hvieww]

/-! ### The content of invalid lines -/

section Lists

variable {α : Type} {R : α → α → Prop} {xs ys : List α}

theorem forall₂_getD (h : List.Forall₂ R xs ys) {d e : α} (hd : R d e) (i : Nat) : R (xs.getD i d) (ys.getD i e) := by
  induction h generalizing i with
  | nil => exact hd
  | cons hxy _ ih =>
    cases i with
    | zero => exact hxy
    | succ i => exact ih i

theorem forall₂_set (h : List.Forall₂ R xs ys) {x y : α} (hxy : R x y) (i : Nat) :
    List.Forall₂ R (xs.set i x) (ys.set i y) := by
  induction h generalizing i with
  | nil => exact .nil
  | cons hab hrest ih =>
    cases i with
    | zero => exact .cons hxy hrest
    | succ i => exact .cons hab (ih i)

end Lists

section Agrees

variable {m n : MemSys} {c d : CacheSet} {l k : Line} {p : Params} {a w : Nat} {v : Word}

theorem line_agrees_refl (l : Line) : l.agrees l := ⟨rfl, fun _ => rfl⟩

theorem cacheSet_agrees (h : m.agrees n) (i : Nat) : (m.cacheSet i).agrees (n.cacheSet i) := by
  obtain ⟨-, -, -, hsets⟩ := h
  exact forall₂_getD (R := CacheSet.agrees) hsets ⟨rfl, .nil⟩ i

theorem line_agrees (h : c.agrees d) (w : Nat) : (c.line w).agrees (d.line w) :=
  forall₂_getD (R := Line.agrees) h.2 (line_agrees_refl _) w

theorem lookup_test_agrees (h : l.agrees k) (tag : Nat) : (l.valid && l.tag == tag) = (k.valid && k.tag == tag) := by
  obtain ⟨hvalid, heq⟩ := h
  cases hv : l.valid with
  | false => rw [← hvalid, hv, Bool.false_and, Bool.false_and]
  | true => rw [← heq hv, hv]

/-- A lookup tests valid lines only. -/
theorem hitWay_agrees (h : c.agrees d) (tag : Nat) : c.hitWay tag = d.hitWay tag := by
  have hfind {xs ys : List Line} (hlines : List.Forall₂ Line.agrees xs ys) :
      xs.findIdx? (fun l => l.valid && l.tag == tag) = ys.findIdx? (fun l => l.valid && l.tag == tag) := by
    induction hlines with
    | nil => rfl
    | cons hlk _ ih => rw [List.findIdx?_cons, List.findIdx?_cons, lookup_test_agrees hlk, ih]
  exact hfind h.2

theorem touch_agrees (h : c.agrees d) (w : Nat) : (c.touch w).agrees (d.touch w) := by
  obtain ⟨horder, hlines⟩ := h
  exact ⟨by rw [touch_order, touch_order, horder], hlines⟩

theorem setLine_agrees (h : c.agrees d) (w : Nat) (hlk : l.agrees k) : (c.setLine w l).agrees (d.setLine w k) := by
  obtain ⟨horder, hlines⟩ := h
  exact ⟨horder, forall₂_set hlines hlk w⟩

theorem setSet_agrees (h : m.agrees n) (i : Nat) (hcd : c.agrees d) : (m.setSet i c).agrees (n.setSet i d) := by
  obtain ⟨hram, hen, hlog, hsets⟩ := h
  exact ⟨hram, hen, hlog, forall₂_set hsets hcd i⟩

/-- An eviction reads the victim only when it is valid. -/
theorem evict_agrees (h : m.agrees n) (s : Nat) (hlk : l.agrees k) : (m.evict p s l).agrees (n.evict p s k) := by
  obtain ⟨hvalid, heq⟩ := hlk
  cases hv : l.valid with
  | false =>
    have hvk : k.valid = false := hvalid ▸ hv
    simpa only [MemSys.evict, hv, hvk, Bool.false_and, Bool.false_eq_true, if_false] using h
  | true =>
    obtain rfl := heq hv
    obtain ⟨hram, hen, hlog, hsets⟩ := h
    simp only [MemSys.evict]
    split_ifs
    · exact ⟨by rw [writeback_ram, writeback_ram, hram], hen, by rw [writeback_evictions, writeback_evictions, hlog], hsets⟩
    · exact ⟨hram, hen, hlog, hsets⟩

theorem victim_agrees (h : c.agrees d) : c.victim = d.victim := by
  rw [CacheSet.victim, CacheSet.victim, h.1]

theorem evict_victim_agrees (h : m.agrees n) (p : Params) (i : Nat) :
    (m.evict p i ((m.cacheSet i).line (m.cacheSet i).victim)).agrees
      (n.evict p i ((n.cacheSet i).line (n.cacheSet i).victim)) := by
  have hset := cacheSet_agrees h i
  rw [victim_agrees hset]
  exact evict_agrees h i (line_agrees hset _)

theorem fill_eq_of_agrees (h : m.agrees n) (p : Params) (a : Nat) : m.fill p a = n.fill p a := by
  rw [MemSys.fill, MemSys.fill, h.1]

theorem install_snd (m : MemSys) (p : Params) (a : Nat) : (m.install p a).2 = (m.cacheSet (indexOf p a)).victim := rfl

theorem install_snd_agrees (h : m.agrees n) : (m.install p a).2 = (n.install p a).2 :=
  victim_agrees (cacheSet_agrees h _)

theorem install_agrees (h : m.agrees n) : (m.install p a).1.agrees (n.install p a).1 := by
  have hset := cacheSet_agrees h (indexOf p a)
  have hevict := evict_victim_agrees h p (indexOf p a)
  have hfill := fill_eq_of_agrees hevict p a
  refine setSet_agrees hevict _ ?_
  rw [hfill, victim_agrees hset]
  exact touch_agrees (setLine_agrees hset _ (line_agrees_refl _)) _

/-- What a line that is not there reads as. -/
def missingLine : Line := { valid := false, dirty := false, tag := 0, data := [] }

/-- The line an install loads is valid, unless the cache has no such set or way to load it into. -/
theorem install_line_cases (m : MemSys) (p : Params) (a : Nat) :
    (((m.install p a).1.cacheSet (indexOf p a)).line (m.install p a).2).valid = true ∨
      ((m.install p a).1.cacheSet (indexOf p a)).line (m.install p a).2 = missingLine := by
  have hfst : (m.install p a).1 =
      (m.evict p (indexOf p a) ((m.cacheSet (indexOf p a)).line (m.cacheSet (indexOf p a)).victim)).setSet (indexOf p a)
        (((m.cacheSet (indexOf p a)).setLine (m.cacheSet (indexOf p a)).victim
          ((m.evict p (indexOf p a) ((m.cacheSet (indexOf p a)).line (m.cacheSet (indexOf p a)).victim)).fill p a)).touch
            (m.cacheSet (indexOf p a)).victim) := rfl
  rw [install_snd, hfst]
  generalize m.cacheSet (indexOf p a) = c
  generalize m.evict p (indexOf p a) (c.line c.victim) = e
  by_cases hs : indexOf p a < e.sets.length
  · rw [cacheSet_setSet_same e _ hs, touch_line]
    by_cases hw : c.victim < c.lines.length
    · exact Or.inl (by rw [line_setLine_same c _ hw, fill_valid])
    · exact Or.inr (List.getD_eq_default _ _ (by rw [setLine_lines, List.length_set]; omega))
  · right
    rw [MemSys.cacheSet, List.getD_eq_default _ _ (by rw [setSet_sets, List.length_set]; omega)]
    rfl

/-- The line an install loads is the same in both memories. -/
theorem install_line_eq (h : m.agrees n) :
    ((m.install p a).1.cacheSet (indexOf p a)).line (m.install p a).2 =
      ((n.install p a).1.cacheSet (indexOf p a)).line (m.install p a).2 := by
  obtain ⟨hvalid, heq⟩ := line_agrees (cacheSet_agrees (install_agrees (p := p) (a := a) h) (indexOf p a)) (m.install p a).2
  rcases install_line_cases m p a with hm | hm
  · exact heq hm
  · rcases install_line_cases n p a with hn | hn
    · rw [← install_snd_agrees h, ← hvalid, hm] at hn
      exact absurd hn (by decide)
    · rw [hm, ← hn, install_snd_agrees h]

theorem hit_line_eq (h : m.agrees n) {i tag : Nat} (hhit : (m.cacheSet i).hitWay tag = some w) :
    (m.cacheSet i).line w = (n.cacheSet i).line w := by
  obtain ⟨-, hvalid, -⟩ := hitWay_some hhit
  exact (line_agrees (cacheSet_agrees h i) w).2 hvalid

theorem lineWord_eq_of_line_eq {i : Nat} (h : (m.cacheSet i).line w = (n.cacheSet i).line w) (off : Nat) :
    m.lineWord i w off = n.lineWord i w off := by
  rw [MemSys.lineWord, MemSys.lineWord, h]

theorem storeLine_agrees (h : m.agrees n) {i : Nat} (hline : (m.cacheSet i).line w = (n.cacheSet i).line w) (off : Nat)
    (v : Word) : (m.storeLine i w off v).agrees (n.storeLine i w off v) := by
  rw [MemSys.storeLine, MemSys.storeLine, hline]
  exact setSet_agrees h i (setLine_agrees (cacheSet_agrees h i) w (line_agrees_refl _))

theorem writeMissUpdate_agrees (h : m.agrees n) (p : Params) (a : Nat) (v : Word) :
    (m.writeMissUpdate p a v).agrees (n.writeMissUpdate p a v) := by
  obtain ⟨hram, hen, hlog, hsets⟩ := h
  exact ⟨by rw [writeMissUpdate_ram, writeMissUpdate_ram, hram],
    by rw [writeMissUpdate_cacheEnabled, writeMissUpdate_cacheEnabled, hen],
    by rw [writeMissUpdate_evictions, writeMissUpdate_evictions, hlog],
    by rw [writeMissUpdate_sets, writeMissUpdate_sets]; exact hsets⟩

/-- The two accesses, from memories that agree, in each of the cases disabled, hit and miss. -/
theorem access_agrees (h : m.agrees n) (p : Params) (a : Nat) (v : Word) :
    ((m.cacheRead p a).word = (n.cacheRead p a).word ∧ (m.cacheRead p a).latency = (n.cacheRead p a).latency ∧
      (m.cacheRead p a).mem.agrees (n.cacheRead p a).mem) ∧
    (m.cacheWrite p a v).latency = (n.cacheWrite p a v).latency ∧
      (m.cacheWrite p a v).mem.agrees (n.cacheWrite p a v).mem := by
  obtain ⟨hram, hen, hlog, hsets⟩ := id h
  have hset := cacheSet_agrees h (indexOf p a)
  cases he : m.cacheEnabled with
  | false =>
    have hen' : n.cacheEnabled = false := hen ▸ he
    rw [cacheRead_of_disabled he, cacheRead_of_disabled hen', cacheWrite_of_disabled he, cacheWrite_of_disabled hen']
    exact ⟨⟨by rw [hram], rfl, h⟩, rfl, by rw [hram], hen, hlog, hsets⟩
  | true =>
    have hen' : n.cacheEnabled = true := hen ▸ he
    cases hhit : (m.cacheSet (indexOf p a)).hitWay (tagOf p a) with
    | some w =>
      have hhit' : (n.cacheSet (indexOf p a)).hitWay (tagOf p a) = some w := hitWay_agrees hset _ ▸ hhit
      have hline := hit_line_eq h hhit
      have htouched := setSet_agrees h (indexOf p a) (touch_agrees hset w)
      rw [cacheRead_of_hit he hhit, cacheRead_of_hit hen' hhit', cacheWrite_of_hit he hhit, cacheWrite_of_hit hen' hhit']
      refine ⟨⟨lineWord_eq_of_line_eq hline _, rfl, htouched⟩, rfl, storeLine_agrees htouched ?_ _ v⟩
      rw [line_setSet_touch, line_setSet_touch, hline]
    | none =>
      have hmiss' : (n.cacheSet (indexOf p a)).hitWay (tagOf p a) = none := hitWay_agrees hset _ ▸ hhit
      have hline := install_line_eq (p := p) (a := a) h
      have hinstalled := install_agrees (p := p) (a := a) h
      rw [cacheRead_of_miss he hhit, cacheRead_of_miss hen' hmiss', cacheWrite_of_miss he hhit,
        cacheWrite_of_miss hen' hmiss', ← install_snd_agrees h]
      exact ⟨⟨lineWord_eq_of_line_eq hline _, rfl, hinstalled⟩, rfl,
        writeMissUpdate_agrees (storeLine_agrees hinstalled hline _ v) p a v⟩

end Agrees

/-- Settles O24: out of range the memory is not looked at; in range the accesses agree. -/
theorem invalidLineContentIrrelevant : Obligations.InvalidLineContentIrrelevant := by
  refine fun p m n a v h => ⟨fun hout => ⟨?_, ?_⟩, fun hin => ?_⟩
  · rw [memRead_error_iff.2 ⟨hout, rfl⟩, memRead_error_iff.2 ⟨hout, rfl⟩]
  · rw [memWrite_error_iff.2 ⟨hout, rfl⟩, memWrite_error_iff.2 ⟨hout, rfl⟩]
  · obtain ⟨⟨hword, hlatency, hread⟩, hlatency', hwrite⟩ := access_agrees h p a.toNat v
    exact ⟨_, _, _, _, memRead_ok_iff.2 ⟨hin, rfl⟩, memRead_ok_iff.2 ⟨hin, rfl⟩, memWrite_ok_iff.2 ⟨hin, rfl⟩,
      memWrite_ok_iff.2 ⟨hin, rfl⟩, hword, hlatency, hread, hlatency', hwrite⟩

end Sys2Proof.Proofs.CacheBehaviour

/-! What a whole instruction leaves unchanged (spec/41_system.md to spec/44_branch.md), the flag function (R190), and a whole
instruction as its three stage functions (spec/40_pipeline_engine.md R149, R154). -/

namespace Sys2Proof.Proofs.Frames

open Sys2Proof.Machine Sys2Proof.Laws Sys2Proof.Proofs.System Sys2Proof.Proofs.LoadStore Sys2Proof.Proofs.Arithmetic
  Sys2Proof.Proofs.Branch Sys2Proof.Proofs.Cache

/-- Settles O40: the two outcomes of `MemOp` are the two branches of `runWhole`. -/
theorem execIsItsStages : Obligations.ExecIsItsStages := by
  refine fun i s => ⟨fun o hok => ?_, fun f herror => ?_⟩
  · simp only [exec_eq_runWhole, runWhole, hok]
    rfl
  · simp only [exec_eq_runWhole, runWhole, herror]
    rfl

/-! ### The flags -/

theorem flagsReservedZero_flagsWord (z n : Bool) : flagsReservedZero (flagsWord z n) = true := by
  cases z <;> cases n <;> rfl

theorem flagsReservedZero_nzFlags (r : Word) : flagsReservedZero (nzFlags r) = true := flagsReservedZero_flagsWord _ _

/-- The flags Word is what two `set` operations build under the layout `FLAGS` (R190). -/
theorem set_Z_then_N (z n : Bool) :
    ((layoutFlags.set 0 "Z" (if z = true then 1 else 0)).bind fun w => layoutFlags.set w "N" (if n = true then 1 else 0)) =
      .ok (flagsWord z n).toNat := by
  cases z <;> cases n <;> rfl

theorem set_flags_of_result (r : Word) :
    ((layoutFlags.set 0 "Z" (if r = 0 then 1 else 0)).bind fun w =>
      layoutFlags.set w "N" (if r.getLsbD 31 then 1 else 0)) = .ok (nzFlags r).toNat := by
  have h := set_Z_then_N (r == 0) (r.getLsbD 31)
  simp only [beq_iff_eq] at h
  exact h

/-- The instructions that write the flags. -/
def WritesFlags (i : Instr) : Prop :=
  (∃ rd rn imm, i = .addi rd rn imm) ∨ (∃ rd rn rm, i = .add rd rn rm) ∨ ∃ rd rn rm, i = .sub rd rn rm

/-- ADDI, ADD and SUB write the flags of their result; `Exec` of every other instruction writes none. -/
theorem exec_flags_eq_none_iff (i : Instr) (x : RegFile) (flags : Word) :
    ((stagesOf i).exec x flags).flags = none ↔ ¬ WritesFlags i := by
  have hwrites {v : Word} {j : Instr} (hj : WritesFlags j) : (ExecOut.result v).flags = none ↔ ¬ WritesFlags j :=
    ⟨fun h => by simp [ExecOut.result] at h, fun h => absurd hj h⟩
  cases i with
  | addi rd rn imm => exact hwrites (Or.inl ⟨rd, rn, imm, rfl⟩)
  | add rd rn rm => exact hwrites (Or.inr (Or.inl ⟨rd, rn, rm, rfl⟩))
  | sub rd rn rm => exact hwrites (Or.inr (Or.inr ⟨rd, rn, rm, rfl⟩))
  | nop | ldr | str | b | beq | bne | halt => exact ⟨fun _ => by simp [WritesFlags], fun _ => rfl⟩

/-- Settles O39. -/
theorem flagFunction : Obligations.FlagFunction :=
  ⟨fun r => ⟨by rw [flagZ_nzFlags, beq_iff_eq], flagN_nzFlags r, flagsReservedZero_nzFlags r, set_flags_of_result r⟩,
    exec_flags_eq_none_iff⟩

/-! ### Arithmetic, system and branch instructions -/

/-- The next state of ADDI, ADD and SUB differs in the destination, the flags and `cycles`. -/
theorem exec_arithmetic {i : Instr} {rd rn rm : RegNum} {imm : Imm18} {s t : State}
    (hi : i = .addi rd rn imm ∨ i = .add rd rn rm ∨ i = .sub rd rn rm) (h : exec i s = .next t) :
    ∃ v, t = { s with x := RegFile.write s.x rd v, flags := nzFlags v, cycles := s.cycles + 5 } := by
  rcases hi with rfl | rfl | rfl
  · rw [exec_addi] at h
    exact ⟨_, (Host.Outcome.next.inj h).symm⟩
  · rw [exec_add] at h
    exact ⟨_, (Host.Outcome.next.inj h).symm⟩
  · rw [exec_sub] at h
    exact ⟨_, (Host.Outcome.next.inj h).symm⟩

/-- Settles O35. -/
theorem arithmeticFrame : Obligations.ArithmeticFrame := by
  intro i rd rn rm imm s t hi h
  obtain ⟨v, rfl⟩ := exec_arithmetic hi h
  exact ⟨fun r hr => read_write_reg_ne s.x v hr, flagsReservedZero_nzFlags v, rfl, rfl, rfl, rfl, rfl, rfl, rfl, rfl, rfl,
    rfl, rfl, rfl, rfl, rfl, fun _ => rfl⟩

/-- The next state of NOP, HALT and the branches differs in pc, `halted` and `cycles`, and in `halted` for HALT only. -/
theorem exec_branch_or_system {i : Instr} {g : Target} {s t : State}
    (hi : i = .nop ∨ i = .halt ∨ i = .b g ∨ i = .beq g ∨ i = .bne g) (h : exec i s = .next t) :
    ∃ pc halted, t = { s with pc := pc, halted := halted, cycles := s.cycles + 5 } ∧ (i ≠ .halt → halted = s.halted) := by
  rcases hi with rfl | rfl | rfl | rfl | rfl
  · rw [exec_nop] at h
    exact ⟨s.pc, s.halted, (Host.Outcome.next.inj h).symm, fun _ => rfl⟩
  · rw [exec_halt] at h
    exact ⟨s.pc, true, (Host.Outcome.next.inj h).symm, fun hne => absurd rfl hne⟩
  · rw [exec_b] at h
    exact ⟨_, s.halted, (Host.Outcome.next.inj h).symm, fun _ => rfl⟩
  · rw [exec_beq] at h
    exact ⟨_, s.halted, (Host.Outcome.next.inj h).symm, fun _ => rfl⟩
  · rw [exec_bne] at h
    exact ⟨_, s.halted, (Host.Outcome.next.inj h).symm, fun _ => rfl⟩

/-- Settles O36. -/
theorem branchAndSystemFrame : Obligations.BranchAndSystemFrame := by
  intro i g s t hi h
  obtain ⟨pc, halted, rfl, hhalted⟩ := exec_branch_or_system hi h
  exact ⟨fun _ => rfl, rfl, rfl, rfl, rfl, rfl, rfl, rfl, rfl, rfl, rfl, rfl, rfl, rfl, hhalted, fun _ => rfl⟩

/-! ### LDR and STR -/

/-- Settles O37: in range the next state is that of a read, out of range the state with the error latched. -/
theorem loadFrame : Obligations.LoadFrame := by
  intro rd rn imm s t h
  rcases Nat.lt_or_ge (effectiveAddress s.x rn imm).toNat s.params.ramCapacity with hin | hout
  · rw [exec_ldr_of_memRead_ok (memRead_ok_iff.2 ⟨hin, rfl⟩)] at h
    obtain rfl := Host.Outcome.next.inj h
    exact ⟨fun r hr => read_write_reg_ne s.x _ hr, rfl, rfl, rfl, rfl, rfl, rfl, rfl, rfl, rfl, rfl, rfl, rfl, rfl,
      fun _ => rfl, fun hout => absurd hin (Nat.not_lt.2 hout), fun hl hI a _ => cacheRead_view hl hI hin a⟩
  · rw [exec_ldr_of_outOfRange rd hout] at h
    obtain rfl := Host.Outcome.next.inj h
    exact ⟨fun _ _ => rfl, rfl, rfl, rfl, rfl, rfl, rfl, rfl, rfl, rfl, rfl, rfl, rfl, rfl,
      fun hin => absurd hin (Nat.not_lt.2 hout), fun _ => ⟨rfl, rfl, rfl⟩, fun _ _ _ _ => rfl⟩

/-- Settles O38: in range the next state is that of a write, out of range the state with the error latched. -/
theorem storeFrame : Obligations.StoreFrame := by
  intro rd rn imm s t h
  rcases Nat.lt_or_ge (effectiveAddress s.x rn imm).toNat s.params.ramCapacity with hin | hout
  · rw [exec_str_of_memWrite_ok (memWrite_ok_iff.2 ⟨hin, rfl⟩)] at h
    obtain rfl := Host.Outcome.next.inj h
    exact ⟨fun _ => rfl, rfl, rfl, rfl, rfl, rfl, rfl, rfl, rfl, rfl, rfl, rfl, rfl, rfl,
      fun hout => absurd hin (Nat.not_lt.2 hout), fun hl hI _ => ⟨rfl, cacheWrite_view_same hl hI hin _,
        fun a _ hne => cacheWrite_view_ne hl hI hin _ hne⟩⟩
  · rw [exec_str_of_outOfRange rd hout] at h
    obtain rfl := Host.Outcome.next.inj h
    exact ⟨fun _ => rfl, rfl, rfl, rfl, rfl, rfl, rfl, rfl, rfl, rfl, rfl, rfl, rfl, rfl, fun _ => ⟨rfl, rfl⟩,
      fun _ _ hin => absurd hin (Nat.not_lt.2 hout)⟩

end Sys2Proof.Proofs.Frames

/-! What every step keeps: the parameters, the mode and the memory up to accesses in range; what Writeback alone writes; and the
count of cycles (spec/40_pipeline_engine.md R132, R140, R149; spec/10_state.md R21, R27, R28, R36, R37). -/

namespace Sys2Proof.Proofs.StepFrame

open Sys2Proof.Machine Sys2Proof.Laws Sys2Proof.Proofs.MemoryAccess Sys2Proof.Proofs.Engine Sys2Proof.Proofs.System
  Sys2Proof.Proofs.Driver Sys2Proof.Proofs.Cache

/-! ### Memory reached by accesses in range -/

/-- Memory `n` is reached from memory `m` by reads and writes in range. -/
inductive Accesses (p : Params) (m : MemSys) : MemSys → Prop
  | refl : Accesses p m m
  | read {n : MemSys} {a : Nat} : Accesses p m n → a < p.ramCapacity → Accesses p m (n.cacheRead p a).mem
  | write {n : MemSys} {a : Nat} (v : Word) : Accesses p m n → a < p.ramCapacity → Accesses p m (n.cacheWrite p a v).mem

section Accesses

variable {p : Params} {m n : MemSys}

theorem Accesses.inv (h : Accesses p m n) (hl : p.legal) (hI : m.Inv p) : n.Inv p := by
  induction h with
  | refl => exact hI
  | read _ ha ih => exact cacheRead_inv hl ih ha
  | write v _ ha ih => exact cacheWrite_inv hl ih ha v

theorem evict_evictions_prefix (m : MemSys) (p : Params) (s : Nat) (l : Line) :
    m.evictions <+: (m.evict p s l).evictions := by
  unfold MemSys.evict
  split_ifs
  · exact List.prefix_append _ _
  · exact List.prefix_rfl

/-- A read changes no enable, and the log only at its end. -/
theorem cacheRead_enabled_log (m : MemSys) (p : Params) (a : Nat) :
    (m.cacheRead p a).mem.cacheEnabled = m.cacheEnabled ∧ m.evictions <+: (m.cacheRead p a).mem.evictions := by
  rcases cacheRead_cases m p a with ⟨-, e⟩ | ⟨-, w, -, e⟩ | ⟨-, -, e⟩
  · rw [e]
    exact ⟨rfl, List.prefix_rfl⟩
  · rw [e]
    exact ⟨rfl, List.prefix_rfl⟩
  · rw [e]
    exact ⟨evict_cacheEnabled _ _ _ _, evict_evictions_prefix _ _ _ _⟩

/-- A write changes no enable, and the log only at its end. -/
theorem cacheWrite_enabled_log (m : MemSys) (p : Params) (a : Nat) (v : Word) :
    (m.cacheWrite p a v).mem.cacheEnabled = m.cacheEnabled ∧ m.evictions <+: (m.cacheWrite p a v).mem.evictions := by
  rcases cacheWrite_cases m p a v with ⟨-, e⟩ | ⟨-, w, -, e⟩ | ⟨-, -, e⟩
  · rw [e]
    exact ⟨rfl, List.prefix_rfl⟩
  · rw [e]
    exact ⟨rfl, List.prefix_rfl⟩
  · rw [e, writeMissUpdate_cacheEnabled, writeMissUpdate_evictions]
    exact ⟨evict_cacheEnabled _ _ _ _, evict_evictions_prefix _ _ _ _⟩

theorem Accesses.enabled_log (h : Accesses p m n) : n.cacheEnabled = m.cacheEnabled ∧ m.evictions <+: n.evictions := by
  induction h with
  | refl => exact ⟨rfl, List.prefix_rfl⟩
  | @read n a _ _ ih =>
    obtain ⟨hen, hlog⟩ := cacheRead_enabled_log n p a
    exact ⟨hen.trans ih.1, ih.2.trans hlog⟩
  | @write n a v _ _ ih =>
    obtain ⟨hen, hlog⟩ := cacheWrite_enabled_log n p a v
    exact ⟨hen.trans ih.1, ih.2.trans hlog⟩

/-- A memory operation is one access in range, or none. -/
theorem Accesses.memOp {i : Instr} {ea c : Option Word} {o : MemOut} (h : Accesses p m n)
    (ho : (stagesOf i).memOp p n ea c = .ok o) : Accesses p m o.mem := by
  rcases memOp_cases i p n ea c with ⟨a, -, -, e⟩ | ⟨a, v, -, -, -, e⟩ | e
  · rw [e] at ho
    cases hr : memRead p n a with
    | error k => simp [hr] at ho
    | ok r =>
      rw [hr] at ho
      obtain rfl := Except.ok.inj ho
      obtain ⟨ha, rfl⟩ := memRead_ok_iff.1 hr
      exact h.read ha
  · rw [e] at ho
    cases hr : memWrite p n a v with
    | error k => simp [hr] at ho
    | ok r =>
      rw [hr] at ho
      obtain rfl := Except.ok.inj ho
      obtain ⟨ha, rfl⟩ := memWrite_ok_iff.1 hr
      exact h.write v ha
  · obtain rfl := Except.ok.inj (e.symm.trans ho)
    exact h

/-- A record runs the stage functions of its effective instruction, or those of an inert one. -/
theorem stages_cases (r : InstrRecord) :
    (r.effective = none ∧ r.stages = inertStages) ∨ ∃ i, r.effective = some i ∧ r.stages = stagesOf i := by
  cases h : r.effective with
  | none => exact Or.inl ⟨rfl, by rw [InstrRecord.stages, h]⟩
  | some i => exact Or.inr ⟨i, rfl, by rw [InstrRecord.stages, h]⟩

theorem Accesses.issueMem {r q : InstrRecord} {k : MemSys} (h : Accesses p m n) (hi : issueMem p n r = .ok (q, k)) :
    Accesses p m k := by
  rcases issueMem_cases p n r with ⟨-, e⟩ | ⟨-, o, ho, e⟩ | ⟨-, f, -, e⟩
  · obtain ⟨-, rfl⟩ := Prod.mk.inj (Except.ok.inj (e.symm.trans hi))
    exact h
  · obtain ⟨-, rfl⟩ := Prod.mk.inj (Except.ok.inj (e.symm.trans hi))
    rcases stages_cases r with ⟨-, hst⟩ | ⟨i, -, hst⟩
    · rw [hst] at ho
      obtain rfl := Except.ok.inj ho
      exact h
    · rw [hst] at ho
      exact h.memOp ho
  · simp [e] at hi

end Accesses

/-! ### What Writeback leaves -/

section Writeback

variable (s : State)

@[simp] theorem step1Writeback_slotW : (step1Writeback s).slotW = .bubble := by rw [step1Writeback_eq_applyRetire]
@[simp] theorem step1Writeback_x : (step1Writeback s).x = s.executeRegs := by
  rw [step1Writeback_eq_applyRetire, State.executeRegs]
@[simp] theorem step1Writeback_halted : (step1Writeback s).halted = (s.halted || s.slotW.retireOut.halts) := by
  rw [step1Writeback_eq_applyRetire, applyRetire_halted]
@[simp] theorem step1Writeback_params : (step1Writeback s).params = s.params := by rw [step1Writeback_eq_applyRetire]; rfl
@[simp] theorem step1Writeback_mem : (step1Writeback s).mem = s.mem := by rw [step1Writeback_eq_applyRetire]; rfl
@[simp] theorem step1Writeback_pc : (step1Writeback s).pc = s.pc := by rw [step1Writeback_eq_applyRetire]; rfl
@[simp] theorem step1Writeback_sp : (step1Writeback s).sp = s.sp := by rw [step1Writeback_eq_applyRetire]; rfl
@[simp] theorem step1Writeback_flags : (step1Writeback s).flags = s.flags := by rw [step1Writeback_eq_applyRetire]; rfl
@[simp] theorem step1Writeback_slotF : (step1Writeback s).slotF = s.slotF := by rw [step1Writeback_eq_applyRetire]; rfl
@[simp] theorem step1Writeback_slotD : (step1Writeback s).slotD = s.slotD := by rw [step1Writeback_eq_applyRetire]; rfl
@[simp] theorem step1Writeback_slotE : (step1Writeback s).slotE = s.slotE := by rw [step1Writeback_eq_applyRetire]; rfl
@[simp] theorem step1Writeback_slotM : (step1Writeback s).slotM = s.slotM := by rw [step1Writeback_eq_applyRetire]; rfl
@[simp] theorem step1Writeback_stalledFetch : (step1Writeback s).stalledFetch = s.stalledFetch := by rw [step1Writeback_eq_applyRetire]; rfl
@[simp] theorem step1Writeback_stalledMemory : (step1Writeback s).stalledMemory = s.stalledMemory := by rw [step1Writeback_eq_applyRetire]; rfl
@[simp] theorem step1Writeback_cycles : (step1Writeback s).cycles = s.cycles := by rw [step1Writeback_eq_applyRetire]; rfl
@[simp] theorem step1Writeback_overlapped : (step1Writeback s).overlapped = s.overlapped := by rw [step1Writeback_eq_applyRetire]; rfl
@[simp] theorem step1Writeback_fault : (step1Writeback s).fault = s.fault := by rw [step1Writeback_eq_applyRetire]; rfl

end Writeback

/-! ### One advance -/

section Advance

variable {s t : State}

/-- What holds after Writeback and is kept by each later step, by an error and by the count, holds after a pipelined advance. -/
theorem advancePipelined_induct {P : State → Prop} (h1 : P (step1Writeback s)) (hraise : ∀ u f, P u → P (u.raise f))
    (h2 : ∀ v, step2Memory (step1Writeback s) = .ok v → P v) (h3 : ∀ u v, P u → step3Execute u = .ok v → P v)
    (h4 : ∀ u, P u → P (step4Decode u)) (h5 : ∀ u v, P u → step5Fetch u = .ok v → P v)
    (hcycles : ∀ (u : State) n, P u → P { u with cycles := n }) : P (advancePipelined s) := by
  rcases advancePipelined_cases s with ⟨f, -, e⟩ | ⟨s2, f, e2, -, e⟩ | ⟨s2, s3, f, e2, e3, -, e⟩ | ⟨s2, s3, s5, e2, e3, e5, e⟩
  · rw [e]
    exact hraise _ f h1
  · rw [e]
    exact hraise _ f (h2 _ e2)
  · rw [e]
    exact hraise _ f (h4 _ (h3 _ _ (h2 _ e2) e3))
  · rw [e]
    exact hcycles _ _ (h5 _ _ (h4 _ (h3 _ _ (h2 _ e2) e3)) e5)

/-- What holds after step 2 and is kept by each later step, by an error and by the count, holds after the advance. -/
theorem advancePipelined_induct_of_step2 {P : State → Prop} {s2 : State} (e2 : step2Memory (step1Writeback s) = .ok s2)
    (h2 : P s2) (hraise : ∀ u f, P u → P (u.raise f)) (h3 : ∀ u v, P u → step3Execute u = .ok v → P v)
    (h4 : ∀ u, P u → P (step4Decode u)) (h5 : ∀ u v, P u → step5Fetch u = .ok v → P v)
    (hcycles : ∀ (u : State) n, P u → P { u with cycles := n }) : P (advancePipelined s) := by
  rcases advancePipelined_cases s with ⟨f, e, -⟩ | ⟨v2, f, e, -, e'⟩ | ⟨v2, s3, f, e, e3, -, e'⟩ | ⟨v2, s3, s5, e, e3, e5, e'⟩
  · cases e2.symm.trans e
  all_goals obtain rfl := Except.ok.inj (e2.symm.trans e)
  · rw [e']
    exact hraise _ f h2
  · rw [e']
    exact hraise _ f (h4 _ (h3 _ _ h2 e3))
  · rw [e']
    exact hcycles _ _ (h5 _ _ (h4 _ (h3 _ _ h2 e3)) e5)

theorem eq_advancePipelined (hp : s.pipelining) (h : step s = .next t) : t = advancePipelined s :=
  Host.Outcome.next.inj (h.symm.trans (step_of_pipelining hp))

/-- The registers are written in step 1 only (R21, R132). -/
theorem advancePipelined_x (s : State) : (advancePipelined s).x = (s.applyRetire s.slotW.retireOut).x := by
  have h1 : (step1Writeback s).x = (s.applyRetire s.slotW.retireOut).x := step1Writeback_x s
  refine advancePipelined_induct (P := fun u => u.x = (s.applyRetire s.slotW.retireOut).x) h1 (fun _ _ h => h)
    (fun v e => ?_) (fun u v h e => ?_) (fun u h => ?_) (fun u v h e => ?_) (fun _ _ h => h)
  · obtain ⟨hx, -⟩ := step2Memory_frame e
    exact hx.trans h1
  · obtain ⟨hx, -⟩ := step3Execute_frame e
    exact hx.trans h
  · obtain ⟨hx, -⟩ := step4Decode_frame u
    exact hx.trans h
  · obtain ⟨hx, -⟩ := step5Fetch_frame e
    exact hx.trans h

/-- Settles O43. -/
theorem writebackIsTheOnlyWriter : Obligations.WritebackIsTheOnlyWriter := by
  intro s t hp hstep
  obtain rfl := eq_advancePipelined hp hstep
  exact ⟨advancePipelined_x s, advancePipelined_halted s⟩

/-! ### What no step changes -/

/-- `t` has the `sp`, mode and parameters of `s`, and its memory up to accesses in range. -/
def SameFrame (s t : State) : Prop :=
  t.sp = s.sp ∧ t.overlapped = s.overlapped ∧ t.params = s.params ∧ Accesses s.params s.mem t.mem

theorem SameFrame.refl (s : State) : SameFrame s s := ⟨rfl, rfl, rfl, .refl⟩

theorem step2Memory_sameFrame {u v : State} (h : SameFrame s u) (e : step2Memory u = .ok v) : SameFrame s v := by
  obtain ⟨hsp, hmode, hparams, hmem⟩ := h
  rcases step2Memory_ok e with ⟨-, rfl⟩ | ⟨r, q, m, -, hi, -, rfl⟩ | ⟨r, q, m, -, hi, -, rfl⟩
  · exact ⟨hsp, hmode, hparams, hmem⟩
  · exact ⟨hsp, hmode, hparams, hmem.issueMem (hparams ▸ hi)⟩
  · exact ⟨hsp, hmode, hparams, hmem.issueMem (hparams ▸ hi)⟩

theorem step3Execute_sameFrame {u v : State} (h : SameFrame s u) (e : step3Execute u = .ok v) : SameFrame s v := by
  obtain ⟨-, -, hsp, -, -, hparams, hmode, -, -, -, -, hmem⟩ := step3Execute_frame e
  rw [SameFrame, hsp, hparams, hmode, hmem]
  exact h

theorem step4Decode_sameFrame {u : State} (h : SameFrame s u) : SameFrame s (step4Decode u) := by
  obtain ⟨-, -, -, -, hsp, -, -, hparams, hmode, -, -, -, -, -, hmem⟩ := step4Decode_frame u
  rw [SameFrame, hsp, hparams, hmode, hmem]
  exact h

theorem fetchWord_sameFrame {u v : State} {w : Word} (h : SameFrame s u) (e : fetchWord u = .ok (w, v)) :
    SameFrame s v := by
  obtain ⟨hsp, hmode, hparams, hmem⟩ := h
  obtain ⟨ha, -, rfl⟩ := fetchWord_ok_iff.1 e
  rw [hparams] at ha
  exact ⟨hsp, hmode, hparams, hparams ▸ hmem.read ha⟩

theorem step5Fetch_sameFrame {u v : State} (h : SameFrame s u) (e : step5Fetch u = .ok v) : SameFrame s v := by
  rcases step5Fetch_ok e with ⟨-, rfl⟩ | ⟨-, w, v', hf, rfl⟩
  · exact h
  · have hfetched := fetchWord_sameFrame h hf
    exact hfetched

theorem advancePipelined_sameFrame (s : State) : SameFrame s (advancePipelined s) := by
  have h1 : SameFrame s (step1Writeback s) := by
    rw [step1Writeback_eq_applyRetire]
    exact SameFrame.refl s
  exact advancePipelined_induct h1 (fun _ _ h => h) (fun _ => step2Memory_sameFrame h1)
    (fun _ _ => step3Execute_sameFrame) (fun _ => step4Decode_sameFrame) (fun _ _ => step5Fetch_sameFrame)
    (fun _ _ h => h)

theorem runWhole_stagesOf_sameFrame {i : Instr} {u v : State} (h : SameFrame s u) (e : runWhole (stagesOf i) u = .next v) :
    SameFrame s v := by
  obtain ⟨hsp, hmode, hparams, hmem⟩ := h
  rcases runWhole_cases (stagesOf i) u with ⟨o, ho, e'⟩ | ⟨r, -, e'⟩
  · obtain rfl := Host.Outcome.next.inj (e'.symm.trans e)
    rw [hparams] at ho
    exact ⟨hsp, hmode, hparams, hmem.memOp ho⟩
  · obtain rfl := Host.Outcome.next.inj (e'.symm.trans e)
    exact ⟨hsp, hmode, hparams, hmem⟩

/-- An inert Word run whole only counts its five cycle units (R143, R150). -/
theorem runWhole_inertStages (u : State) : runWhole inertStages u = .next { u with cycles := u.cycles + 5 } := by
  have hretire : u.applyRetire (inertStages.retire none) = u := applyRetire_nothing u
  rw [runWhole_of_retireOnly (fun _ _ => rfl) rfl, hretire]

theorem step_sameFrame (h : step s = .next t) : SameFrame s t := by
  rcases step_cases s with ⟨-, e⟩ | ⟨-, e⟩ | ⟨-, ⟨f, -, e⟩ | ⟨w, u, i, hf, -, e⟩ | ⟨w, u, err, hf, -, e⟩⟩
  · obtain rfl := Host.Outcome.next.inj (e.symm.trans h)
    exact SameFrame.refl s
  · obtain rfl := Host.Outcome.next.inj (e.symm.trans h)
    exact advancePipelined_sameFrame s
  · obtain rfl := Host.Outcome.next.inj (e.symm.trans h)
    exact SameFrame.refl s
  · exact runWhole_stagesOf_sameFrame (fetchWord_sameFrame (SameFrame.refl s) hf) (e.symm.trans h)
  · rw [runWhole_inertStages] at e
    obtain rfl := Host.Outcome.next.inj (e.symm.trans h)
    have hfetched := fetchWord_sameFrame (SameFrame.refl s) hf
    exact hfetched

/-- Settles O54. -/
theorem stepNeverChanges : Obligations.StepNeverChanges := by
  intro s t h
  obtain ⟨hsp, hmode, hparams, hmem⟩ := step_sameFrame h
  exact ⟨hsp, hmode, hparams, hmem.enabled_log⟩

/-! ### The count of cycles -/

theorem cycles_le_of_runWhole {f : InstrStages} (h : runWhole f s = .next t) : s.cycles ≤ t.cycles := by
  rcases runWhole_cases f s with ⟨o, -, e⟩ | ⟨r, -, e⟩
  · obtain rfl := Host.Outcome.next.inj (e.symm.trans h)
    exact (Nat.le_add_right s.cycles 5).trans (Nat.le_add_right _ _)
  · obtain rfl := Host.Outcome.next.inj (e.symm.trans h)
    exact Nat.le_refl _

/-- Settles O51: a pipelined advance counts one or latches a fault, a sequential one counts five or latches a fault. -/
theorem cyclesNeverDecrease : Obligations.CyclesNeverDecrease := by
  intro s t h
  rcases step_cases s with ⟨hstopped, e⟩ | ⟨-, e⟩ | ⟨hseq, -⟩
  · obtain rfl := Host.Outcome.next.inj (e.symm.trans h)
    exact ⟨Nat.le_refl _, fun hrunning => by simp [hstopped] at hrunning⟩
  · obtain rfl := Host.Outcome.next.inj (e.symm.trans h)
    rcases advancePipelined_cycles_fault s with ⟨hcycles, -⟩ | ⟨hcycles, hfault⟩
    · exact ⟨by omega, fun _ _ => by omega⟩
    · exact ⟨hcycles.ge, fun _ hnone => absurd hnone hfault⟩
  · refine ⟨?_, fun _ hnone => by have := add_five_le_cycles_of_sequencing hseq h hnone; omega⟩
    rcases step_cases_of_sequencing hseq with ⟨r, e⟩ | ⟨f, w, u, hf, e⟩
    · obtain rfl := Host.Outcome.next.inj (e.symm.trans h)
      exact Nat.le_refl _
    · rw [← fetchWord_cycles hf]
      exact cycles_le_of_runWhole (e.symm.trans h)

end Advance

end Sys2Proof.Proofs.StepFrame

/-! The invariant of the machine (spec/10_state.md R41): it holds at reset, and every step and host operation keeps it. -/

namespace Sys2Proof.Proofs.Invariant

open Sys2Proof.Machine Sys2Proof.Laws Sys2Proof.Proofs.Reset Sys2Proof.Proofs.MemoryAccess Sys2Proof.Proofs.Engine
  Sys2Proof.Proofs.System Sys2Proof.Proofs.Frames Sys2Proof.Proofs.StepFrame

/-! ### A cold memory -/

theorem cold_line_eq {p : Params} {l : Line} (hl : l ∈ (CacheSet.cold p).lines) : l = Line.cold p :=
  List.eq_of_mem_replicate hl

theorem line_valid_of_forall_invalid {c : CacheSet} (h : ∀ l ∈ c.lines, l.valid = false) (w : Nat) :
    (c.line w).valid = false := by
  by_cases hw : w < c.lines.length
  · exact h _ (line_mem c hw)
  · rw [CacheSet.line, List.getD_eq_default _ _ (Nat.le_of_not_lt hw)]

/-- A cold set is sound behind any RAM: no line of it is valid. -/
theorem cold_inv (p : Params) (ram : Memory) (s : Nat) : (CacheSet.cold p).Inv p ram s := by
  have hinvalid := line_valid_of_forall_invalid (c := CacheSet.cold p) fun l hl => cold_line_invalid hl
  refine ⟨cold_lines_length p, fun l hl => ?_, List.Perm.refl _, ?_, fun l hl hd => ?_, fun l hl hv => ?_,
    fun l hl hv => ?_, fun i _ j _ hv => ?_⟩
  · rw [cold_line_eq hl, Line.cold, List.length_replicate]
  · refine List.pairwise_of_forall_mem_list fun a ha b _ hat => ?_
    obtain ⟨w, -, rfl⟩ := List.mem_map.1 ha
    simp [hinvalid w] at hat
  · simp [cold_line_eq hl, Line.cold] at hd
  · simp [cold_line_invalid hl] at hv
  · simp [cold_line_invalid hl] at hv
  · simp [hinvalid i] at hv

/-- A memory of cold sets, as many as the geometry has, is sound when its RAM and log are. -/
theorem inv_of_cold_sets {p : Params} {m : MemSys} (hwf : m.ram.wf) (hrange : ∀ c ∈ m.ram, c.1 < p.ramCapacity)
    (hlog : ∀ e ∈ m.evictions, e.2.length = p.lineWords)
    (hsets : m.sets = List.replicate (if m.cacheEnabled then p.nsets else 0) (CacheSet.cold p)) : m.Inv p := by
  refine ⟨hwf, hrange, by rw [hsets, List.length_replicate], fun s hs => ?_, hlog⟩
  have hcold : m.cacheSet s = CacheSet.cold p := by
    have hmem : m.cacheSet s ∈ m.sets := by simp [MemSys.cacheSet, List.getD, hs]
    rw [hsets] at hmem
    exact List.eq_of_mem_replicate hmem
  rw [hcold]
  exact cold_inv p m.ram s

/-! ### Reset -/

theorem inv_resetWith {p : Params} (hl : p.legal) : (State.resetWith p).Inv := by
  have hflags : flagsReservedZero 0 = true := by decide
  refine ⟨hl, inv_of_cold_sets (wf_reset p) ?_ ?_ (reset_sets p), rfl, rfl, fun _ => ⟨rfl, rfl, rfl, rfl, rfl⟩, rfl, rfl,
    rfl, rfl, fun h => ?_, hflags⟩
  · exact fun c hc => absurd hc List.not_mem_nil
  · exact fun e he => absurd he List.not_mem_nil
  · exact absurd h (Bool.false_ne_true)

/-- Settles O12. -/
theorem invariantAtReset : Obligations.InvariantAtReset := fun _ => inv_resetWith

/-! ### Records -/

/-- A decoded record: its decode fields are what its Word gives, and nothing has executed. -/
theorem decodeStep_newInstruction (w a : Word) :
    (newInstruction w a).decodeStep.sound = true ∧ (newInstruction w a).decodeStep.computed = none ∧
      (newInstruction w a).decodeStep.ea = none ∧ (newInstruction w a).decodeStep.memIssued = false ∧
      (newInstruction w a).decodeStep.memRemaining = 0 := by
  unfold InstrRecord.decodeStep InstrRecord.sound
  cases h : decode w with
  | ok i => simp [h]
  | error e => simp [h]

/-- The fields `Exec` leaves on a record that had none are those its instruction is to have before its access. -/
theorem executed_afterExec {r : InstrRecord} (hcomputed : r.computed = none) (hea : r.ea = none) (x : RegFile)
    (flags : Word) : (r.afterExec (r.stages.exec x flags)).executed false = true := by
  rw [InstrRecord.executed, afterExec_effective, afterExec_ea, afterExec_computed, hcomputed, hea, InstrRecord.stages]
  cases r.effective with
  | none => rfl
  | some i => cases i <;> rfl

/-- What `slot[E]` holds becomes, executed, what `slot[M]` may hold. -/
theorem executedOk_afterExec {r : InstrRecord} (h : (Slot.instr r).decodedOk = true) (x : RegFile) (flags : Word) :
    (Slot.instr (r.afterExec (r.stages.exec x flags))).executedOk false = true := by
  have hr : r = (newInstruction r.raw r.origin).decodeStep := by simpa [Slot.decodedOk] using h
  obtain ⟨hsound, hcomputed, hea, hissued, hremaining⟩ := decodeStep_newInstruction r.raw r.origin
  rw [← hr] at hsound hcomputed hea hissued hremaining
  have hsound' : (r.afterExec (r.stages.exec x flags)).sound = true := hsound
  simp only [Slot.executedOk, hsound', executed_afterExec hcomputed hea, afterExec_memIssued, afterExec_memRemaining,
    hissued, hremaining]
  rfl

/-- A record whose access answers has the fields its instruction is to have after it; only an access takes time. -/
theorem executed_of_memOp {r : InstrRecord} {p : Params} {m : MemSys} {o : MemOut} (h : r.executed false = true)
    (ho : r.stages.memOp p m r.ea r.computed = .ok o) (k : Nat) :
    InstrRecord.executed { r with computed := o.computed, memIssued := true, memRemaining := k } true = true ∧
      (1 ≤ o.latency → r.isAccess = true) := by
  have heff : InstrRecord.effective { r with computed := o.computed, memIssued := true, memRemaining := k } = r.effective := rfl
  rw [InstrRecord.executed] at h
  rw [InstrRecord.executed, heff, InstrRecord.isAccess]
  rw [InstrRecord.stages] at ho
  generalize r.effective = eff, r.ea = ea, r.computed = c at h ho ⊢
  have hnone (e : (.ok { computed := c, latency := 0, mem := m } : Except FaultRecord MemOut) = .ok o) :
      o.computed = c ∧ ¬ 1 ≤ o.latency := by
    obtain rfl := Except.ok.inj e
    exact ⟨rfl, by simp⟩
  cases eff with
  | none =>
    obtain ⟨hc, hlatency⟩ := hnone ho
    exact ⟨hc ▸ h, fun hpos => absurd hpos hlatency⟩
  | some i =>
    cases i with
    | ldr rd rn imm =>
      cases ea with
      | none => simp at h
      | some a =>
        cases hr : memRead p m a with
        | error k => simp [stagesOf, ldrStages, loadMemOp, hr] at ho
        | ok q =>
          obtain rfl := Except.ok.inj ((LoadStore.loadMemOp_of_memRead_ok hr c).symm.trans ho)
          exact ⟨rfl, fun _ => rfl⟩
    | str rd rn imm =>
      cases ea with
      | none => simp at h
      | some a =>
        cases c with
        | none => simp at h
        | some v =>
          cases hw : memWrite p m a v with
          | error k => simp [stagesOf, strStages, storeMemOp, hw] at ho
          | ok q =>
            obtain rfl := Except.ok.inj ((LoadStore.storeMemOp_of_memWrite_ok hw).symm.trans ho)
            exact ⟨rfl, fun _ => rfl⟩
    | nop | addi | add | sub | b | beq | bne | halt =>
      obtain ⟨hc, hlatency⟩ := hnone ho
      exact ⟨hc ▸ h, fun hpos => absurd hpos hlatency⟩

/-- `Exec` writes no reserved flag bit. -/
theorem flagsReservedZero_exec (r : InstrRecord) (x : RegFile) {flags : Word} (h : flagsReservedZero flags = true) :
    flagsReservedZero ((r.stages.exec x flags).flags.getD flags) = true := by
  rw [InstrRecord.stages]
  cases r.effective with
  | none => exact h
  | some i =>
    cases i with
    | addi | add | sub => exact flagsReservedZero_nzFlags _
    | nop | ldr | str | b | beq | bne | halt => exact h

/-! ### The five steps of a pipelined advance -/

section Steps

variable {s t : State}

theorem inv_raise (h : s.Inv) (f : FaultRecord) : (s.raise f).Inv := h

theorem inv_step1Writeback (h : s.Inv) : (step1Writeback s).Inv := by
  obtain ⟨hlegal, hmem, hstall, hF, hseq, hD, hE, hM, hW, hempty, hflags⟩ := h
  rw [step1Writeback_eq_applyRetire]
  exact ⟨hlegal, hmem, hstall, hF, fun hmode => ⟨(hseq hmode).1, (hseq hmode).2.1, (hseq hmode).2.2.1, rfl,
    (hseq hmode).2.2.2.2⟩, hD, hE, hM, rfl, fun _ => rfl, hflags⟩

/-- Issuing a record of a sound `slot[M]`: held, it may stay there under a stall; moved on, it may stand in `slot[W]`. -/
theorem issueMem_executedOk {r q : InstrRecord} {b : Bool} {p : Params} {m n : MemSys}
    (h : (Slot.instr r).executedOk b = true) (hi : issueMem p m r = .ok (q, n)) :
    (1 < q.memRemaining → (Slot.instr { q with memRemaining := q.memRemaining - 1 }).executedOk true = true) ∧
      (Slot.instr { q with memRemaining := 0 }).finishedOk = true := by
  simp only [Slot.executedOk, Slot.finishedOk, Bool.and_eq_true, beq_iff_eq, if_true, decide_eq_true_eq] at h ⊢
  obtain ⟨⟨⟨hsound, hexecuted⟩, hissued⟩, hremaining⟩ := h
  rcases issueMem_cases p m r with ⟨htrue, e⟩ | ⟨hfalse, o, ho, e⟩ | ⟨-, f, -, e⟩
  · obtain ⟨rfl, rfl⟩ := Prod.mk.inj (Except.ok.inj (e.symm.trans hi))
    obtain rfl : b = true := hissued.symm.trans htrue
    simp only [if_true, Bool.and_eq_true] at hremaining
    exact ⟨fun hlat => ⟨⟨⟨hsound, hexecuted⟩, htrue⟩, hremaining.1, by omega⟩, ⟨⟨hsound, hexecuted⟩, htrue⟩, trivial⟩
  · obtain ⟨rfl, rfl⟩ := Prod.mk.inj (Except.ok.inj (e.symm.trans hi))
    obtain rfl : b = false := hissued.symm.trans hfalse
    obtain ⟨hdone, haccess⟩ := executed_of_memOp hexecuted ho 0
    refine ⟨fun hlat => ⟨⟨⟨hsound, hdone⟩, rfl⟩, haccess (Nat.le_of_lt hlat), ?_⟩, ⟨⟨hsound, hdone⟩, rfl⟩, trivial⟩
    exact Nat.le_sub_one_of_lt hlat
  · simp [e] at hi

theorem inv_step2Memory (h : s.Inv) (hmode : s.overlapped = true) (hempty : s.slotW = .bubble)
    (e : step2Memory s = .ok t) : t.Inv := by
  obtain ⟨hlegal, hmem, -, hF, -, hD, hE, hM, -, -, hflags⟩ := h
  have hnotseq : s.overlapped = false → False := fun hs => by simp [hmode] at hs
  rcases step2Memory_ok e with ⟨-, rfl⟩ | ⟨r, q, m, hslot, hi, hlat, rfl⟩ | ⟨r, q, m, hslot, hi, hlat, rfl⟩
  · exact ⟨hlegal, hmem, rfl, hF, fun hs => (hnotseq hs).elim, hD, hE, rfl, rfl, fun _ => rfl, hflags⟩
  · rw [hslot] at hM
    obtain ⟨hheld, -⟩ := issueMem_executedOk hM hi
    exact ⟨hlegal, (Accesses.refl.issueMem hi).inv hlegal hmem, rfl, hF, fun hs => (hnotseq hs).elim, hD, hE, hheld hlat,
      (congrArg Slot.finishedOk hempty).trans rfl, fun _ => hempty, hflags⟩
  · rw [hslot] at hM
    obtain ⟨-, hmoved⟩ := issueMem_executedOk hM hi
    exact ⟨hlegal, (Accesses.refl.issueMem hi).inv hlegal hmem, rfl, hF, fun hs => (hnotseq hs).elim, hD, hE, rfl, hmoved,
      fun hst => absurd (show false = true from hst) (by decide), hflags⟩

theorem inv_step3Execute (h : s.Inv) (hmode : s.overlapped = true) (e : step3Execute s = .ok t) : t.Inv := by
  rcases step3Execute_ok e with ⟨-, rfl⟩ | ⟨hst, -, rfl⟩ | ⟨hst, r, hslot, -, rfl⟩
  · exact h
  all_goals
    obtain ⟨hlegal, hmem, hstall, hF, -, hD, hE, -, hW, -, hflags⟩ := h
    have hnotseq : s.overlapped = false → False := fun hs => by simp [hmode] at hs
    have hnotstalled : s.stalledMemory = true → False := fun hs => by simp [hst] at hs
  · exact ⟨hlegal, hmem, hstall, hF, fun hs => (hnotseq hs).elim, hD, rfl, by rw [hst]; rfl, hW,
      fun hs => (hnotstalled hs).elim, hflags⟩
  · refine ⟨hlegal, hmem, hstall, hF, fun hs => (hnotseq hs).elim, ?_, rfl, ?_, hW, fun hs => (hnotstalled hs).elim,
      flagsReservedZero_exec r s.x hflags⟩
    · dsimp only
      split_ifs
      · rfl
      · exact hD
    · rw [hslot] at hE
      dsimp only [applyExec_stalledMemory]
      rw [hst]
      exact executedOk_afterExec hE s.x s.flags

theorem inv_step4Decode (h : s.Inv) (hmode : s.overlapped = true) : (step4Decode s).Inv := by
  cases hst : s.stalledMemory with
  | true => simpa only [step4Decode, hst, if_true] using h
  | false =>
    obtain ⟨hlegal, hmem, hstall, hF, -, hD, -, hM, hW, hempty, hflags⟩ := h
    have hnotseq : s.overlapped = false → False := fun hs => by simp [hmode] at hs
    rw [step4Decode, if_neg (by simp [hst])]
    refine ⟨hlegal, hmem, hstall, hF, fun hs => (hnotseq hs).elim, rfl, ?_, hM, hW, hempty, hflags⟩
    cases hslot : s.slotD with
    | bubble => rfl
    | instr r =>
      rw [hslot] at hD
      have hr : r = newInstruction r.raw r.origin := by simpa [Slot.fetchedOk] using hD
      obtain ⟨hraw, horigin⟩ := decodeStep_ids r
      simp only [Slot.decodedOk, hraw, horigin, ← hr, beq_self_eq_true]

theorem inv_step5Fetch (h : s.Inv) (hmode : s.overlapped = true) (e : step5Fetch s = .ok t) : t.Inv := by
  obtain ⟨hlegal, hmem, hstall, -, -, hD, hE, hM, hW, hempty, hflags⟩ := h
  have hnotseq : s.overlapped = false → False := fun hs => by simp [hmode] at hs
  rcases step5Fetch_ok e with ⟨-, rfl⟩ | ⟨-, w, u, hf, rfl⟩
  · exact ⟨hlegal, hmem, hstall, rfl, fun hs => (hnotseq hs).elim, hD, hE, hM, hW, hempty, hflags⟩
  · obtain ⟨ha, -, rfl⟩ := fetchWord_ok_iff.1 hf
    refine ⟨hlegal, (Accesses.refl.read ha).inv hlegal hmem, hstall, rfl, fun hs => (hnotseq hs).elim, ?_, hE, hM, hW,
      hempty, hflags⟩
    simp [Slot.fetchedOk]

/-- A pipelined advance keeps the invariant, wherever an error ends it. -/
theorem inv_advancePipelined (h : s.Inv) (hmode : s.overlapped = true) : (advancePipelined s).Inv := by
  have h1 : (step1Writeback s).Inv ∧ (step1Writeback s).overlapped = true :=
    ⟨inv_step1Writeback h, (step1Writeback_overlapped s).trans hmode⟩
  refine (advancePipelined_induct (P := fun u => u.Inv ∧ u.overlapped = true) h1 (fun _ _ hu => hu)
    (fun v e => ⟨inv_step2Memory h1.1 h1.2 (step1Writeback_slotW s) e, ?_⟩)
    (fun u v hu e => ⟨inv_step3Execute hu.1 hu.2 e, ?_⟩) (fun u hu => ⟨inv_step4Decode hu.1 hu.2, ?_⟩)
    (fun u v hu e => ⟨inv_step5Fetch hu.1 hu.2 e, ?_⟩) (fun _ _ hu => hu)).1
  · obtain ⟨-, -, -, -, -, -, -, -, hm, -⟩ := step2Memory_frame e
    exact hm.trans h1.2
  · obtain ⟨-, -, -, -, -, -, hm, -⟩ := step3Execute_frame e
    exact hm.trans hu.2
  · obtain ⟨-, -, -, -, -, -, -, -, hm, -⟩ := step4Decode_frame u
    exact hm.trans hu.2
  · obtain ⟨-, -, -, -, -, -, -, hm, -⟩ := step5Fetch_frame e
    exact hm.trans hu.2

/-! ### A sequential advance -/

theorem inv_fetchWord {w : Word} (h : s.Inv) (e : fetchWord s = .ok (w, t)) : t.Inv := by
  obtain ⟨hlegal, hmem, hrest⟩ := h
  obtain ⟨ha, -, rfl⟩ := fetchWord_ok_iff.1 e
  exact ⟨hlegal, (Accesses.refl.read ha).inv hlegal hmem, hrest⟩

/-- `Exec` of an instruction writes no reserved flag bit. -/
theorem flagsReservedZero_exec_stagesOf (i : Instr) (x : RegFile) {flags : Word} (h : flagsReservedZero flags = true) :
    flagsReservedZero (((stagesOf i).exec x flags).flags.getD flags) = true :=
  flagsReservedZero_exec { newInstruction 0 0 with decoded := some i } x h

theorem inv_runWhole {i : Instr} (h : s.Inv) (e : runWhole (stagesOf i) s = .next t) : t.Inv := by
  obtain ⟨hlegal, hmem, hstall, hF, hseq, hD, hE, hM, hW, hempty, hflags⟩ := h
  have hflags' := flagsReservedZero_exec_stagesOf i s.x hflags
  rcases runWhole_cases (stagesOf i) s with ⟨o, ho, e'⟩ | ⟨r, -, e'⟩
  · obtain rfl := Host.Outcome.next.inj (e'.symm.trans e)
    exact ⟨hlegal, (Accesses.refl.memOp ho).inv hlegal hmem, hstall, hF, hseq, hD, hE, hM, hW, hempty, hflags'⟩
  · obtain rfl := Host.Outcome.next.inj (e'.symm.trans e)
    exact ⟨hlegal, hmem, hstall, hF, hseq, hD, hE, hM, hW, hempty, hflags'⟩

end Steps

/-- Settles O13: each of the five steps keeps the invariant, and so do a fetch and a whole instruction. -/
theorem stepKeepsInvariant : Obligations.StepKeepsInvariant := by
  intro s t h hstep
  rcases step_cases s with ⟨-, e⟩ | ⟨⟨-, hmode⟩, e⟩ | ⟨-, ⟨f, -, e⟩ | ⟨w, u, i, hf, -, e⟩ | ⟨w, u, err, hf, -, e⟩⟩
  · obtain rfl := Host.Outcome.next.inj (e.symm.trans hstep)
    exact h
  · obtain rfl := Host.Outcome.next.inj (e.symm.trans hstep)
    exact inv_advancePipelined h hmode
  · obtain rfl := Host.Outcome.next.inj (e.symm.trans hstep)
    exact inv_raise h f
  · exact inv_runWhole (inv_fetchWord h hf) (e.symm.trans hstep)
  · rw [runWhole_inertStages] at e
    obtain rfl := Host.Outcome.next.inj (e.symm.trans hstep)
    have hfetched := inv_fetchWord h hf
    exact hfetched

/-! ### Host operations -/

section HostOperations

variable {s t : State}

theorem inv_of_mem {m : MemSys} (h : s.Inv) (hm : m.Inv s.params) : ({ s with mem := m } : State).Inv := by
  obtain ⟨hlegal, -, hrest⟩ := h
  exact ⟨hlegal, hm, hrest⟩

theorem enableCache_inv {m : MemSys} {p : Params} (h : m.Inv p) : (m.enableCache p).Inv p := by
  obtain ⟨hwf, hrange, -, -, hlog⟩ := h
  exact inv_of_cold_sets hwf hrange hlog rfl

theorem disableCache_inv {m : MemSys} {p : Params} (h : m.Inv p) : m.disableCache.Inv p := by
  obtain ⟨hwf, hrange, -, -, hlog⟩ := h
  exact inv_of_cold_sets hwf hrange hlog rfl

/-- Behind a cold cache RAM may change freely: no line has to agree with it. -/
theorem inv_of_cold_of_ram {m : MemSys} {p : Params} {ram : Memory} (h : m.Inv p) (hcold : m.cold = true) (hwf : ram.wf)
    (hrange : ∀ c ∈ ram, c.1 < p.ramCapacity) : ({ m with ram := ram } : MemSys).Inv p := by
  obtain ⟨-, -, -, -, hlog⟩ := id h
  refine Cache.inv_of_sets_eq h rfl rfl hwf hrange hlog fun i hi l hl hv => ?_
  have hmem : m.cacheSet i ∈ m.sets := by simp [MemSys.cacheSet, List.getD, hi]
  rw [cold_iff.1 hcold _ hmem l hl] at hv
  exact absurd hv Bool.false_ne_true

theorem beforeFirstAdvance_iff : s.beforeFirstAdvance = true ↔
    s.cycles = 0 ∧ s.fault = none ∧ s.slotF = .bubble ∧ s.slotD = .bubble ∧ s.slotE = .bubble ∧ s.slotM = .bubble ∧
      s.slotW = .bubble ∧ s.mem.cold = true := by
  simp only [State.beforeFirstAdvance, Bool.and_eq_true, beq_iff_eq, Option.isNone_iff_eq_none, and_assoc]

theorem drained_iff : s.drained = true ↔
    s.slotF = .bubble ∧ s.slotD = .bubble ∧ s.slotE = .bubble ∧ s.slotM = .bubble ∧ s.slotW = .bubble ∧
      s.stalledFetch = false ∧ s.stalledMemory = false := by
  simp only [State.drained, Bool.and_eq_true, beq_iff_eq, Bool.not_eq_true', and_assoc]

theorem setMode_of_drained (h : s.drained = true) (b : Bool) : s.setMode b = .next { s with overlapped := b } :=
  if_pos h

theorem setMode_of_not_drained (h : ¬ s.drained = true) (b : Bool) : s.setMode b = .refused .notDrained := if_neg h

theorem inv_setMode {b : Bool} (h : s.Inv) (e : s.setMode b = .next t) : t.Inv := by
  by_cases hd : s.drained = true
  · rw [setMode_of_drained hd] at e
    obtain rfl := Host.Outcome.next.inj e
    obtain ⟨-, hD, hE, hM, hW, -, hst⟩ := drained_iff.1 hd
    obtain ⟨hlegal, hmem, hstall, hF, -, hrest⟩ := h
    exact ⟨hlegal, hmem, hstall, hF, fun _ => ⟨hD, hE, hM, hW, hst⟩, hrest⟩
  · rw [setMode_of_not_drained hd] at e
    simp at e

/-- The cases of `ram_write` (R216). -/
theorem ramWrite_next {a : Nat} {v : Word} (e : s.ramWrite a v = .next t) :
    s.beforeFirstAdvance = true ∧ a < s.params.ramCapacity ∧
      t = { s with mem := { s.mem with ram := s.mem.ram.write a v } } := by
  unfold State.ramWrite at e
  split_ifs at e with hbefore hrange
  obtain rfl := Host.Outcome.next.inj e
  exact ⟨by simpa using hbefore, Nat.lt_of_not_le hrange, rfl⟩

/-- The cases of `load_program` (R216). -/
theorem loadProgram_next {ws : List Word} (e : s.loadProgram ws = .next t) :
    s.beforeFirstAdvance = true ∧ ws.length ≤ s.params.ramCapacity ∧
      t = { s with mem := { s.mem with ram := s.mem.ram.writeAll 0 ws } } := by
  unfold State.loadProgram at e
  split_ifs at e with hbefore hrange
  obtain rfl := Host.Outcome.next.inj e
  exact ⟨by simpa using hbefore, Nat.le_of_not_lt hrange, rfl⟩

theorem cold_of_beforeFirstAdvance (h : s.beforeFirstAdvance = true) : s.mem.cold = true := by
  obtain ⟨-, -, -, -, -, -, -, hcold⟩ := beforeFirstAdvance_iff.1 h
  exact hcold

/-- Settles O14: a toggle leaves cold sets, a write to RAM comes before the first advance, behind cold sets. -/
theorem hostOperationsKeepInvariant : Obligations.HostOperationsKeepInvariant := by
  intro s h
  obtain ⟨hlegal, hmem, -⟩ := id h
  obtain ⟨hwf, hrange, -⟩ := id hmem
  refine ⟨inv_of_mem h (enableCache_inv hmem), inv_of_mem h (disableCache_inv hmem), inv_resetWith hlegal,
    fun b t e => inv_setMode h e, fun a v t e => ?_, fun ws t e => ?_⟩
  · obtain ⟨hbefore, ha, rfl⟩ := ramWrite_next e
    exact inv_of_mem h (inv_of_cold_of_ram hmem (cold_of_beforeFirstAdvance hbefore) (wf_write hwf a v)
      (range_write hrange ha))
  · obtain ⟨hbefore, hlen, rfl⟩ := loadProgram_next e
    exact inv_of_mem h (inv_of_cold_of_ram hmem (cold_of_beforeFirstAdvance hbefore) (wf_writeAll hwf 0 ws)
      (range_writeAll hrange (by omega)))

end HostOperations

end Sys2Proof.Proofs.Invariant

/-! What memory reads as after a step: as before it, but for the store the step issues (spec/20_memory.md R70, R74, R78). -/

namespace Sys2Proof.Proofs.View

open Sys2Proof.Machine Sys2Proof.Laws Sys2Proof.Proofs.LoadStore Sys2Proof.Proofs.Engine Sys2Proof.Proofs.Cache
  Sys2Proof.Proofs.StepFrame Sys2Proof.Proofs.Invariant

/-! ### The store of a memory operation -/

/-- The store in range that an instruction issues with these fields: that of `STR`. -/
def storeOf (p : Params) (i : Instr) (ea computed : Option Word) : Option (Word × Word) :=
  match i, ea, computed with
  | .str _ _ _, some a, some v => if a.toNat < p.ramCapacity then some (a, v) else none
  | _, _, _ => none

/-- What an address reads as when the store, if there is one, has been made. -/
def viewAfter (p : Params) (m : MemSys) (st : Option (Word × Word)) (b : Nat) : Word :=
  match st with
  | some (a, v) => if b = a.toNat then v else m.view p b
  | none => m.view p b

section MemoryOperation

variable {p : Params} {m n : MemSys} {i : Instr} {ea c : Option Word} {o : MemOut} {f : FaultRecord}

theorem viewAfter_congr (h : ∀ b, n.view p b = m.view p b) (st : Option (Word × Word)) (b : Nat) :
    viewAfter p n st b = viewAfter p m st b := by
  cases st with
  | none => exact h b
  | some q => simp only [viewAfter, h]

theorem storeMemOp_view (hl : p.legal) (hI : m.Inv p) (rd rn : RegNum) (imm : Imm18) (ho : storeMemOp p m ea c = .ok o)
    (b : Nat) : o.mem.view p b = viewAfter p m (storeOf p (.str rd rn imm) ea c) b := by
  cases ea with
  | none =>
    obtain rfl := Except.ok.inj ho
    rfl
  | some a =>
    cases c with
    | none =>
      obtain rfl := Except.ok.inj ho
      rfl
    | some v =>
      by_cases ha : a.toNat < p.ramCapacity
      · obtain rfl := Except.ok.inj ((storeMemOp_of_memWrite_ok (memWrite_ok_iff.2 ⟨ha, rfl⟩)).symm.trans ho)
        simp only [storeOf, viewAfter, if_pos ha]
        split_ifs with hb
        · rw [hb]
          exact cacheWrite_view_same hl hI ha v
        · exact cacheWrite_view_ne hl hI ha v hb
      · rw [storeMemOp_of_outOfRange (Nat.le_of_not_lt ha)] at ho
        cases ho

theorem loadMemOp_view (hl : p.legal) (hI : m.Inv p) (ho : loadMemOp p m ea c = .ok o) (b : Nat) :
    o.mem.view p b = m.view p b := by
  cases ea with
  | none =>
    obtain rfl := Except.ok.inj ho
    rfl
  | some a =>
    by_cases ha : a.toNat < p.ramCapacity
    · obtain rfl := Except.ok.inj ((loadMemOp_of_memRead_ok (memRead_ok_iff.2 ⟨ha, rfl⟩) c).symm.trans ho)
      exact cacheRead_view hl hI ha b
    · rw [loadMemOp_of_outOfRange (Nat.le_of_not_lt ha)] at ho
      cases ho

/-- A memory operation changes what one address reads as, the one it stores to (R70). -/
theorem memOp_view (hl : p.legal) (hI : m.Inv p) (ho : (stagesOf i).memOp p m ea c = .ok o) (b : Nat) :
    o.mem.view p b = viewAfter p m (storeOf p i ea c) b := by
  cases i with
  | ldr => exact loadMemOp_view hl hI ho b
  | str rd rn imm => exact storeMemOp_view hl hI rd rn imm ho b
  | nop | addi | add | sub | b | beq | bne | halt =>
    obtain rfl := Except.ok.inj ho
    rfl

/-- A memory operation that raises stores nothing. -/
theorem storeOf_of_memOp_error (ho : (stagesOf i).memOp p m ea c = .error f) : storeOf p i ea c = none := by
  cases i with
  | str rd rn imm =>
    cases ea with
    | none => rfl
    | some a =>
      cases c with
      | none => rfl
      | some v =>
        by_cases ha : a.toNat < p.ramCapacity
        · cases (storeMemOp_of_memWrite_ok (memWrite_ok_iff.2 ⟨ha, rfl⟩)).symm.trans ho
        · exact if_neg ha
  | nop | ldr | addi | add | sub | b | beq | bne | halt => rfl

end MemoryOperation

/-! ### The store of a pipelined step -/

/-- The store in range that step 2 issues for what a slot holds: none for a record issued before. -/
def slotStore (p : Params) : Slot → Option (Word × Word)
  | .bubble => none
  | .instr r =>
    if r.memIssued then none
    else
      match r.effective with
      | some i => storeOf p i r.ea r.computed
      | none => none

section Pipelined

variable {s t : State} {p : Params} {m n : MemSys} {r q : InstrRecord} {f : FaultRecord}

theorem slotStore_of_issued (h : r.memIssued = true) : slotStore p (.instr r) = none := if_pos h

theorem slotStore_of_effective {i : Instr} (h : r.memIssued = false) (he : r.effective = some i) :
    slotStore p (.instr r) = storeOf p i r.ea r.computed := by
  simp only [slotStore, h, he, Bool.false_eq_true, if_false]

theorem slotStore_of_inert (h : r.effective = none) : slotStore p (.instr r) = none := by
  simp only [slotStore, h, ite_self]

theorem issueMem_view (hl : p.legal) (hI : m.Inv p) (hi : issueMem p m r = .ok (q, n)) (b : Nat) :
    n.view p b = viewAfter p m (slotStore p (.instr r)) b := by
  rcases issueMem_cases p m r with ⟨htrue, e⟩ | ⟨hfalse, o, ho, e⟩ | ⟨-, f, -, e⟩
  · obtain ⟨-, rfl⟩ := Prod.mk.inj (Except.ok.inj (e.symm.trans hi))
    rw [slotStore_of_issued htrue]
    rfl
  · obtain ⟨-, rfl⟩ := Prod.mk.inj (Except.ok.inj (e.symm.trans hi))
    rcases stages_cases r with ⟨hinert, hst⟩ | ⟨i, heff, hst⟩
    · rw [hst] at ho
      obtain rfl := Except.ok.inj ho
      rw [slotStore_of_inert hinert]
      rfl
    · rw [hst] at ho
      rw [slotStore_of_effective hfalse heff]
      exact memOp_view hl hI ho b
  · simp [e] at hi

theorem slotStore_of_issueMem_error (hi : issueMem p m r = .error f) : slotStore p (.instr r) = none := by
  rcases issueMem_cases p m r with ⟨-, e⟩ | ⟨-, o, -, e⟩ | ⟨hfalse, f, ho, -⟩
  · simp [e] at hi
  · simp [e] at hi
  · rcases stages_cases r with ⟨hinert, -⟩ | ⟨i, heff, hst⟩
    · exact slotStore_of_inert hinert
    · rw [hst] at ho
      rw [slotStore_of_effective hfalse heff]
      exact storeOf_of_memOp_error ho

/-- The store a pipelined step issues is that of `slot[M]`. -/
theorem storeIssued_of_pipelining (hp : s.pipelining) : s.storeIssued = slotStore s.params s.slotM := by
  obtain ⟨hrunning, hmode⟩ := hp
  simp only [State.storeIssued, hrunning, hmode, Bool.false_eq_true, if_false, if_true]
  cases s.slotM with
  | bubble => rfl
  | instr r =>
    cases hissued : r.memIssued with
    | true =>
      rw [slotStore_of_issued hissued]
      simp only [hissued]
      split <;> simp_all
    | false =>
      simp only [slotStore, hissued]
      cases r.effective with
      | none => rfl
      | some i => cases i <;> cases r.ea <;> cases r.computed <;> rfl

/-- Step 2 changes what one address reads as, the one its store goes to. -/
theorem step2Memory_view (hl : s.params.legal) (hI : s.mem.Inv s.params) (e : step2Memory s = .ok t) (b : Nat) :
    t.mem.view s.params b = viewAfter s.params s.mem (slotStore s.params s.slotM) b := by
  rcases step2Memory_ok e with ⟨hslot, rfl⟩ | ⟨r, q, m, hslot, hi, -, rfl⟩ | ⟨r, q, m, hslot, hi, -, rfl⟩
  · rw [hslot]
    rfl
  · rw [hslot]
    exact issueMem_view hl hI hi b
  · rw [hslot]
    exact issueMem_view hl hI hi b

/-- A fetch changes no view. -/
theorem step5Fetch_view (hl : s.params.legal) (hI : s.mem.Inv s.params) (e : step5Fetch s = .ok t) (b : Nat) :
    t.mem.view s.params b = s.mem.view s.params b := by
  rcases step5Fetch_ok e with ⟨-, rfl⟩ | ⟨-, w, u, hf, rfl⟩
  · rfl
  · obtain ⟨ha, -, rfl⟩ := fetchWord_ok_iff.1 hf
    exact cacheRead_view hl hI ha b

/-- Steps 3 and 4 change neither memory nor the parameters. -/
theorem step4Decode_mem_params {s2 s3 : State} (h3 : step3Execute s2 = .ok s3) :
    (step4Decode s3).mem = s2.mem ∧ (step4Decode s3).params = s2.params := by
  obtain ⟨-, -, -, -, -, hparams3, -, -, -, -, -, hmem3⟩ := step3Execute_frame h3
  obtain ⟨-, -, -, -, -, -, -, hparams4, -, -, -, -, -, -, hmem4⟩ := step4Decode_frame s3
  exact ⟨hmem4.trans hmem3, hparams4.trans hparams3⟩

theorem advancePipelined_view (h : s.Inv) (hp : s.pipelining) (b : Nat) :
    (advancePipelined s).mem.view s.params b = viewAfter s.params s.mem s.storeIssued b := by
  have hI1 := inv_step1Writeback h
  have hmode1 : (step1Writeback s).overlapped = true := (step1Writeback_overlapped s).trans hp.2
  have h2view {s2 : State} (e2 : step2Memory (step1Writeback s) = .ok s2) :
      s2.params = s.params ∧ s2.mem.Inv s.params ∧
        s2.mem.view s.params b = viewAfter s.params s.mem s.storeIssued b := by
    obtain ⟨-, -, -, -, -, -, -, hparams2, -⟩ := step2Memory_frame e2
    obtain ⟨hlegal, hmem, -⟩ := id hI1
    have hview := step2Memory_view hlegal hmem e2 b
    obtain ⟨-, hmem2, -⟩ := inv_step2Memory hI1 hmode1 (step1Writeback_slotW s) e2
    rw [hparams2, step1Writeback_params] at hmem2
    rw [step1Writeback_params, step1Writeback_mem, step1Writeback_slotM, ← storeIssued_of_pipelining hp] at hview
    exact ⟨hparams2.trans (step1Writeback_params s), hmem2, hview⟩
  rcases advancePipelined_cases s with ⟨f, e2, e⟩ | ⟨s2, f, e2, -, e⟩ | ⟨s2, s3, f, e2, e3, -, e⟩ | ⟨s2, s3, s5, e2, e3, e5, e⟩
  · -- Memory raises: the store was out of range.
    obtain ⟨r, hslot, hi⟩ := step2Memory_error e2
    rw [storeIssued_of_pipelining hp, ← step1Writeback_slotM, hslot, ← step1Writeback_params, slotStore_of_issueMem_error hi, e, raise_mem, step1Writeback_mem]
    rfl
  · -- Execute raises.
    rw [e, raise_mem]
    exact (h2view e2).2.2
  · -- Fetch raises.
    rw [e, raise_mem, (step4Decode_mem_params e3).1]
    exact (h2view e2).2.2
  · -- All five steps complete.
    obtain ⟨hparams2, hmem2, hview⟩ := h2view e2
    obtain ⟨hmem4, hparams4⟩ := step4Decode_mem_params e3
    obtain ⟨hlegal, -⟩ := h
    rw [hparams2] at hparams4
    have hfetch := step5Fetch_view (s := step4Decode s3) (by rw [hparams4]; exact hlegal)
      (by rw [hparams4, hmem4]; exact hmem2) e5 b
    rw [hparams4, hmem4, hview] at hfetch
    rw [e]
    exact hfetch

end Pipelined

/-! ### The store of a sequential step -/

section Sequential

variable {s t : State}

/-- The store a sequential step issues is that of the instruction at pc (R149). -/
theorem storeIssued_of_sequencing (hs : s.sequencing) (hpc : s.pc.toNat < s.params.ramCapacity) {i : Instr}
    (hd : decode (s.mem.view s.params s.pc.toNat) = .ok i) :
    s.storeIssued = storeOf s.params i ((stagesOf i).exec s.x s.flags).ea ((stagesOf i).exec s.x s.flags).computed := by
  obtain ⟨hrunning, hmode⟩ := hs
  simp only [State.storeIssued, hrunning, hmode, Bool.false_eq_true, if_false, if_pos hpc, hd]
  cases i <;> rfl

theorem storeIssued_of_undecodable (hs : s.sequencing) {err : DecodeError}
    (hd : decode (s.mem.view s.params s.pc.toNat) = .error err) : s.storeIssued = none := by
  obtain ⟨hrunning, hmode⟩ := hs
  simp only [State.storeIssued, hrunning, hmode, Bool.false_eq_true, if_false, hd, ite_self]

theorem storeIssued_of_fetch_outOfRange (hs : s.sequencing) (hpc : s.params.ramCapacity ≤ s.pc.toNat) :
    s.storeIssued = none := by
  obtain ⟨hrunning, hmode⟩ := hs
  simp only [State.storeIssued, hrunning, hmode, Bool.false_eq_true, if_false, if_neg (Nat.not_lt.2 hpc)]

theorem runWhole_view {i : Instr} (hl : s.params.legal) (hI : s.mem.Inv s.params)
    (e : runWhole (stagesOf i) s = .next t) (b : Nat) :
    t.mem.view s.params b = viewAfter s.params s.mem
      (storeOf s.params i ((stagesOf i).exec s.x s.flags).ea ((stagesOf i).exec s.x s.flags).computed) b := by
  rcases runWhole_cases (stagesOf i) s with ⟨o, ho, e'⟩ | ⟨r, ho, e'⟩
  · obtain rfl := Host.Outcome.next.inj (e'.symm.trans e)
    exact memOp_view hl hI ho b
  · obtain rfl := Host.Outcome.next.inj (e'.symm.trans e)
    rw [storeOf_of_memOp_error ho]
    rfl

end Sequential

/-- What memory reads as after a step from a sound state. -/
theorem step_view {s t : State} (h : s.Inv) (hstep : step s = .next t) (b : Nat) :
    t.mem.view t.params b = viewAfter s.params s.mem s.storeIssued b := by
  obtain ⟨-, -, hparams, -⟩ := step_sameFrame hstep
  obtain ⟨hlegal, hmem, -⟩ := id h
  rw [hparams]
  rcases step_cases s with ⟨hstopped, e⟩ | ⟨hp, e⟩ | ⟨hs, ⟨f, hf, e⟩ | ⟨w, u, i, hf, hd, e⟩ | ⟨w, u, err, hf, hd, e⟩⟩
  · obtain rfl := Host.Outcome.next.inj (e.symm.trans hstep)
    simp only [State.storeIssued, hstopped, if_true, viewAfter]
  · obtain rfl := Host.Outcome.next.inj (e.symm.trans hstep)
    exact advancePipelined_view h hp b
  · obtain rfl := Host.Outcome.next.inj (e.symm.trans hstep)
    rw [storeIssued_of_fetch_outOfRange hs (fetchWord_error_iff.1 hf).1]
    rfl
  · obtain ⟨ha, rfl, rfl⟩ := fetchWord_ok_iff.1 hf
    rw [cacheRead_word hlegal hmem ha] at hd
    rw [storeIssued_of_sequencing hs ha hd, ← viewAfter_congr fun b => cacheRead_view hlegal hmem ha b]
    exact runWhole_view (s := { s with mem := (s.mem.cacheRead s.params s.pc.toNat).mem, pc := s.pc + 1 }) hlegal
      (cacheRead_inv hlegal hmem ha) (e.symm.trans hstep) b
  · obtain ⟨ha, rfl, rfl⟩ := fetchWord_ok_iff.1 hf
    rw [cacheRead_word hlegal hmem ha] at hd
    rw [runWhole_inertStages] at e
    obtain rfl := Host.Outcome.next.inj (e.symm.trans hstep)
    rw [storeIssued_of_undecodable hs hd]
    exact cacheRead_view hlegal hmem ha b

/-- Settles O56. -/
theorem viewChangesOnlyByStore : Obligations.ViewChangesOnlyByStore := fun _ _ h hstep b _ => step_view h hstep b

end Sys2Proof.Proofs.View

/-! What a pipelined advance does, with and without an error (spec/40_pipeline_engine.md R133 to R137, R144, R146; spec/60_exceptions.md
R231, R232; spec/70_reset_and_hazards.md R263, R264; spec/20_memory.md R74). -/

namespace Sys2Proof.Proofs.Pipeline

open Sys2Proof.Machine Sys2Proof.Laws Sys2Proof.Proofs.Engine Sys2Proof.Proofs.LoadStore Sys2Proof.Proofs.Branch
  Sys2Proof.Proofs.Driver Sys2Proof.Proofs.Cache Sys2Proof.Proofs.StepFrame Sys2Proof.Proofs.Invariant

variable {s t : State}

/-! ### An advance that no error stops -/

/-- What `slot[M]` holds when Execute has processed what `slot[E]` held (R135). -/
def executedSlot (o : ExecOut) : Slot → Slot
  | .bubble => .bubble
  | .instr r => .instr (r.afterExec o)

/-- An error-free advance under a stall is step 2, and the count. -/
theorem advance_stalled (hp : s.pipelining) (hstep : step s = .next t) (hfault : t.fault = none)
    (hst : t.stalledMemory = true) :
    ∃ s2, step2Memory (step1Writeback s) = .ok s2 ∧ s2.stalledMemory = true ∧
      t = { s2 with slotF := .bubble, cycles := s2.cycles + 1 } := by
  obtain ⟨s2, s3, s5, h2, h3, h5, rfl⟩ := advance_without_error hp hstep hfault
  obtain ⟨-, -, -, -, -, -, -, -, -, -, -, -, hstalls⟩ := step2Memory_frame h2
  have hst2 : s2.stalledMemory = true := (steps_3_to_5_stalledMemory h3 h5).symm.trans hst
  obtain rfl := steps_3_to_5_stalled hstalls hst2 h3 h5
  exact ⟨s2, h2, hst2, rfl⟩

/-- An error-free advance without a stall: step 2, then Execute, Decode and Fetch of what stood in the slots before it. -/
theorem advance_unstalled (hp : s.pipelining) (hstep : step s = .next t) (hfault : t.fault = none)
    (hst : t.stalledMemory = false) :
    ∃ s2, step2Memory (step1Writeback s) = .ok s2 ∧ s2.stalledMemory = false ∧ t.slotW = s2.slotW ∧
      t.flags = s.executeOut.flags.getD s.flags ∧ t.slotM = executedSlot s.executeOut s.slotE ∧
      t.slotE = (if s.executeOut.redirect.isSome then .bubble else s.slotD.afterDecode) ∧
      t.pc = s.executeOut.redirect.getD s.pc + 1 ∧
      (s.executeOut.redirect.getD s.pc).toNat < s.params.ramCapacity ∧
      t.mem = (s2.mem.cacheRead s.params (s.executeOut.redirect.getD s.pc).toNat).mem ∧
      t.slotD = .instr (newInstruction (s2.mem.cacheRead s.params (s.executeOut.redirect.getD s.pc).toNat).word
        (s.executeOut.redirect.getD s.pc)) := by
  obtain ⟨s2, s3, s5, h2, h3, h5, rfl⟩ := advance_without_error hp hstep hfault
  obtain ⟨hout, -⟩ := executeOut_eq h2
  obtain ⟨-, -, hflags2, hpc2, -, -, -, hparams2, -, hE2, hD2, -, hstalls⟩ := step2Memory_frame h2
  rw [step1Writeback_flags] at hflags2
  rw [step1Writeback_pc] at hpc2
  rw [step1Writeback_params] at hparams2
  rw [step1Writeback_slotE] at hE2
  rw [step1Writeback_slotD] at hD2
  have hst2 : s2.stalledMemory = false := (steps_3_to_5_stalledMemory h3 h5).symm.trans hst
  obtain ⟨hflags, hM, hE, hpc, hD, hmem, hcap⟩ := steps_3_to_5_unstalled hstalls hst2 h3 h5
  rw [← hout] at hflags hM hE hpc hD hmem hcap
  rw [hflags2] at hflags
  rw [hE2] at hM
  rw [hD2] at hE
  rw [hpc2] at hpc hD hmem hcap
  rw [hparams2] at hD hmem hcap
  obtain ⟨-, -, -, -, -, -, -, hW3, -⟩ := step3Execute_frame h3
  obtain ⟨-, -, -, -, -, -, -, -, -, hW4, -⟩ := step4Decode_frame s3
  obtain ⟨-, -, -, -, -, -, -, -, hW5, -⟩ := step5Fetch_frame h5
  exact ⟨s2, h2, hst2, hW5.trans (hW4.trans hW3), hflags, hM, hE, hpc, hcap, hmem, hD⟩

/-- While it stalls, step 2 puts nothing into `slot[W]`, which step 1 has emptied. -/
theorem slotW_of_stalled {s2 : State} (h2 : step2Memory (step1Writeback s) = .ok s2) (hst : s2.stalledMemory = true) :
    s2.slotW = .bubble := by
  rcases step2Memory_ok h2 with ⟨-, rfl⟩ | ⟨r, q, m, -, -, -, rfl⟩ | ⟨r, q, m, -, -, -, rfl⟩
  · rfl
  · exact step1Writeback_slotW s
  · exact absurd (show false = true from hst) Bool.false_ne_true

/-- Settles O45. -/
theorem unstalledAdvanceMoves : Obligations.UnstalledAdvanceMoves := by
  refine fun s t hp hstep hfault => ⟨fun hst => ?_, fun hst => ?_⟩
  · obtain ⟨s2, -, -, -, hflags, hM, hE, hpc, -, -, hD⟩ := advance_unstalled hp hstep hfault hst
    refine ⟨hflags, hM.trans ?_, hE, hpc, _, hD⟩
    cases s.slotE <;> rfl
  · obtain ⟨s2, h2, hst2, rfl⟩ := advance_stalled hp hstep hfault hst
    have hW := slotW_of_stalled h2 hst2
    obtain ⟨-, -, hflags, hpc, -, -, -, -, -, hE, hD, -⟩ := step2Memory_frame h2
    exact ⟨hflags.trans (step1Writeback_flags s), hE.trans (step1Writeback_slotE s), hD.trans (step1Writeback_slotD s),
      hpc.trans (step1Writeback_pc s), hW⟩

/-- Settles O46: the fetch is the advance's last access, and it changes no view. -/
theorem fetchedWordIsTheView : Obligations.FetchedWordIsTheView := by
  intro s t h hp hstep hfault hst
  obtain ⟨s2, h2, -, -, -, -, -, hpc, hcap, hmem, hD⟩ := advance_unstalled hp hstep hfault hst
  obtain ⟨-, -, hparams, -⟩ := step_sameFrame hstep
  obtain ⟨hlegal, hmem2, -⟩ := inv_step2Memory (inv_step1Writeback h) ((step1Writeback_overlapped s).trans hp.2)
    (step1Writeback_slotW s) h2
  obtain ⟨-, -, -, -, -, -, -, hparams2, -⟩ := step2Memory_frame h2
  rw [hparams2, step1Writeback_params] at hlegal hmem2
  refine ⟨_, _, hD, hpc, hcap, ?_⟩
  rw [hparams, hmem, cacheRead_view hlegal hmem2 hcap, cacheRead_word hlegal hmem2 hcap]

/-! ### The order of the instructions in flight -/

theorem ids_afterDecode (d : Slot) : d.afterDecode.ids = d.ids := by
  cases d with
  | bubble => rfl
  | instr r =>
    obtain ⟨hraw, horigin⟩ := decodeStep_ids r
    simp only [Slot.afterDecode, Slot.ids, hraw, horigin]

theorem ids_executedSlot (o : ExecOut) (e : Slot) : (executedSlot o e).ids = e.ids := by
  cases e <;> rfl

/-- Step 2 keeps what was in `slot[M]`: under a stall in `slot[M]`, else in `slot[W]`. -/
theorem ids_step2Memory {u v : State} (h : step2Memory u = .ok v) :
    (v.stalledMemory = true → v.slotM.ids = u.slotM.ids) ∧ (v.stalledMemory = false → v.slotW.ids = u.slotM.ids) := by
  rcases step2Memory_ok h with ⟨hM, rfl⟩ | ⟨r, q, m, hM, hi, -, rfl⟩ | ⟨r, q, m, hM, hi, -, rfl⟩
  · rw [hM]
    exact ⟨fun _ => rfl, fun _ => rfl⟩
  · obtain ⟨hraw, horigin⟩ := issueMem_ids hi
    have hids : [(q.raw, q.origin)] = (Slot.instr r).ids := by rw [hraw, horigin, Slot.ids]
    rw [hM]
    exact ⟨fun _ => hids, fun hst => absurd (show true = false from hst) (Ne.symm Bool.false_ne_true)⟩
  · obtain ⟨hraw, horigin⟩ := issueMem_ids hi
    have hids : [(q.raw, q.origin)] = (Slot.instr r).ids := by rw [hraw, horigin, Slot.ids]
    rw [hM]
    exact ⟨fun hst => absurd (show false = true from hst) Bool.false_ne_true, fun _ => hids⟩

/-- Settles O55. -/
theorem inFlightInOrder : Obligations.InFlightInOrder := by
  refine fun s t hp hstep hfault => ⟨fun hst => ?_, fun hst => ?_⟩
  · obtain ⟨s2, h2, hst2, rfl⟩ := advance_stalled hp hstep hfault hst
    obtain ⟨-, -, -, -, -, -, -, -, -, hE, hD, -⟩ := step2Memory_frame h2
    have hM := (ids_step2Memory h2).1 hst2
    simp only [slotW_of_stalled h2 hst2, hM, hE, hD, step1Writeback_slotM, step1Writeback_slotE, step1Writeback_slotD]
    rfl
  · obtain ⟨s2, h2, hst2, hW, -, hM, hE, -, -, -, hD⟩ := advance_unstalled hp hstep hfault hst
    have hW2 := (ids_step2Memory h2).2 hst2
    rw [step1Writeback_slotM] at hW2
    refine ⟨(s2.mem.cacheRead s.params (s.executeOut.redirect.getD s.pc).toNat).word, ?_⟩
    rw [hW, hW2, hM, ids_executedSlot, hE, hD, apply_ite Slot.ids, ids_afterDecode]
    rfl

/-! ### An advance that an error stops -/

/-- The three steps of a pipelined advance that can raise. -/
theorem advancePipelined_error_cases {f : FaultRecord} (hs : s.fault = none) (hf : (advancePipelined s).fault = some f) :
    (step2Memory (step1Writeback s) = .error f ∧ advancePipelined s = (step1Writeback s).raise f) ∨
    (∃ s2, step2Memory (step1Writeback s) = .ok s2 ∧ step3Execute s2 = .error f ∧ advancePipelined s = s2.raise f) ∨
    (∃ s2 s3, step2Memory (step1Writeback s) = .ok s2 ∧ step3Execute s2 = .ok s3 ∧
      step5Fetch (step4Decode s3) = .error f ∧ advancePipelined s = (step4Decode s3).raise f) := by
  rcases advancePipelined_cases s with ⟨g, h2, e⟩ | ⟨s2, g, h2, h3, e⟩ | ⟨s2, s3, g, h2, h3, h5, e⟩ | ⟨s2, s3, s5, h2, h3, h5, e⟩
  · obtain rfl : g = f := by simpa [e] using hf
    exact Or.inl ⟨h2, e⟩
  · obtain rfl : g = f := by simpa [e] using hf
    exact Or.inr (Or.inl ⟨s2, h2, h3, e⟩)
  · obtain rfl : g = f := by simpa [e] using hf
    exact Or.inr (Or.inr ⟨s2, s3, h2, h3, h5, e⟩)
  · obtain ⟨-, hf2⟩ := step2Memory_cycles_fault h2
    obtain ⟨-, hf3⟩ := step3Execute_cycles_fault h3
    obtain ⟨-, hf4⟩ := step4Decode_cycles_fault s3
    obtain ⟨-, hf5⟩ := step5Fetch_cycles_fault h5
    simp [e, hf5, hf4, hf3, hf2, hs] at hf

theorem advancePipelined_of_step2_error {f : FaultRecord} (h2 : step2Memory (step1Writeback s) = .error f) :
    advancePipelined s = (step1Writeback s).raise f := by
  simp only [advancePipelined, h2]

theorem advancePipelined_of_step3_error {s2 : State} {f : FaultRecord} (h2 : step2Memory (step1Writeback s) = .ok s2)
    (h3 : step3Execute s2 = .error f) : advancePipelined s = s2.raise f := by
  simp only [advancePipelined, h2, h3]

theorem advancePipelined_of_step5_error {s2 s3 : State} {f : FaultRecord} (h2 : step2Memory (step1Writeback s) = .ok s2)
    (h3 : step3Execute s2 = .ok s3) (h5 : step5Fetch (step4Decode s3) = .error f) :
    advancePipelined s = (step4Decode s3).raise f := by
  simp only [advancePipelined, h2, h3, h5]

/-- Step 2 raises only from stage M. -/
theorem step2Memory_error_kind {u : State} {f : FaultRecord} (h : step2Memory u = .error f) :
    f.kind = .addressOutOfRange ∧ f.stage = .M := by
  obtain ⟨r, -, hi⟩ := step2Memory_error h
  exact issueMem_error hi

/-- Step 5 raises only from stage F, at pc. -/
theorem step5Fetch_error_kind {u : State} {f : FaultRecord} (h : step5Fetch u = .error f) :
    u.params.ramCapacity ≤ u.pc.toNat ∧ f = { kind := .addressOutOfRange, addr := u.pc, stage := .F } := by
  obtain ⟨-, hf⟩ := step5Fetch_error h
  exact fetchWord_error_iff.1 hf

/-! ### Step 2 for an instruction in `slot[M]` -/

section Memory

variable {u : State} {r q : InstrRecord} {m : MemSys}

theorem step2Memory_of_held (hM : u.slotM = .instr r) (hi : issueMem u.params u.mem r = .ok (q, m))
    (hlat : 1 < q.memRemaining) :
    step2Memory u = .ok { u.setStall true with
      mem := m, slotM := .instr { q with memRemaining := q.memRemaining - 1 } } := by
  simp only [step2Memory, hM, hi, if_pos hlat]

theorem step2Memory_of_moved (hM : u.slotM = .instr r) (hi : issueMem u.params u.mem r = .ok (q, m))
    (hlat : q.memRemaining ≤ 1) :
    step2Memory u = .ok { u.setStall false with
      mem := m, slotW := .instr { q with memRemaining := 0 }, slotM := .bubble } := by
  simp only [step2Memory, hM, hi, if_neg (Nat.not_lt.2 hlat)]

theorem step2Memory_of_bubble (hM : u.slotM = .bubble) :
    step2Memory u = .ok { u.setStall false with slotW := .bubble, slotM := .bubble } := by
  simp only [step2Memory, hM]

theorem step2Memory_of_issue_error {f : FaultRecord} (hM : u.slotM = .instr r)
    (hi : issueMem u.params u.mem r = .error f) : step2Memory u = .error f := by
  simp only [step2Memory, hM, hi]

/-- The access of an effective load or store whose address is out of range raises in stage M (R232). -/
theorem issueMem_of_outOfRange {p : Params} {a : Word} (hissued : r.memIssued = false) (haccess : r.isAccess = true)
    (hexecuted : r.executed false = true) (hea : r.ea = some a) (ha : p.ramCapacity ≤ a.toNat) :
    issueMem p m r = .error { kind := .addressOutOfRange, addr := a, stage := .M } := by
  have hmemOp : r.stages.memOp p m r.ea r.computed = .error { kind := .addressOutOfRange, addr := a, stage := .M } := by
    rw [InstrRecord.isAccess] at haccess
    rw [InstrRecord.executed] at hexecuted
    rw [InstrRecord.stages, hea]
    rw [hea] at hexecuted
    cases heff : r.effective with
    | none => simp [heff] at haccess
    | some i =>
      rw [heff] at haccess hexecuted
      cases i with
      | ldr rd rn imm => exact loadMemOp_of_outOfRange ha m r.computed
      | str rd rn imm =>
        cases hc : r.computed with
        | none => simp [hc] at hexecuted
        | some v => exact storeMemOp_of_outOfRange ha m v
      | nop | addi | add | sub | b | beq | bne | halt => simp at haccess
  simp only [issueMem, hissued, hmemOp, Bool.false_eq_true, if_false]

end Memory

/-- Settles O49. -/
theorem dataFaultState : Obligations.DataFaultState := by
  intro s r a hp hM hissued haccess hexecuted hea ha
  have hi := issueMem_of_outOfRange (m := s.mem) hissued haccess hexecuted hea ha
  have h2 := step2Memory_of_issue_error (u := step1Writeback s) (r := r) ((step1Writeback_slotM s).trans hM)
    (by rw [step1Writeback_params, step1Writeback_mem]; exact hi)
  rw [step_of_pipelining hp, advancePipelined_of_step2_error h2, step1Writeback_eq_applyRetire]
  rfl

/-! ### Fetches out of range -/

/-- After a fetch that raises: what the four steps before it left (R231). -/
theorem state_of_fetch_error {s2 s3 : State} {f : FaultRecord} (h2 : step2Memory (step1Writeback s) = .ok s2)
    (h3 : step3Execute s2 = .ok s3) (h5 : step5Fetch (step4Decode s3) = .error f) :
    f = { kind := .addressOutOfRange, addr := (step4Decode s3).pc, stage := .F } ∧
      s.params.ramCapacity ≤ (step4Decode s3).pc.toNat ∧
      (step4Decode s3).pc = s.executeOut.redirect.getD s.pc ∧ (step4Decode s3).slotD = .bubble ∧
      (step4Decode s3).slotE = (if s.executeOut.redirect.isSome then .bubble else s.slotD.afterDecode) ∧
      (step4Decode s3).cycles = s.cycles ∧ (step4Decode s3).stalledMemory = false ∧
      (step4Decode s3).flags = s.executeOut.flags.getD s.flags ∧ (step4Decode s3).params = s.params ∧
      (step4Decode s3).mem = s2.mem := by
  obtain ⟨hout, -⟩ := executeOut_eq h2
  obtain ⟨-, -, hflags2, hpc2, -, hcycles2, -, hparams2, -, -, hD2, -, hstalls⟩ := step2Memory_frame h2
  obtain ⟨-, -, -, hcycles3, -, hparams3, -, -, -, hsf3, hsm3, hmem3⟩ := step3Execute_frame h3
  obtain ⟨-, -, hflags4, hpc4, -, hcycles4, -, hparams4, -, -, -, -, hsf4, hsm4, hmem4⟩ := step4Decode_frame s3
  obtain ⟨hcap, hf⟩ := step5Fetch_error_kind h5
  have hst2 : s2.stalledMemory = false := by
    obtain ⟨hst, -⟩ := step5Fetch_error h5
    rw [← hstalls, ← hsf3, ← hsf4, hst]
  have hst3 : s3.stalledMemory = false := hsm3.trans hst2
  have hparams : (step4Decode s3).params = s.params :=
    hparams4.trans (hparams3.trans (hparams2.trans (step1Writeback_params s)))
  have hD3 := step3Execute_slotD h3 hst2
  rw [← hout, hD2, step1Writeback_slotD] at hD3
  have hexec : s3.pc = s.executeOut.redirect.getD s.pc ∧ s3.flags = s.executeOut.flags.getD s.flags := by
    rw [hout, ← step1Writeback_pc s, ← step1Writeback_flags s, ← hpc2, ← hflags2]
    rcases step3Execute_ok h3 with ⟨hst, -⟩ | ⟨-, hE, rfl⟩ | ⟨-, r, hE, -, rfl⟩
    · simp [hst2] at hst
    · rw [hE]
      exact ⟨rfl, rfl⟩
    · rw [hE]
      exact ⟨rfl, rfl⟩
  rw [hparams] at hcap
  refine ⟨hf, hcap, hpc4.trans hexec.1, ?_, ?_, ?_, hsm4.trans hst3, hflags4.trans hexec.2, hparams, hmem4.trans hmem3⟩
  · rw [step4Decode, if_neg (by simp [hst3])]
  · rw [step4Decode, if_neg (by simp [hst3])]
    dsimp only
    rw [hD3]
    split_ifs
    · rfl
    · cases s.slotD <;> rfl
  · exact hcycles4.trans (hcycles3.trans (hcycles2.trans (step1Writeback_cycles s)))

theorem step3Execute_of_bubble {u : State} (hst : u.stalledMemory = false) (hE : u.slotE = .bubble) :
    step3Execute u = .ok { u with slotM := .bubble, slotE := .bubble } := by
  simp only [step3Execute, hst, hE, Bool.false_eq_true, if_false]

theorem step5Fetch_of_outOfRange {u : State} (hst : u.stalledFetch = false) (hpc : u.params.ramCapacity ≤ u.pc.toNat) :
    step5Fetch u = .error { kind := .addressOutOfRange, addr := u.pc, stage := .F } := by
  have hfetch : fetchWord u = .error { kind := .addressOutOfRange, addr := u.pc, stage := .F } :=
    fetchWord_error_iff.2 ⟨hpc, rfl⟩
  simp only [step5Fetch, hst, hfetch, Bool.false_eq_true, if_false]

/-- Settles O48. -/
theorem fetchFaultState : Obligations.FetchFaultState := by
  refine ⟨fun s hp hM hE hpc => ?bubbles, fun s t f hp hstep hf hstage => ?general, fun s hs hpc => ?sequential⟩
  case bubbles =>
    have h2 := step2Memory_of_bubble (u := step1Writeback s) ((step1Writeback_slotM s).trans hM)
    have h3 := step3Execute_of_bubble (u := { (step1Writeback s).setStall false with slotW := .bubble, slotM := .bubble }) rfl
      ((step1Writeback_slotE s).trans hE)
    have h5 := step5Fetch_of_outOfRange (u := step4Decode { (step1Writeback s).setStall false with
      slotW := .bubble, slotM := .bubble, slotE := .bubble }) rfl (by
        rw [step4Decode, if_neg (by exact Bool.false_ne_true)]
        dsimp only [setStall_params, setStall_pc]
        rw [step1Writeback_params, step1Writeback_pc]
        exact hpc)
    have hout : s.executeOut = ExecOut.nothing := by rw [State.executeOut, hE]; rfl
    obtain ⟨hf, -, hpc4, hD4, hE4, hcycles4, -, -, -, hmem4⟩ := state_of_fetch_error h2 h3 h5
    rw [hout] at hpc4 hE4
    refine ⟨_, step_of_pipelining hp, ?_⟩
    rw [advancePipelined_of_step5_error h2 h3 h5]
    refine ⟨?_, hE4, hD4, hpc4, hcycles4, hmem4.trans (step1Writeback_mem s)⟩
    rw [raise_fault, hpc4]
    rfl
  case general =>
    obtain rfl := eq_advancePipelined hp hstep
    rcases advancePipelined_error_cases (fault_eq_none_of_running hp.1) hf with ⟨h2, e⟩ | ⟨s2, h2, h3, e⟩ | ⟨s2, s3, h2, h3, h5, e⟩
    · simp [(step2Memory_error_kind h2).2] at hstage
    · obtain ⟨-, r, -, -, rfl⟩ := step3Execute_error h3
      simp at hstage
    · obtain ⟨rfl, hcap, hpc, hD, -, hcycles, hst, hflags, hparams, -⟩ := state_of_fetch_error h2 h3 h5
      rw [e]
      exact ⟨rfl, rfl, by rw [raise_params, hparams]; exact hcap, hpc, hD, hcycles, hst, hflags⟩
  case sequential =>
    have hfetch : fetchWord s = .error { kind := .addressOutOfRange, addr := s.pc, stage := .F } :=
      fetchWord_error_iff.2 ⟨hpc, rfl⟩
    rw [step_of_sequencing hs]
    simp only [advanceSequential, hfetch]
    rfl

end Sys2Proof.Proofs.Pipeline

/-! Hazards (spec/70_reset_and_hazards.md R264), the status of an advance (spec/40_pipeline_engine.md R143, R150, R152) and the length
of a stall (R133, R134). -/

namespace Sys2Proof.Proofs.Status

open Sys2Proof.Machine Sys2Proof.Laws Sys2Proof.Proofs.Engine Sys2Proof.Proofs.System Sys2Proof.Proofs.Driver
  Sys2Proof.Proofs.Branch Sys2Proof.Proofs.StepFrame Sys2Proof.Proofs.Pipeline

variable {s t : State}

/-! ### Hazards -/

theorem rawHazard_iff {u : State} {r : InstrRecord} : rawHazard u r = true ↔
    u.params.rawPolicy = .fault ∧ ∃ q d, u.slotW = .instr q ∧ q.stages.dest = some d ∧ d ∈ r.stages.src := by
  rw [rawHazard, Bool.and_eq_true, beq_iff_eq]
  refine and_congr_right fun _ => ?_
  cases u.slotW with
  | bubble => simp
  | instr q => cases h : q.stages.dest <;> simp [h]

theorem step3Execute_of_hazard {u : State} {r : InstrRecord} (hst : u.stalledMemory = false) (hE : u.slotE = .instr r)
    (hz : rawHazard u r = true) :
    step3Execute u = .error { kind := .hazardViolation, addr := r.origin, stage := .E } := by
  simp only [step3Execute, hst, hE, hz, Bool.false_eq_true, if_false, if_true]

/-- A hazard raised after step 2 is between the instruction that was in `slot[M]` and has moved on, and the one in `slot[E]`. -/
theorem hazard_of_step3_error {s2 : State} {f : FaultRecord} (h2 : step2Memory (step1Writeback s) = .ok s2)
    (h3 : step3Execute s2 = .error f) :
    f.stage = .E ∧ s.params.rawPolicy = .fault ∧
    ∃ (q r q1 : InstrRecord) (d : RegNum) (m : MemSys), s.slotM = .instr q ∧ s.slotE = .instr r ∧
      issueMem s.params s.mem q = .ok (q1, m) ∧ q1.memRemaining ≤ 1 ∧ q.stages.dest = some d ∧ d ∈ r.stages.src ∧
      f.addr = r.origin ∧ f.stage = .E := by
  obtain ⟨hst, r, hE, hz, rfl⟩ := step3Execute_error h3
  obtain ⟨hpolicy, q', d, hW, hdest, hsrc⟩ := rawHazard_iff.1 hz
  obtain ⟨-, -, -, -, -, -, -, hparams2, -, hE2, -⟩ := step2Memory_frame h2
  rw [hparams2, step1Writeback_params] at hpolicy
  rw [hE2, step1Writeback_slotE] at hE
  rcases step2Memory_ok h2 with ⟨-, rfl⟩ | ⟨q, q1, m, -, -, -, rfl⟩ | ⟨q, q1, m, hM, hi, hlat, rfl⟩
  · cases hW
  · exact absurd (show true = false from hst) (Ne.symm Bool.false_ne_true)
  · rw [step1Writeback_slotM] at hM
    rw [step1Writeback_params, step1Writeback_mem] at hi
    cases hW
    rw [issueMem_stages hi] at hdest
    exact ⟨rfl, hpolicy, q, r, q1, d, m, hM, hE, hi, hlat, hdest, hsrc, rfl, rfl⟩

/-- A sequential step latches only `AddressOutOfRange`: nothing else runs beside its instruction. -/
theorem fault_kind_of_sequencing {f : FaultRecord} (hs : s.sequencing) (hstep : step s = .next t)
    (hf : t.fault = some f) : f.kind = .addressOutOfRange := by
  have hnone := fault_eq_none_of_running hs.1
  rcases step_cases s with ⟨hstopped, -⟩ | ⟨hp, -⟩ | ⟨-, ⟨g, hg, e⟩ | ⟨w, u, i, hw, -, e⟩ | ⟨w, u, err, hw, -, e⟩⟩
  · simp [hs.1] at hstopped
  · cases hs.2.symm.trans hp.2
  · obtain rfl := Host.Outcome.next.inj (e.symm.trans hstep)
    obtain ⟨-, rfl⟩ := fetchWord_error_iff.1 hg
    obtain rfl := Option.some.inj hf
    rfl
  all_goals obtain ⟨-, -, rfl⟩ := fetchWord_ok_iff.1 hw
  · rcases runWhole_cases (stagesOf i) _ with ⟨o, -, e'⟩ | ⟨r, ho, e'⟩
    · obtain rfl := Host.Outcome.next.inj (e'.symm.trans (e.symm.trans hstep))
      cases hnone.symm.trans hf
    · obtain rfl := Host.Outcome.next.inj (e'.symm.trans (e.symm.trans hstep))
      obtain rfl := Option.some.inj hf
      exact (memOp_error ho).1
  · rw [runWhole_inertStages] at e
    obtain rfl := Host.Outcome.next.inj (e.symm.trans hstep)
    cases hnone.symm.trans hf

/-- Settles O47. -/
theorem hazardPolicy : Obligations.HazardPolicy := by
  refine ⟨fun s q r q1 d m hp hpolicy hM hE hi hlat hdest hsrc => ?raised, fun s t f hpolicy hnone hstep hf => ?stale,
    fun s t f hp hstep hf hkind => ?converse, fun s t f => fault_kind_of_sequencing⟩
  case raised =>
    have h2 := step2Memory_of_moved (u := step1Writeback s) ((step1Writeback_slotM s).trans hM)
      (by rw [step1Writeback_params, step1Writeback_mem]; exact hi) hlat
    have h3 := step3Execute_of_hazard (u := { (step1Writeback s).setStall false with
        mem := m, slotW := .instr { q1 with memRemaining := 0 }, slotM := .bubble }) rfl
      ((step1Writeback_slotE s).trans hE) (rawHazard_iff.2 ⟨(congrArg Params.rawPolicy (step1Writeback_params s)).trans hpolicy,
        _, d, rfl, (congrArg InstrStages.dest (issueMem_stages hi 0)).trans hdest, hsrc⟩)
    refine ⟨_, step_of_pipelining hp, ?_⟩
    rw [advancePipelined_of_step3_error h2 h3]
    exact ⟨rfl, (step1Writeback_slotE s).trans hE, rfl, rfl, step1Writeback_slotD s, step1Writeback_flags s,
      step1Writeback_pc s, step1Writeback_cycles s⟩
  case stale =>
    rcases step_cases s with ⟨-, e⟩ | ⟨-, e⟩ | ⟨hs, -⟩
    · obtain rfl := Host.Outcome.next.inj (e.symm.trans hstep)
      cases hnone.symm.trans hf
    · obtain rfl := Host.Outcome.next.inj (e.symm.trans hstep)
      rcases advancePipelined_error_cases hnone hf with ⟨h2, -⟩ | ⟨s2, h2, h3, -⟩ | ⟨s2, s3, -, -, h5, -⟩
      · exact (step2Memory_error_kind h2).1
      · obtain ⟨-, hfault, -⟩ := hazard_of_step3_error h2 h3
        cases hpolicy.symm.trans hfault
      · obtain ⟨-, rfl⟩ := step5Fetch_error_kind h5
        rfl
    · exact fault_kind_of_sequencing hs hstep hf
  case converse =>
    obtain rfl := eq_advancePipelined hp hstep
    rcases advancePipelined_error_cases (fault_eq_none_of_running hp.1) hf with ⟨h2, -⟩ | ⟨s2, h2, h3, -⟩ | ⟨s2, s3, -, -, h5, -⟩
    · cases (step2Memory_error_kind h2).1.symm.trans hkind
    · obtain ⟨-, hpair⟩ := hazard_of_step3_error h2 h3
      exact hpair
    · obtain ⟨-, rfl⟩ := step5Fetch_error_kind h5
      cases hkind

/-! ### Decode of a record -/

section Records

variable {r : InstrRecord}

theorem decodeStep_of_ok {i : Instr} (h : decode r.raw = .ok i) : r.decodeStep = { r with decoded := some i } := by
  simp only [InstrRecord.decodeStep, h]

theorem decodeStep_of_error {e : DecodeError} (h : decode r.raw = .error e) :
    r.decodeStep = { r with decodeError := true } := by
  simp only [InstrRecord.decodeStep, h]

theorem stages_of_decodeError (h : r.decodeError = true) : r.stages = inertStages := by
  have heffective : r.effective = none := if_pos h
  rw [InstrRecord.stages, heffective]

/-- The record of a Word fetched from `a`, decoded to `i`. -/
def decodedRecord (w a : Word) (i : Instr) : InstrRecord := { newInstruction w a with decoded := some i }

/-- The record of a Word fetched from `a` that does not decode. -/
def undecodableRecord (w a : Word) : InstrRecord := { newInstruction w a with decodeError := true }

end Records

/-! ### The status of a sequential advance -/

section Sequential

variable {u : State} {w : Word} {i : Instr}

theorem sequentialDecoded_of_error {f : FaultRecord} (hf : fetchWord s = .error f) : sequentialDecoded s = none := by
  simp only [sequentialDecoded, hf]

theorem sequentialDecoded_of_ok (hf : fetchWord s = .ok (w, u)) (hd : decode w = .ok i) :
    sequentialDecoded s = some (decodedRecord w s.pc i) := by
  simp only [sequentialDecoded, hf, decodeStep_of_ok (r := newInstruction w s.pc) hd, decodedRecord]

theorem sequentialDecoded_of_undecodable {e : DecodeError} (hf : fetchWord s = .ok (w, u)) (hd : decode w = .error e) :
    sequentialDecoded s = some (undecodableRecord w s.pc) := by
  simp only [sequentialDecoded, hf, decodeStep_of_error (r := newInstruction w s.pc) hd, undecodableRecord]

theorem sequentialRetired_of_fetch_error {f : FaultRecord} (hf : fetchWord s = .error f) : sequentialRetired s = none := by
  simp only [sequentialRetired, hf]

theorem sequentialRetired_of_memOp_ok {o : MemOut} (hf : fetchWord s = .ok (w, u)) (hd : decode w = .ok i)
    (ho : (stagesOf i).memOp u.params u.mem ((stagesOf i).exec u.x u.flags).ea
      ((stagesOf i).exec u.x u.flags).computed = .ok o) :
    sequentialRetired s = some { (decodedRecord w s.pc i).afterExec ((stagesOf i).exec u.x u.flags) with
      computed := o.computed } := by
  have hstages : (decodedRecord w s.pc i).stages = stagesOf i := rfl
  have hcomputed : (decodedRecord w s.pc i).computed = none := rfl
  have hea : (decodedRecord w s.pc i).ea = none := rfl
  simp only [sequentialRetired, hf, sequentialDecoded_of_ok hf hd, afterExec_stages, hstages, afterExec_ea, hea,
    afterExec_computed, hcomputed, Option.or_none, ho]

theorem sequentialRetired_of_memOp_error {f : FaultRecord} (hf : fetchWord s = .ok (w, u)) (hd : decode w = .ok i)
    (ho : (stagesOf i).memOp u.params u.mem ((stagesOf i).exec u.x u.flags).ea
      ((stagesOf i).exec u.x u.flags).computed = .error f) : sequentialRetired s = none := by
  have hstages : (decodedRecord w s.pc i).stages = stagesOf i := rfl
  have hcomputed : (decodedRecord w s.pc i).computed = none := rfl
  have hea : (decodedRecord w s.pc i).ea = none := rfl
  simp only [sequentialRetired, hf, sequentialDecoded_of_ok hf hd, afterExec_stages, hstages, afterExec_ea, hea,
    afterExec_computed, hcomputed, Option.or_none, ho]

theorem sequentialRetired_of_undecodable {e : DecodeError} (hf : fetchWord s = .ok (w, u)) (hd : decode w = .error e) :
    sequentialRetired s = some (undecodableRecord w s.pc) := by
  simp only [sequentialRetired, hf, sequentialDecoded_of_undecodable hf hd]
  rfl

theorem fetchWord_of_memRead_ok {q : ReadResult} (h : memRead s.params s.mem s.pc = .ok q) :
    fetchWord s = .ok (q.word, { s with mem := q.mem, pc := s.pc + 1 }) := by
  simp only [fetchWord, h]

theorem fetchWord_of_memRead_error {k : Fault} (h : memRead s.params s.mem s.pc = .error k) :
    fetchWord s = .error { kind := k, addr := s.pc, stage := .F } := by
  simp only [fetchWord, h]

theorem step_of_decoded (hs : s.sequencing) (hf : fetchWord s = .ok (w, u)) (hd : decode w = .ok i) :
    step s = exec i u := by
  rw [step_of_sequencing hs]
  simp only [advanceSequential, hf, hd]

theorem step_of_undecodable {e : DecodeError} (hs : s.sequencing) (hf : fetchWord s = .ok (w, u))
    (hd : decode w = .error e) : step s = .next { u with cycles := u.cycles + 5 } := by
  rw [step_of_sequencing hs]
  simp only [advanceSequential, hf, hd, execInert, runWhole_inertStages]

/-- Settles O41. -/
theorem stepRunsDecodedInstruction : Obligations.StepRunsDecodedInstruction := fun _ _ _ hs hread hd _ =>
  step_of_decoded hs (fetchWord_of_memRead_ok hread) hd

end Sequential

/-! ### The status, field by field -/

section StatusFields

theorem advanceStatus_of_running (h : s.stopped = false) : s.advanceStatus =
    { performed := true
      retired := if s.overlapped then s.slotW.record else sequentialRetired s
      decodeErrors :=
        if s.overlapped then pipelinedDecodeErrors s else (sequentialDecoded s).toList.filter (·.decodeError)
      error := s.advanced.fault
      halted := s.advanced.halted } := by
  rw [State.advanceStatus, if_neg (by simp [h])]

theorem advanceStatus_of_stopped (h : s.stopped = true) : s.advanceStatus =
    { performed := false, retired := none, decodeErrors := [], error := none, halted := s.halted } := if_pos h

theorem advanceStatus_retired_of_sequencing (h : s.sequencing) : s.advanceStatus.retired = sequentialRetired s := by
  rw [advanceStatus_of_running h.1, h.2]
  rfl

theorem advanceStatus_decodeErrors_of_sequencing (h : s.sequencing) :
    s.advanceStatus.decodeErrors = (sequentialDecoded s).toList.filter (·.decodeError) := by
  rw [advanceStatus_of_running h.1, h.2]
  rfl

theorem advanceStatus_decodeErrors_of_pipelining (h : s.pipelining) :
    s.advanceStatus.decodeErrors = pipelinedDecodeErrors s := by
  rw [advanceStatus_of_running h.1, h.2]
  rfl

end StatusFields

/-! ### What Decode reports in a pipelined advance -/

section PipelinedDecode

/-- What Decode reports of the record in a slot. -/
def slotDecodeErrors : Slot → List InstrRecord
  | .bubble => []
  | .instr r => if r.decodeStep.decodeError then [r.decodeStep] else []

theorem slotDecodeErrors_of_ok {r : InstrRecord} {i : Instr} (hr : r.decodeError = false) (hd : decode r.raw = .ok i) :
    slotDecodeErrors (.instr r) = [] := by
  rw [slotDecodeErrors, decodeStep_of_ok hd]
  exact if_neg (by simp [hr])

theorem slotDecodeErrors_of_error {r : InstrRecord} {e : DecodeError} (hd : decode r.raw = .error e) :
    slotDecodeErrors (.instr r) = [{ r with decodeError := true }] := by
  rw [slotDecodeErrors, decodeStep_of_error hd]
  rfl

theorem pipelinedDecodeErrors_of_step2_error {f : FaultRecord} (h2 : step2Memory (step1Writeback s) = .error f) :
    pipelinedDecodeErrors s = [] := by
  simp only [pipelinedDecodeErrors, h2]

theorem pipelinedDecodeErrors_of_step3_error {s2 : State} {f : FaultRecord}
    (h2 : step2Memory (step1Writeback s) = .ok s2) (h3 : step3Execute s2 = .error f) : pipelinedDecodeErrors s = [] := by
  simp only [pipelinedDecodeErrors, h2, h3]

theorem pipelinedDecodeErrors_of_stalled {s2 s3 : State} (h2 : step2Memory (step1Writeback s) = .ok s2)
    (h3 : step3Execute s2 = .ok s3) (hst : s2.stalledMemory = true) : pipelinedDecodeErrors s = [] := by
  obtain ⟨-, -, -, -, -, -, -, -, -, -, hst3, -⟩ := step3Execute_frame h3
  simp only [pipelinedDecodeErrors, h2, h3, hst3, hst, if_true]

/-- When Decode runs, it reports on `slot[D]`, or on the bubble a redirection has left there. -/
theorem pipelinedDecodeErrors_of_unstalled {s2 s3 : State} (h2 : step2Memory (step1Writeback s) = .ok s2)
    (h3 : step3Execute s2 = .ok s3) (hst : s2.stalledMemory = false) :
    pipelinedDecodeErrors s = slotDecodeErrors (if s.executeOut.redirect.isSome then .bubble else s.slotD) := by
  obtain ⟨-, -, -, -, -, -, -, -, -, -, hst3, -⟩ := step3Execute_frame h3
  obtain ⟨hout, hD2⟩ := executeOut_eq h2
  have hD3 := step3Execute_slotD h3 hst
  rw [← hout, hD2] at hD3
  rw [← hD3]
  simp only [pipelinedDecodeErrors, h2, h3, hst3, hst, Bool.false_eq_true, if_false]
  cases s3.slotD <;> rfl

/-- An advance that redirects reports nothing, whatever ends it. -/
theorem pipelinedDecodeErrors_of_redirect (h : s.executeOut.redirect.isSome = true) : pipelinedDecodeErrors s = [] := by
  cases h2 : step2Memory (step1Writeback s) with
  | error f => exact pipelinedDecodeErrors_of_step2_error h2
  | ok s2 =>
    cases h3 : step3Execute s2 with
    | error f => exact pipelinedDecodeErrors_of_step3_error h2 h3
    | ok s3 =>
      cases hst : s2.stalledMemory with
      | true => exact pipelinedDecodeErrors_of_stalled h2 h3 hst
      | false =>
        rw [pipelinedDecodeErrors_of_unstalled h2 h3 hst, if_pos h]
        rfl

/-- Decode has run when the advance ended unstalled without an error, or in its fetch. -/
theorem pipelinedDecodeErrors_of_decoded (hp : s.pipelining)
    (h : (advancePipelined s).fault = none ∧ (advancePipelined s).stalledMemory = false ∨
      ∃ f, (advancePipelined s).fault = some f ∧ f.stage = .F)
    (hredirect : s.executeOut.redirect = none) : pipelinedDecodeErrors s = slotDecodeErrors s.slotD := by
  obtain ⟨s2, s3, h2, h3, hst⟩ : ∃ s2 s3, step2Memory (step1Writeback s) = .ok s2 ∧ step3Execute s2 = .ok s3 ∧
      s2.stalledMemory = false := by
    rcases h with ⟨hnone, hst⟩ | ⟨f, hf, hstage⟩
    · obtain ⟨s2, s3, s5, h2, h3, h5, e⟩ := advance_without_error hp (step_of_pipelining hp) hnone
      refine ⟨s2, s3, h2, h3, ?_⟩
      rw [e] at hst
      exact (steps_3_to_5_stalledMemory h3 h5).symm.trans hst
    · rcases advancePipelined_error_cases (fault_eq_none_of_running hp.1) hf with ⟨h2, -⟩ | ⟨s2, h2, h3, -⟩ |
        ⟨s2, s3, h2, h3, h5, -⟩
      · cases (step2Memory_error_kind h2).2.symm.trans hstage
      · cases (hazard_of_step3_error h2 h3).1.symm.trans hstage
      · obtain ⟨-, -, -, -, -, -, hst4, -⟩ := state_of_fetch_error h2 h3 h5
        obtain ⟨-, -, -, -, -, -, -, -, -, -, hst3, -⟩ := step3Execute_frame h3
        obtain ⟨-, -, -, -, -, -, -, -, -, -, -, -, -, hst34, -⟩ := step4Decode_frame s3
        exact ⟨s2, s3, h2, h3, by rw [← hst3, ← hst34, hst4]⟩
  rw [pipelinedDecodeErrors_of_unstalled h2 h3 hst, hredirect]
  rfl

/-- Decode has not run when Memory stalled, or an error ended the advance before it. -/
theorem pipelinedDecodeErrors_of_not_decoded (hp : s.pipelining)
    (h : (advancePipelined s).fault = none ∧ (advancePipelined s).stalledMemory = true ∨
      ∃ f, (advancePipelined s).fault = some f ∧ f.stage ≠ .F) : pipelinedDecodeErrors s = [] := by
  rcases h with ⟨hnone, hst⟩ | ⟨f, hf, hstage⟩
  · obtain ⟨s2, s3, s5, h2, h3, h5, e⟩ := advance_without_error hp (step_of_pipelining hp) hnone
    rw [e] at hst
    exact pipelinedDecodeErrors_of_stalled h2 h3 ((steps_3_to_5_stalledMemory h3 h5).symm.trans hst)
  · rcases advancePipelined_error_cases (fault_eq_none_of_running hp.1) hf with ⟨h2, -⟩ | ⟨s2, h2, h3, -⟩ |
      ⟨s2, s3, h2, h3, h5, -⟩
    · exact pipelinedDecodeErrors_of_step2_error h2
    · exact pipelinedDecodeErrors_of_step3_error h2 h3
    · obtain ⟨-, rfl⟩ := step5Fetch_error_kind h5
      exact absurd rfl hstage

end PipelinedDecode

/-! ### Words that decode to nothing -/

/-- Settles O42. -/
theorem inertInstruction : Obligations.InertInstruction := by
  refine ⟨fun s q e hs hread hd => ?sequential, fun s t r e hp hD hd hr hredirect hstep hnone hst => ?decoded,
    fun s r hp hW hr => ?retired, fun r e hd _ => decodeStep_of_error hd, fun r hr => ?stages⟩
  case sequential =>
    have hf := fetchWord_of_memRead_ok hread
    have hstep := step_of_undecodable hs hf hd
    refine ⟨hstep, ?_⟩
    obtain ⟨hrunning, hmode⟩ := id hs
    rw [advanceStatus_of_running hrunning, hmode, advanced_of_step hstep, sequentialRetired_of_undecodable hf hd,
      sequentialDecoded_of_undecodable hf hd, fault_eq_none_of_running hrunning]
    have hhalted : s.halted = false := by
      by_contra h
      rw [stopped_iff.2 (Or.inl (by simpa using h))] at hrunning
      cases hrunning
    rw [hhalted]
    rfl
  case decoded =>
    obtain ⟨s2, -, -, -, -, -, hE, -⟩ := advance_unstalled hp hstep hnone hst
    obtain rfl := eq_advancePipelined hp hstep
    rw [hredirect, hD] at hE
    rw [advanceStatus_decodeErrors_of_pipelining hp, pipelinedDecodeErrors_of_decoded hp (Or.inl ⟨hnone, hst⟩) hredirect, hD,
      slotDecodeErrors_of_error hd]
    exact ⟨hE.trans (congrArg Slot.instr (decodeStep_of_error hd)), rfl⟩
  case retired =>
    have hretire : s.slotW.retireOut = RetireOut.nothing := by
      rw [hW, Slot.retireOut, stages_of_decodeError hr]
      rfl
    rw [advanceStatus_retired_of_pipelining hp, hW, State.executeRegs, hretire, applyRetire_nothing]
    exact ⟨rfl, rfl⟩
  case stages =>
    rw [stages_of_decodeError hr]
    exact ⟨rfl, rfl, fun _ _ => rfl, fun _ _ _ _ => rfl, fun _ => rfl⟩

/-! ### Every step answers, and its status says what it did -/

theorem step_eq_next_advanced (s : State) : step s = .next s.advanced := by
  have hnext : ∃ t, step s = .next t := by
    rcases step_cases s with ⟨-, e⟩ | ⟨-, e⟩ | ⟨-, ⟨f, -, e⟩ | ⟨w, u, i, -, -, e⟩ | ⟨w, u, err, -, -, e⟩⟩
    · exact ⟨_, e⟩
    · exact ⟨_, e⟩
    · exact ⟨_, e⟩
    · rcases runWhole_cases (stagesOf i) u with ⟨o, -, e'⟩ | ⟨r, -, e'⟩
      · exact ⟨_, e.trans e'⟩
      · exact ⟨_, e.trans e'⟩
    · exact ⟨_, e.trans (runWhole_inertStages u)⟩
  obtain ⟨t, ht⟩ := hnext
  rw [advanced_of_step ht, ht]

theorem advanced_of_pipelining (hp : s.pipelining) : s.advanced = advancePipelined s :=
  advanced_of_step (step_of_pipelining hp)

theorem slotDecodeErrors_of_fetchedOk (d : Slot) : d.fetchedOk = true →
    slotDecodeErrors d = match d with
      | .bubble => []
      | .instr r =>
        match decode r.raw with
        | .ok _ => []
        | .error _ => [{ r with decodeError := true }] := by
  intro h
  cases d with
  | bubble => rfl
  | instr r =>
    have hr : r.decodeError = false := by
      have heq : r = newInstruction r.raw r.origin := by simpa [Slot.fetchedOk] using h
      rw [heq, newInstruction_decodeError]
    cases hd : decode r.raw with
    | ok i => simp only [slotDecodeErrors_of_ok hr hd, hd]
    | error e => simp only [slotDecodeErrors_of_error hd, hd]

/-- What a sequential advance reports, from its fetch on. -/
theorem sequential_status (hs : s.sequencing) :
    (∀ k, memRead s.params s.mem s.pc = .error k →
      s.advanceStatus.retired = none ∧ s.advanceStatus.decodeErrors = []) ∧
    (s.advanced.fault ≠ none → s.advanceStatus.retired = none) ∧
    (∀ q, memRead s.params s.mem s.pc = .ok q →
      s.advanceStatus.decodeErrors = (match decode q.word with
        | .ok _ => []
        | .error _ => [{ newInstruction q.word s.pc with decodeError := true }]) ∧
      (s.advanced.fault = none →
        ∃ r, s.advanceStatus.retired = some r ∧ r.raw = q.word ∧ r.origin = s.pc ∧
          r.opcode = opcodeOf q.word ∧
          (∀ i, decode q.word = .ok i → r.decoded = some i ∧ r.decodeError = false) ∧
          (∀ e, decode q.word = .error e → r.decoded = none ∧ r.decodeError = true))) := by
  have hnone := fault_eq_none_of_running hs.1
  rw [advanceStatus_retired_of_sequencing hs, advanceStatus_decodeErrors_of_sequencing hs]
  cases hread : memRead s.params s.mem s.pc with
  | error k =>
    have hf := fetchWord_of_memRead_error hread
    rw [sequentialRetired_of_fetch_error hf, sequentialDecoded_of_error hf]
    exact ⟨fun _ _ => ⟨rfl, rfl⟩, fun _ => rfl, fun q hq => by cases hq⟩
  | ok q =>
    have hf := fetchWord_of_memRead_ok hread
    cases hd : decode q.word with
    | error e =>
      rw [sequentialRetired_of_undecodable hf hd, sequentialDecoded_of_undecodable hf hd,
        advanced_of_step (step_of_undecodable hs hf hd)]
      refine ⟨fun k hk => (by cases hk), fun hfault => absurd hnone hfault, fun q' hq' => ?_⟩
      obtain rfl := Except.ok.inj hq'
      rw [hd]
      exact ⟨rfl, fun _ => ⟨_, rfl, rfl, rfl, rfl, fun i hi => (by cases hi), fun _ _ => ⟨rfl, rfl⟩⟩⟩
    | ok i =>
      have hstep := (step_of_decoded hs hf hd).trans (exec_eq_runWhole i _)
      rw [sequentialDecoded_of_ok hf hd]
      refine ⟨fun k hk => (by cases hk), fun hfault => ?_, fun q' hq' => ?_⟩
      · rcases runWhole_cases (stagesOf i) { s with mem := q.mem, pc := s.pc + 1 } with ⟨o, ho, e⟩ | ⟨f, ho, e⟩
        · rw [advanced_of_step (hstep.trans e)] at hfault
          exact absurd hnone hfault
        · exact sequentialRetired_of_memOp_error hf hd ho
      · obtain rfl := Except.ok.inj hq'
        rw [hd]
        refine ⟨rfl, fun hfault => ?_⟩
        rcases runWhole_cases (stagesOf i) { s with mem := q.mem, pc := s.pc + 1 } with ⟨o, ho, e⟩ | ⟨f, ho, e⟩
        · rw [sequentialRetired_of_memOp_ok hf hd ho]
          refine ⟨_, rfl, rfl, rfl, rfl, fun j hj => ?_, fun e he => (by cases he)⟩
          obtain rfl := Except.ok.inj hj
          exact ⟨rfl, rfl⟩
        · rw [advanced_of_step (hstep.trans e)] at hfault
          cases hfault

/-- Settles O53. -/
theorem stepAlwaysAnswersNext : Obligations.StepAlwaysAnswersNext := by
  refine fun s => ⟨s.advanced, step_eq_next_advanced s, fun hstopped => ?_, fun hrunning => ?_, fun hp => ⟨fun hW => ?_,
    fun r hW => ?_⟩, fun hp hD => ?_, fun hs => sequential_status hs⟩
  · rw [advanceStatus_of_stopped hstopped, advanced_of_stopped hstopped]
  · rw [advanceStatus_of_running hrunning]
    exact ⟨rfl, rfl, rfl⟩
  · rw [advanceStatus_retired_of_pipelining hp, hW]
    rfl
  · rw [advanceStatus_retired_of_pipelining hp, hW]
    rfl
  · rw [advanceStatus_decodeErrors_of_pipelining hp, advanced_of_pipelining hp]
    refine ⟨fun hran hredirect => ?_, fun hnotran => ?_⟩
    · rw [pipelinedDecodeErrors_of_decoded hp hran hredirect]
      exact slotDecodeErrors_of_fetchedOk s.slotD hD
    · rcases hnotran with hredirect | hnotran
      · exact pipelinedDecodeErrors_of_redirect hredirect
      · exact pipelinedDecodeErrors_of_not_decoded hp hnotran

end Sys2Proof.Proofs.Status

/-! The length of a stall (spec/40_pipeline_engine.md R133, R134, R147). -/

namespace Sys2Proof.Proofs.Stall

open Sys2Proof.Machine Sys2Proof.Laws Sys2Proof.Proofs.StepFrame Sys2Proof.Proofs.Pipeline Sys2Proof.Proofs.Status

section Stall

variable {s t : State} {r q : InstrRecord} {m : MemSys} {o : MemOut}

/-- The record of an access that has answered `o`, with `left` of its latency remaining. -/
def issuedRecord (r : InstrRecord) (o : MemOut) (left : Nat) : InstrRecord :=
  { r with computed := o.computed, memIssued := true, memRemaining := left }

theorem issueMem_of_memOp_ok {p : Params} (hissued : r.memIssued = false)
    (ho : r.stages.memOp p m r.ea r.computed = .ok o) : issueMem p m r = .ok (issuedRecord r o o.latency, o.mem) := by
  simp only [issueMem, hissued, ho, Bool.false_eq_true, if_false, issuedRecord]

theorem issueMem_of_issued {p : Params} (hissued : r.memIssued = true) : issueMem p m r = .ok (r, m) := if_pos hissued

/-- An advance that holds `slot[M]` does nothing but step 1, the wait in step 2, and the count. -/
theorem advancePipelined_of_held (hM : s.slotM = .instr r) (hi : issueMem s.params s.mem r = .ok (q, m))
    (hlat : 1 < q.memRemaining) :
    advancePipelined s = { (step1Writeback s).setStall true with
      mem := m, slotM := .instr { q with memRemaining := q.memRemaining - 1 }, slotF := .bubble
      cycles := s.cycles + 1 } := by
  have h2 := step2Memory_of_held (u := step1Writeback s) ((step1Writeback_slotM s).trans hM)
    (by rw [step1Writeback_params, step1Writeback_mem]; exact hi) hlat
  simp only [advancePipelined, h2, step3Execute, step4Decode, step5Fetch, setStall_stalledMemory, setStall_stalledFetch,
    if_true, setStall_cycles, step1Writeback_cycles]

/-- An advance that moves `slot[M]` on leaves it in `slot[W]` and no stall, whatever the later steps do. -/
theorem advancePipelined_of_moved (hM : s.slotM = .instr r) (hi : issueMem s.params s.mem r = .ok (q, m))
    (hlat : q.memRemaining ≤ 1) :
    (advancePipelined s).stalledMemory = false ∧ (advancePipelined s).stalledFetch = false ∧
      (advancePipelined s).slotW = .instr { q with memRemaining := 0 } := by
  have h2 := step2Memory_of_moved (u := step1Writeback s) ((step1Writeback_slotM s).trans hM)
    (by rw [step1Writeback_params, step1Writeback_mem]; exact hi) hlat
  refine advancePipelined_induct_of_step2
    (P := fun u => u.stalledMemory = false ∧ u.stalledFetch = false ∧ u.slotW = .instr { q with memRemaining := 0 }) h2
    ⟨rfl, rfl, rfl⟩ (fun _ _ h => h) (fun u v h e => ?_) (fun u h => ?_) (fun u v h e => ?_) (fun _ _ h => h)
  · obtain ⟨-, -, -, -, -, -, -, hW, -, hsf, hsm, -⟩ := step3Execute_frame e
    rw [hW, hsf, hsm]
    exact h
  · obtain ⟨-, -, -, -, -, -, -, -, -, hW, -, -, hsf, hsm, -⟩ := step4Decode_frame u
    rw [hW, hsf, hsm]
    exact h
  · obtain ⟨-, -, -, -, -, -, -, -, hW, -, -, hsf, hsm⟩ := step5Fetch_frame e
    rw [hW, hsf, hsm]
    exact h

/-- The state `t` after `k` advances from `s` that hold the access of `r`: what `slot[M]` and the rest then hold (R134). -/
def HeldFor (s : State) (r : InstrRecord) (o : MemOut) (k : Nat) (t : State) : Prop :=
  t.pipelining ∧ t.stalledMemory = true ∧ t.stalledFetch = true ∧
    t.slotM = .instr (issuedRecord r o (o.latency - k)) ∧ t.mem = o.mem ∧ t.slotW = .bubble ∧ t.slotE = s.slotE ∧
    t.slotD = s.slotD ∧ t.pc = s.pc

/-- An advance that holds leaves the core running in pipelined mode if it retires no HALT (R147). -/
theorem pipelining_of_held (hp : s.pipelining) (hhalts : s.slotW.retireOut.halts = false) (hM : s.slotM = .instr r)
    (hi : issueMem s.params s.mem r = .ok (q, m)) (hlat : 1 < q.memRemaining) : s.advanced.pipelining := by
  obtain ⟨hrunning, hmode⟩ := id hp
  rw [State.stopped, Bool.or_eq_false_iff] at hrunning
  obtain ⟨hhalted, hfault⟩ := hrunning
  have hhalted1 : (step1Writeback s).halted = false := by rw [step1Writeback_halted, hhalted, hhalts]; rfl
  rw [advanced_of_pipelining hp, advancePipelined_of_held hM hi hlat]
  refine ⟨?_, (step1Writeback_overlapped s).trans hmode⟩
  rw [State.stopped, Bool.or_eq_false_iff]
  exact ⟨hhalted1, (congrArg Option.isSome (step1Writeback_fault s)).trans hfault⟩

theorem heldFor_first (hp : s.pipelining) (hM : s.slotM = .instr r) (hissued : r.memIssued = false)
    (ho : r.stages.memOp s.params s.mem r.ea r.computed = .ok o) (hhalts : s.slotW.retireOut.halts = false)
    (hlat : 1 < o.latency) : HeldFor s r o 1 s.advanced := by
  have hi := issueMem_of_memOp_ok hissued ho
  refine ⟨pipelining_of_held hp hhalts hM hi hlat, ?_⟩
  rw [advanced_of_pipelining hp, advancePipelined_of_held hM hi hlat]
  exact ⟨rfl, rfl, rfl, rfl, step1Writeback_slotW s, step1Writeback_slotE s, step1Writeback_slotD s, step1Writeback_pc s⟩

theorem heldFor_next {k : Nat} (h : HeldFor s r o k t) (hlat : 1 < o.latency - k) : HeldFor s r o (k + 1) t.advanced := by
  obtain ⟨hp, -, -, hM, hmem, hW, hE, hD, hpc⟩ := h
  have hi := issueMem_of_issued (p := t.params) (m := t.mem) (r := issuedRecord r o (o.latency - k)) rfl
  have hhalts : t.slotW.retireOut.halts = false := by rw [hW]; rfl
  refine ⟨pipelining_of_held hp hhalts hM hi hlat, ?_⟩
  rw [advanced_of_pipelining hp, advancePipelined_of_held hM hi hlat]
  exact ⟨rfl, rfl, rfl, hmem, step1Writeback_slotW t, (step1Writeback_slotE t).trans hE, (step1Writeback_slotD t).trans hD,
    (step1Writeback_pc t).trans hpc⟩

theorem heldFor_iterate (hp : s.pipelining) (hM : s.slotM = .instr r) (hissued : r.memIssued = false)
    (ho : r.stages.memOp s.params s.mem r.ea r.computed = .ok o) (hhalts : s.slotW.retireOut.halts = false) {k : Nat}
    (hk : 1 ≤ k) (hle : k ≤ o.latency - 1) : HeldFor s r o k (State.advanced^[k] s) := by
  induction k, hk using Nat.le_induction with
  | base => exact heldFor_first hp hM hissued ho hhalts (by omega)
  | succ k _ ih =>
    rw [Function.iterate_succ_apply']
    exact heldFor_next (ih (by omega)) (by omega)

/-- The advance after the wait, or the only one when the latency is at most 1, moves the record on. -/
theorem moved_after_latency (hp : s.pipelining) (hM : s.slotM = .instr r) (hissued : r.memIssued = false)
    (ho : r.stages.memOp s.params s.mem r.ea r.computed = .ok o) (hhalts : s.slotW.retireOut.halts = false) :
    (State.advanced^[max o.latency 1] s).stalledMemory = false ∧
      (State.advanced^[max o.latency 1] s).stalledFetch = false ∧
      (State.advanced^[max o.latency 1] s).slotW = .instr (issuedRecord r o 0) := by
  rcases Nat.lt_or_ge 1 o.latency with hlat | hlat
  · have hcount : max o.latency 1 = o.latency - 1 + 1 := by omega
    obtain ⟨hp', -, -, hM', -⟩ := heldFor_iterate hp hM hissued ho hhalts (k := o.latency - 1) (by omega) (Nat.le_refl _)
    have hleft : o.latency - (o.latency - 1) ≤ 1 := by omega
    rw [hcount, Function.iterate_succ_apply', advanced_of_pipelining hp']
    exact advancePipelined_of_moved hM' (issueMem_of_issued rfl) hleft
  · rw [Nat.max_eq_right hlat, Function.iterate_one, advanced_of_pipelining hp]
    exact advancePipelined_of_moved hM (issueMem_of_memOp_ok hissued ho) hlat

end Stall

/-- Settles O44. -/
theorem stallLength : Obligations.StallLength := by
  refine ⟨fun s r o hp hM hissued ho hhalts => ⟨fun k hk hle => ?_, moved_after_latency hp hM hissued ho hhalts⟩, rfl, rfl,
    rfl, rfl⟩
  obtain ⟨-, hheld⟩ := heldFor_iterate hp hM hissued ho hhalts hk hle
  exact hheld

end Sys2Proof.Proofs.Stall

/-! The bounded driver, the mode switch and loading a program (spec/45_host_operations.md R212, R213, R216, R217). -/

namespace Sys2Proof.Proofs.HostOperations

open Sys2Proof.Machine Sys2Proof.Laws Sys2Proof.Proofs.Reset Sys2Proof.Proofs.MemoryAccess Sys2Proof.Proofs.Engine
  Sys2Proof.Proofs.Driver Sys2Proof.Proofs.StepFrame Sys2Proof.Proofs.Invariant Sys2Proof.Proofs.Status

/-! ### The bounded driver -/

section Driver

variable {s t : State}

theorem iterate_params_mode (n : Nat) (s : State) :
    (State.advanced^[n] s).params = s.params ∧ (State.advanced^[n] s).overlapped = s.overlapped := by
  induction n with
  | zero => exact ⟨rfl, rfl⟩
  | succ n ih =>
    obtain ⟨-, hmode, hparams, -⟩ := step_sameFrame (step_eq_next_advanced (State.advanced^[n] s))
    rw [Function.iterate_succ_apply', hmode, hparams]
    exact ih

/-- The largest latency of the table (R67). -/
def maxLatency (p : Params) : Nat := max p.ramLatency (max p.readLatency p.writeLatency + p.missPenalty)

/-- A sequential advance counts at most five and the largest latency (R150). -/
theorem cycles_le_of_sequencing (hs : s.sequencing) : s.advanced.cycles ≤ s.cycles + 5 + maxLatency s.params := by
  rcases step_cases s with ⟨hstopped, -⟩ | ⟨hp, -⟩ | ⟨-, ⟨f, -, e⟩ | ⟨w, u, i, hw, -, e⟩ | ⟨w, u, err, hw, -, e⟩⟩
  · simp [hs.1] at hstopped
  · cases hs.2.symm.trans hp.2
  · rw [advanced_of_step e, raise_cycles]
    omega
  all_goals obtain ⟨-, -, rfl⟩ := fetchWord_ok_iff.1 hw
  · rcases runWhole_cases (stagesOf i) _ with ⟨o, ho, e'⟩ | ⟨r, -, e'⟩
    · rw [advanced_of_step (e.trans e')]
      exact Nat.add_le_add_left (memOp_latency ho) _
    · rw [advanced_of_step (e.trans e'), raise_cycles, applyExec_cycles]
      dsimp only
      omega
  · rw [advanced_of_step (e.trans (runWhole_inertStages _))]
    dsimp only
    omega

/-- The state the loop goes on from: it meets none of the three tests (R212). -/
def GoesOn (c0 K : Nat) (u : State) : Prop := u.fault = none ∧ u.halted = false ∧ u.cycles - c0 < K

/-- What the loop answers and where it stops: after `n` advances, each from a state that meets no test. -/
theorem runLoop_spec {c0 K fuel : Nat} {r : RunResult} (h : runLoop c0 K fuel s = (r, t)) :
    ∃ n ≤ fuel, t = State.advanced^[n] s ∧ (∀ j < n, GoesOn c0 K (State.advanced^[j] s)) ∧
      ((∃ f, r = .faulted f ∧ t.fault = some f) ∨ (r = .completed ∧ t.fault = none ∧ t.halted = true) ∨
        (r = .cycleLimitExceeded ∧ t.fault = none ∧ t.halted = false ∧ (K ≤ t.cycles - c0 ∨ n = fuel))) := by
  induction fuel using Nat.strong_induction_on generalizing s with
  | _ fuel ih =>
    rcases runLoop_cases c0 K fuel s with ⟨f, hf, e⟩ | ⟨hf, hh, e⟩ | ⟨hf, hh, hk, e⟩ | ⟨hf, hh, hk, n, rfl, e⟩
    · obtain ⟨rfl, rfl⟩ := Prod.mk.inj (e.symm.trans h)
      exact ⟨0, Nat.zero_le _, rfl, fun j hj => absurd hj (Nat.not_lt_zero j), Or.inl ⟨f, rfl, hf⟩⟩
    · obtain ⟨rfl, rfl⟩ := Prod.mk.inj (e.symm.trans h)
      exact ⟨0, Nat.zero_le _, rfl, fun j hj => absurd hj (Nat.not_lt_zero j), Or.inr (Or.inl ⟨rfl, hf, hh⟩)⟩
    · obtain ⟨rfl, rfl⟩ := Prod.mk.inj (e.symm.trans h)
      exact ⟨0, Nat.zero_le _, rfl, fun j hj => absurd hj (Nat.not_lt_zero j),
        Or.inr (Or.inr ⟨rfl, hf, hh, hk.imp_right Eq.symm⟩)⟩
    · obtain ⟨k, hle, hstate, hgoes, hend⟩ := ih n (Nat.lt_succ_self n) (e.symm.trans h)
      refine ⟨k + 1, Nat.succ_le_succ hle, hstate, fun j hj => ?_, ?_⟩
      · cases j with
        | zero => exact ⟨hf, hh, hk⟩
        | succ j => exact hgoes j (Nat.lt_of_succ_lt_succ hj)
      · simpa only [Nat.succ_inj] using hend

theorem running_of_goesOn {c0 K : Nat} {u : State} (h : GoesOn c0 K u) : u.stopped = false := by
  obtain ⟨hfault, hhalted, -⟩ := h
  rw [State.stopped, hfault, hhalted]
  rfl

/-- Every advance that goes on and latches nothing counts at least one. -/
theorem add_le_iterate_cycles {c0 K n : Nat} (hgoes : ∀ j < n, GoesOn c0 K (State.advanced^[j] s))
    (hfault : (State.advanced^[n] s).fault = none) : s.cycles + n ≤ (State.advanced^[n] s).cycles := by
  induction n with
  | zero => exact Nat.le_refl _
  | succ n ih =>
    have hlast := hgoes n (Nat.lt_succ_self n)
    have hle := ih (fun j hj => hgoes j (Nat.lt_succ_of_lt hj)) hlast.1
    rw [Function.iterate_succ_apply'] at hfault ⊢
    obtain ⟨-, hgrows⟩ := cyclesNeverDecrease _ _ (step_eq_next_advanced (State.advanced^[n] s))
    have hlt := hgrows (running_of_goesOn hlast) hfault
    omega

/-- In pipelined mode it counts exactly one (R140). -/
theorem iterate_cycles_of_overlapped {c0 K n : Nat} (hmode : s.overlapped = true)
    (hgoes : ∀ j < n, GoesOn c0 K (State.advanced^[j] s)) (hfault : (State.advanced^[n] s).fault = none) :
    (State.advanced^[n] s).cycles = s.cycles + n := by
  induction n with
  | zero => rfl
  | succ n ih =>
    have hlast := hgoes n (Nat.lt_succ_self n)
    have heq := ih (fun j hj => hgoes j (Nat.lt_succ_of_lt hj)) hlast.1
    have hpipelining : (State.advanced^[n] s).pipelining :=
      ⟨running_of_goesOn hlast, (iterate_params_mode n s).2.trans hmode⟩
    rw [Function.iterate_succ_apply'] at hfault ⊢
    obtain ⟨hcount, -⟩ := cycleCountPipelined _ _ hpipelining (step_eq_next_advanced _)
    rw [hcount hfault, heq, Nat.add_assoc]

/-- In sequential mode the last advance began below the bound, so the overshoot is less than one advance can count. -/
theorem iterate_cycles_lt_of_sequential {K n : Nat} (hmode : s.overlapped = false)
    (hgoes : ∀ j < n, GoesOn s.cycles K (State.advanced^[j] s)) :
    (State.advanced^[n] s).cycles < s.cycles + K + 5 + maxLatency s.params := by
  cases n with
  | zero =>
    rw [Function.iterate_zero_apply]
    omega
  | succ n =>
    have hlast := hgoes n (Nat.lt_succ_self n)
    obtain ⟨hparams, hmode'⟩ := iterate_params_mode n s
    have hle := cycles_le_of_sequencing ⟨running_of_goesOn hlast, hmode'.trans hmode⟩
    obtain ⟨-, -, hbelow⟩ := hlast
    rw [Function.iterate_succ_apply']
    rw [hparams] at hle
    omega

/-- Settles O58: what the loop answers, with the cycles its advances counted. -/
theorem runToCompletion : Obligations.RunToCompletion := by
  intro K s t r h
  obtain ⟨n, hn, rfl, hgoes, hend⟩ := runLoop_spec h
  refine ⟨?completed, ?faulted, ?limit, n, hn, rfl, fun j hj => ?before⟩
  case completed =>
    rintro rfl
    rcases hend with ⟨f, hr, -⟩ | ⟨-, hfault, hhalted⟩ | ⟨hr, -⟩
    · cases hr
    · exact ⟨hhalted, hfault⟩
    · cases hr
  case faulted =>
    rintro f rfl
    rcases hend with ⟨f', hr, hfault⟩ | ⟨hr, -⟩ | ⟨hr, -⟩
    · cases hr
      exact hfault
    all_goals cases hr
  case limit =>
    rintro rfl
    rcases hend with ⟨f, hr, -⟩ | ⟨hr, -⟩ | ⟨-, hfault, hhalted, hbound⟩
    · cases hr
    · cases hr
    · have hle := add_le_iterate_cycles hgoes hfault
      refine ⟨hhalted, hfault, by omega, fun hmode => ?_, fun hmode => iterate_cycles_lt_of_sequential hmode hgoes⟩
      have heq := iterate_cycles_of_overlapped hmode hgoes hfault
      omega
  case before =>
    obtain ⟨hfault, hhalted, hbelow⟩ := hgoes j hj
    exact ⟨hfault, hhalted, by omega⟩

end Driver

/-! ### The mode switch -/

/-- Settles O59. -/
theorem setModeOnlyWhenDrained : Obligations.SetModeOnlyWhenDrained := by
  intro s b
  constructor
  · intro hF hD hE hM hW hsf hsm
    exact setMode_of_drained (drained_iff.2 ⟨hF, hD, hE, hM, hW, hsf, hsm⟩) b
  · intro hbusy
    refine setMode_of_not_drained (fun hdrained => ?_) b
    obtain ⟨hF, hD, hE, hM, hW, hsf, hsm⟩ := drained_iff.1 hdrained
    simp [hF, hD, hE, hM, hW, hsf, hsm] at hbusy

/-! ### Loading a program -/

section Loading

variable {s t : State}

/-- The core has advanced: it has counted a cycle or latched the fault of its first advance (log entry 16). -/
def HasAdvanced (s : State) : Prop := 0 < s.cycles ∨ s.fault ≠ none

theorem not_beforeFirstAdvance_of_hasAdvanced (h : HasAdvanced s) : s.beforeFirstAdvance = false := by
  rw [← Bool.not_eq_true, beforeFirstAdvance_iff]
  rintro ⟨hcycles, hfault, -⟩
  rcases h with h | h
  · omega
  · exact h hfault

theorem hasAdvanced_of_step (hrunning : s.stopped = false) (e : step s = .next t) : HasAdvanced t := by
  by_cases hfault : t.fault = none
  · obtain ⟨-, hgrows⟩ := cyclesNeverDecrease s t e
    exact Or.inl (Nat.zero_lt_of_lt (hgrows hrunning hfault))
  · exact Or.inr hfault

/-- Every step keeps it: a stopped core stays as it is. -/
theorem step_keeps_hasAdvanced (h : HasAdvanced s) (e : step s = .next t) : HasAdvanced t := by
  by_cases hstopped : s.stopped = true
  · obtain rfl := Host.Outcome.next.inj ((step_of_stopped hstopped).symm.trans e)
    exact h
  · exact hasAdvanced_of_step (Bool.not_eq_true _ ▸ hstopped) e

theorem setMode_keeps_hasAdvanced {b : Bool} (h : HasAdvanced s) (e : s.setMode b = .next t) : HasAdvanced t := by
  by_cases hdrained : s.drained = true
  · obtain rfl := Host.Outcome.next.inj ((setMode_of_drained hdrained b).symm.trans e)
    exact h
  · cases (setMode_of_not_drained hdrained b).symm.trans e

theorem reset_beforeFirstAdvance (p : Params) : (State.resetWith p).beforeFirstAdvance = true :=
  beforeFirstAdvance_iff.2 ⟨rfl, rfl, rfl, rfl, rfl, rfl, rfl,
    cold_iff.2 fun _ hc _ hl => cold_line_invalid (p := p) (eq_cold_of_mem_reset_sets hc ▸ hl)⟩

/-- The test does not look at RAM. -/
theorem beforeFirstAdvance_of_ram (h : s.beforeFirstAdvance = true) (ram : Memory) :
    ({ s with mem := { s.mem with ram := ram } } : State).beforeFirstAdvance = true := h

/-- Behind a cold cache, whatever is put into RAM is what memory reads as. -/
theorem view_of_ram (h : s.beforeFirstAdvance = true) (ram : Memory) (p : Params) (k : Nat) :
    ({ s.mem with ram := ram } : MemSys).view p k = ram.read k :=
  view_of_cold (m := { s.mem with ram := ram }) (cold_of_beforeFirstAdvance h) p k

theorem loadProgram_of_late (h : s.beforeFirstAdvance = false) (ws : List Word) :
    s.loadProgram ws = .refused .notBeforeFirstAdvance := by
  simp [State.loadProgram, h]

theorem loadProgram_of_tooLong (h : s.beforeFirstAdvance = true) {ws : List Word} (hlen : s.params.ramCapacity < ws.length) :
    s.loadProgram ws = .refused .programTooLong := by
  simp [State.loadProgram, h, hlen]

theorem loadProgram_of_fits (h : s.beforeFirstAdvance = true) {ws : List Word} (hlen : ws.length ≤ s.params.ramCapacity) :
    s.loadProgram ws = .next { s with mem := { s.mem with ram := s.mem.ram.writeAll 0 ws } } := by
  simp [State.loadProgram, h, Nat.not_lt.2 hlen]

theorem ramWrite_of_late (h : s.beforeFirstAdvance = false) (a : Nat) (v : Word) :
    s.ramWrite a v = .refused .notBeforeFirstAdvance := by
  simp [State.ramWrite, h]

theorem ramWrite_of_outOfRange (h : s.beforeFirstAdvance = true) {a : Nat} (ha : s.params.ramCapacity ≤ a) (v : Word) :
    s.ramWrite a v = .refused .outOfDomain := by
  simp [State.ramWrite, h, ha]

theorem ramWrite_of_inRange (h : s.beforeFirstAdvance = true) {a : Nat} (ha : a < s.params.ramCapacity) (v : Word) :
    s.ramWrite a v = .next { s with mem := { s.mem with ram := s.mem.ram.write a v } } := by
  simp [State.ramWrite, h, Nat.not_le.2 ha]

end Loading

/-- Settles O60. -/
theorem loadProgramPlacesWords : Obligations.LoadProgramPlacesWords := by
  refine ⟨fun s => ?test, fun p => ⟨reset_beforeFirstAdvance p, wf_reset p, reset_ram_zero p⟩, fun s h hwf => ?before,
    fun s h => ⟨loadProgram_of_late h, ramWrite_of_late h⟩, fun s t => hasAdvanced_of_step, fun s h => ?after⟩
  case test =>
    rw [beforeFirstAdvance_iff, cold_iff]
    tauto
  case before =>
    refine ⟨fun ws => loadProgram_of_tooLong h, fun ws hlen => ⟨_, loadProgram_of_fits h hlen, ?inside, ?outside,
      view_of_ram h _ _, rfl, beforeFirstAdvance_of_ram h _, wf_writeAll hwf 0 ws⟩,
      fun a v ha => ramWrite_of_outOfRange h ha v,
      fun a v ha => ⟨_, ramWrite_of_inRange h ha v, read_write_same hwf a v, fun k hk => read_write_ne _ v hk,
        view_of_ram h _ _, rfl, beforeFirstAdvance_of_ram h _, wf_write hwf a v⟩⟩
    case inside =>
      intro k hk
      simpa using read_writeAll_inside hwf ws (a := 0) hk
    case outside =>
      intro k hk
      exact read_writeAll_outside _ ws (Or.inr (by omega))
  case after =>
    exact ⟨not_beforeFirstAdvance_of_hasAdvanced h, fun t => step_keeps_hasAdvanced h, fun b t => setMode_keeps_hasAdvanced h,
      h, h⟩

end Sys2Proof.Proofs.HostOperations
